-- ==== Sys2Proof/Word.lean ====
section
/-! DEFINITION. The word types of the ARMAX cipher block (R6): everything software can see as a word. -/

namespace Sys2Proof

/-- A `u32`: a buffer word, an operand or result register, a command word, a seed (R6). -/
abbrev Word := BitVec 32

/-- A `u16`: a GS3+ seed, the ARMAX CRC register (R6, R131). -/
abbrev Half := BitVec 16

/-- A `u8`: an AR2 lane, seed byte or table entry (R6). -/
abbrev Byte := BitVec 8

/-- A line: (address word, value word) (R12, R60). -/
abbrev Pair := Word × Word

end Sys2Proof
end

