-- ==== Sys2Proof/Syntax.lean ====
section
/-! DEFINITION. The command set ARMAXCB revision 1: one constructor per row of spec/opcode_table.json, in the table's
order (R54). A format `N` command carries nothing, its operands being `OP[0..3]`; a format `I` command carries `IMM`
(R52, R53). -/

namespace Sys2Proof

/-- A command of R54. -/
inductive Instr where
  /-- `NOP` (R81). -/
  | nop
  /-- `BUF_APPEND` (R83). -/
  | bufAppend
  /-- `BUF_PREPEND` (R84). -/
  | bufPrepend
  /-- `BUF_REMOVE` (R85). -/
  | bufRemove
  /-- `BATCH_RESET` (R82). -/
  | batchReset
  /-- `AR2_SETSEED` (R91). -/
  | ar2SetSeed
  /-- `AR2_GETSEED` (R92). -/
  | ar2GetSeed
  /-- `AR2_DECW` (R99). -/
  | ar2DecW
  /-- `AR2_ENCW` (R100). -/
  | ar2EncW
  /-- `AR2_BDEC` (R103). -/
  | ar2BDec
  /-- `AR2_BENC` (R104). -/
  | ar2BEnc
  /-- `AR1_BDEC` (R105). -/
  | ar1BDec
  /-- `AR1_BENC` (R106). -/
  | ar1BEnc
  /-- `AX_DECB` (R122). -/
  | axDecB
  /-- `AX_ENCB` (R123). -/
  | axEncB
  /-- `AX_CRC` (R134). -/
  | axCrc
  /-- `AX_BDEC` (R135). -/
  | axBDec
  /-- `AX_BENC` (R136). -/
  | axBEnc
  /-- `AX_RDVER` (R150). -/
  | axRdVer
  /-- `AX_MKVER` (R152). -/
  | axMkVer
  /-- `AX_LDEC` (R138). -/
  | axLDec
  /-- `AX_LENC` (R140). -/
  | axLEnc
  /-- `CUR_SET` (R147). -/
  | curSet
  /-- `CUR_READ n` (R148): `n` is `IMM`. -/
  | curRead (n : Byte)
  /-- `GS3_SETSEEDS` (R171). -/
  | gs3SetSeeds
  /-- `GS3_DECP` (R177). -/
  | gs3DecP
  /-- `GS3_ENCP key` (R178): `key` is `IMM`. -/
  | gs3EncP (key : Byte)
  /-- `GS3_BDEC` (R179). -/
  | gs3BDec
  /-- `GS3_BENC key` (R180): `key` is `IMM`. -/
  | gs3BEnc (key : Byte)
  /-- `GS3_RNG_SEED` (R167). -/
  | gs3RngSeed
  /-- `GS3_RNG_NEXT` (R168). -/
  | gs3RngNext
deriving DecidableEq, Repr

end Sys2Proof
end

