-- ==== Sys2Proof/WellFormed.lean ====
section
/-! DEFINITION. Well-formed commands: the legal range of `IMM` in each format `I` command (R56). -/

namespace Sys2Proof

/-- `CUR_READ` needs `IMM <= 32`, `GS3_ENCP` and `GS3_BENC` need `IMM <= 7` (R56); no other command has a field. -/
def Instr.wf : Instr → Bool
  | .curRead n => decide (n.toNat ≤ 32)
  | .gs3EncP key => decide (key.toNat ≤ 7)
  | .gs3BEnc key => decide (key.toNat ≤ 7)
  | .nop | .bufAppend | .bufPrepend | .bufRemove | .batchReset
  | .ar2SetSeed | .ar2GetSeed | .ar2DecW | .ar2EncW | .ar2BDec | .ar2BEnc | .ar1BDec | .ar1BEnc
  | .axDecB | .axEncB | .axCrc | .axBDec | .axBEnc | .axRdVer | .axMkVer | .axLDec | .axLEnc
  | .curSet | .gs3SetSeeds | .gs3DecP | .gs3BDec | .gs3RngSeed | .gs3RngNext => true

end Sys2Proof
end

