-- ==== Sys2Proof/Decode.lean ====
section
/-! DEFINITION. The command word (R52 to R56): a decoder, total on every 32-bit word and rejecting by name, and an encoder.

Selection is R55's: a word selects a command exactly when it equals the command's `match` under its `mask`. The range of
`IMM` in a format `I` command is "checked by the command's rule" (R55), so `CUR_READ 33` is selected here and ends with
`ERR_ILLEGAL` in its own meaning (log 9). -/

namespace Sys2Proof

/-- The two command formats (R52, R54). -/
inductive Format where
  | n | i
deriving DecidableEq, Repr

/-- R55: in format `N` every bit is fixed, in format `I` the field `IMM` is free. -/
def Format.mask : Format → Word
  | .n => 0xFFFFFFFF
  | .i => 0xFFFF00FF

/-- One row of the opcode map (R54): its opcode, its format and the command it selects, given `IMM`. -/
structure OpcodeRow where
  opc : Byte
  fmt : Format
  build : Byte → Instr

/-- R55: `match` is the opcode with every other fixed bit 0. -/
def OpcodeRow.pattern (r : OpcodeRow) : Word := r.opc.setWidth 32

/-- The opcode map, in the order of R54. -/
def opcodeMap : List OpcodeRow :=
  [ ⟨0x00, .n, fun _ => .nop⟩, ⟨0x01, .n, fun _ => .bufAppend⟩, ⟨0x02, .n, fun _ => .bufPrepend⟩,
    ⟨0x03, .n, fun _ => .bufRemove⟩, ⟨0x0F, .n, fun _ => .batchReset⟩, ⟨0x10, .n, fun _ => .ar2SetSeed⟩,
    ⟨0x11, .n, fun _ => .ar2GetSeed⟩, ⟨0x12, .n, fun _ => .ar2DecW⟩, ⟨0x13, .n, fun _ => .ar2EncW⟩,
    ⟨0x14, .n, fun _ => .ar2BDec⟩, ⟨0x15, .n, fun _ => .ar2BEnc⟩, ⟨0x16, .n, fun _ => .ar1BDec⟩,
    ⟨0x17, .n, fun _ => .ar1BEnc⟩, ⟨0x20, .n, fun _ => .axDecB⟩, ⟨0x21, .n, fun _ => .axEncB⟩,
    ⟨0x22, .n, fun _ => .axCrc⟩, ⟨0x23, .n, fun _ => .axBDec⟩, ⟨0x24, .n, fun _ => .axBEnc⟩ ] ++
  [ ⟨0x25, .n, fun _ => .axRdVer⟩, ⟨0x26, .n, fun _ => .axMkVer⟩, ⟨0x27, .n, fun _ => .axLDec⟩,
    ⟨0x28, .n, fun _ => .axLEnc⟩, ⟨0x30, .n, fun _ => .curSet⟩, ⟨0x31, .i, .curRead⟩,
    ⟨0x40, .n, fun _ => .gs3SetSeeds⟩, ⟨0x41, .n, fun _ => .gs3DecP⟩, ⟨0x42, .i, .gs3EncP⟩,
    ⟨0x43, .n, fun _ => .gs3BDec⟩, ⟨0x44, .i, .gs3BEnc⟩, ⟨0x45, .n, fun _ => .gs3RngSeed⟩,
    ⟨0x46, .n, fun _ => .gs3RngNext⟩ ]

/-- `OPC = c[7:0]` (R52). -/
def opcField (c : Word) : Byte := c.extractLsb' 0 8

/-- `IMM = c[15:8]` (R52). -/
def immField (c : Word) : Byte := c.extractLsb' 8 8

/-- `RSV = c[31:16]` (R52). -/
def rsvField (c : Word) : Half := c.extractLsb' 16 16

/-- Why a word selects no command (R56, its first three cases). -/
inductive DecodeError where
  /-- `RSV` is not 0. -/
  | reservedBits
  /-- `OPC` is not an opcode of R54. -/
  | unknownOpcode (opc : Byte)
  /-- `IMM` is not 0 in a format `N` command. -/
  | immNotZero (opc : Byte)
deriving DecidableEq, Repr

/-- `c & mask(X) == match(X)` (R55). -/
def OpcodeRow.selects (c : Word) (r : OpcodeRow) : Bool := (c &&& r.fmt.mask) == r.pattern

/-- The command a word selects, or the name of what is wrong with the word (R55, R56). -/
def decode (c : Word) : Except DecodeError Instr :=
  match opcodeMap.find? (OpcodeRow.selects c) with
  | some r => .ok (r.build (immField c))
  | none =>
    if rsvField c ≠ 0 then .error .reservedBits
    else if opcodeMap.all (fun r => r.opc != opcField c) then .error (.unknownOpcode (opcField c))
    else .error (.immNotZero (opcField c))

/-- The word with opcode `opc` and immediate `imm` (R52, R57: `OPC | (imm << 8)`). -/
def commandWord (opc imm : Byte) : Word := opc.setWidth 32 ||| (imm.setWidth 32 <<< 8)

/-- The command word of a command (R54). -/
def encode : Instr → Word
  | .nop => 0x00
  | .bufAppend => 0x01
  | .bufPrepend => 0x02
  | .bufRemove => 0x03
  | .batchReset => 0x0F
  | .ar2SetSeed => 0x10
  | .ar2GetSeed => 0x11
  | .ar2DecW => 0x12
  | .ar2EncW => 0x13
  | .ar2BDec => 0x14
  | .ar2BEnc => 0x15
  | .ar1BDec => 0x16
  | .ar1BEnc => 0x17
  | .axDecB => 0x20
  | .axEncB => 0x21
  | .axCrc => 0x22
  | .axBDec => 0x23
  | .axBEnc => 0x24
  | .axRdVer => 0x25
  | .axMkVer => 0x26
  | .axLDec => 0x27
  | .axLEnc => 0x28
  | .curSet => 0x30
  | .curRead n => commandWord 0x31 n
  | .gs3SetSeeds => 0x40
  | .gs3DecP => 0x41
  | .gs3EncP key => commandWord 0x42 key
  | .gs3BDec => 0x43
  | .gs3BEnc key => commandWord 0x44 key
  | .gs3RngSeed => 0x45
  | .gs3RngNext => 0x46

/-- The instruction the decoder reads from an instruction whose bits are `w`. A command is one 32-bit word (R52), which the
bus carries whole (R39), so the word is laid out as it stands. -/
def decodeTableWord (nbits w : Nat) : Option Instr :=
  if nbits ≤ 32 ∧ w < 2 ^ nbits then
    match decode (BitVec.ofNat 32 w) with
    | .ok i => some i
    | .error _ => none
  else none

end Sys2Proof
end

