-- ==== Sys2Proof/Config.lean ====
section
/-! DEFINITION. What an implementation fixes: the parameters of R5, and the free values of
93_implementation_defined.md. Every OPEN parameter is a constant with NO BODY, so that nothing in the model can
learn its value; the constraints the spec puts on a parameter are proof fields of the parameter's type. -/

namespace Sys2Proof

/-! ## AR1/AR2 parameters -/

/-- The six lane operations of R93, named as the spec names them. -/
inductive LaneOp where
  | xor | nxor | add | sub | xadd | subx
deriving DecidableEq, Repr, Inhabited

/-- A lane descriptor `(op, ti, oi, tj, oj)` (R94): table numbers in 0..3, index offsets in 0..31. -/
structure Lane where
  op : LaneOp
  ti : Fin 4
  oi : BitVec 5
  tj : Fin 4
  oj : BitVec 5
deriving DecidableEq, Repr, Inhabited

/-- The lane operation that R93's table gives type `t` for `t` in 0..5 (type 6 takes its operation from the
descriptor, so the last line is never consulted for it). -/
def laneOpOfType : Fin 7 → LaneOp
  | 0 => .xor
  | 1 => .nxor
  | 2 => .add
  | 3 => .sub
  | 4 => .xadd
  | 5 => .subx
  | 6 => .xor

/-- The AR1/AR2 parameters of R5. -/
structure Ar2Params where
  /-- `AR2_TBL`: four tables of 32 bytes. -/
  tbl : Fin 4 → BitVec 5 → Byte
  /-- `AR2_XFORM[t][b]` for types 0..6 and byte lanes 0..3. -/
  xform : Fin 7 → Fin 4 → Lane := fun t _ => ⟨laneOpOfType t, 0, 0, 0, 0⟩
  /-- `AR2_MARKER`. -/
  marker : Word
  /-- `AR1_SEED`. -/
  ar1Seed : Word
  /-- `AR2_SEED_RESET`. -/
  seedReset : Word
  /-- R94: for types 0 to 5 the operation is R93's and both offsets are 0. -/
  xform_fixed : ∀ t b, t.val < 6 →
      (xform t b).op = laneOpOfType t ∧ (xform t b).oi = 0 ∧ (xform t b).oj = 0 := by
    intro t b _; exact ⟨rfl, rfl, rfl⟩
deriving Inhabited

/-! ## ARMAX parameters -/

/-- The ARMAX parameters of R5 and R114. `PC1`, `ROT` and `PC2` hold the spec's entry LESS ONE: an entry in 1..n is an
element of `Fin n`. -/
structure AxParams where
  /-- `ARMAX_KEY[0..7]`. -/
  key : Fin 8 → Byte
  /-- `ARMAX_PC1[i] - 1`. -/
  pc1 : Fin 56 → Fin 64
  /-- `ARMAX_BIT8[0..7]`. -/
  bit8 : Fin 8 → Byte
  /-- `ARMAX_ROT[i] - 1`. -/
  rot : Fin 16 → Fin 28
  /-- `ARMAX_PC2[j] - 1`. -/
  pc2 : Fin 48 → Fin 56
  /-- `ARMAX_MASK6[0..5]`. -/
  mask6 : Fin 6 → Byte
  /-- `ARMAX_SP[0..7][0..63]`. -/
  sp : Fin 8 → BitVec 6 → Word
  /-- `ARMAX_CRC_T0[0..15]`. -/
  crcT0 : BitVec 4 → Half
  /-- `ARMAX_CRC_T1[0..15]`. -/
  crcT1 : BitVec 4 → Half
deriving Inhabited

/-! ## GS3+ types and parameters -/

/-- `GS3S[0..2]`: the three human seeds (R21). -/
structure Seeds where
  s0 : Half
  s1 : Half
  s2 : Half
deriving DecidableEq, Repr, Inhabited

/-- `RNG`: the generator state, 624 words and an index in 0..624 (R24). -/
structure Rng where
  mt : Vector Word 624
  mti : Fin 625
deriving DecidableEq, Repr, Inhabited

/-- Four byte tables of the sizes of R22 in one orientation; an entry of a table of `n` entries is in `0..n-1`. -/
structure TableSet where
  t0 : Vector (Fin 0x19) 0x19
  t1 : Vector (Fin 0x39) 0x39
  t2 : Vector (Fin 0x40) 0x40
  t3 : Vector (Fin 0x100) 0x100
deriving DecidableEq, Repr

/-- `TBL_E` and `TBL_D` (R22). -/
structure Gs3Tables where
  e : TableSet
  d : TableSet
deriving DecidableEq, Repr

/-- The key field `addr[27:25]` of a pair (R66). -/
def pairKey (x : Pair) : BitVec 3 := x.1.extractLsb' 25 3

/-- `x` with its key field replaced; used only to show that the laws of R176 have an instance. -/
def withPairKey (k : BitVec 3) (x : Pair) : Pair :=
  (x.1.extractLsb' 28 4 ++ k ++ x.1.extractLsb' 0 25, x.2)

/-- Bit `i` of a pair read as 64 bits with the address word in the high half. -/
def pairBit (x : Pair) (i : Fin 64) : Bool := (x.1 ++ x.2).getLsbD i

/-- The three bits of a pair that are its key field: `addr[27:25]` is bits 59:57 of the 64. -/
def isKeyBit (i : Fin 64) : Bool := 57 ≤ i.val && i.val ≤ 59

/-- R175: on the 61 bits outside the key field, `f` rearranges the bits of the pair by one permutation. -/
def PermutesFreeBits (f : Pair → Pair) : Prop :=
  ∃ σ : Equiv.Perm (Fin 64), (∀ i, isKeyBit (σ i) = isKeyBit i) ∧
    ∀ x i, isKeyBit i = false → pairBit (f x) i = pairBit x (σ i)

theorem pairKey_withPairKey (k : BitVec 3) (x : Pair) : pairKey (withPairKey k x) = k := by
  apply BitVec.eq_of_getLsbD_eq
  intro i hi
  simp only [pairKey, withPairKey, BitVec.getLsbD_extractLsb', BitVec.getLsbD_append]
  interval_cases i <;> simp

theorem withPairKey_withPairKey (k l : BitVec 3) (x : Pair) :
    withPairKey k (withPairKey l x) = withPairKey k x := by
  refine Prod.ext ?_ rfl
  apply BitVec.eq_of_getLsbD_eq
  intro i hi
  simp only [withPairKey, BitVec.getLsbD_extractLsb', BitVec.getLsbD_append]
  interval_cases i <;> simp

theorem withPairKey_self (x : Pair) : withPairKey (pairKey x) x = x := by
  refine Prod.ext ?_ rfl
  apply BitVec.eq_of_getLsbD_eq
  intro i hi
  simp only [pairKey, withPairKey, BitVec.getLsbD_extractLsb', BitVec.getLsbD_append]
  interval_cases i <;> simp

theorem withPairKey_permutes (k : BitVec 3) : PermutesFreeBits (withPairKey k) := by
  refine ⟨1, fun _ => rfl, fun x i hi => ?_⟩
  obtain ⟨i, h⟩ := i
  simp only [isKeyBit, Bool.and_eq_false_iff, decide_eq_false_iff_not] at hi
  simp only [pairBit, withPairKey, BitVec.getLsbD_append, BitVec.getLsbD_extractLsb', Equiv.Perm.one_apply]
  by_cases h1 : i < 32
  · simp [h1]
  · by_cases h2 : i < 57
    · have : i - 32 < 25 := by omega
      simp [h1, this]
    · have h3 : ¬ (i - 32 < 25) := by omega
      have h4 : ¬ (i - 32 - 25 < 3) := by omega
      have h5 : i - 32 - 25 - 3 < 4 := by omega
      have h6 : 28 + (i - 32 - 25 - 3) = i - 32 := by omega
      simp [h1, h3, h4, h5, h6]

/-- The GS3+ parameters of R5. The proof fields are the constraints of R169, R175 and R176; their default values only
show that an instance exists. DESIGN CHOICE (log 24): the laws of R175 and R176 are asked of every value of `Gs3Tables`, also
of one no table build gives, in which `d` is not the inverse of `e`. -/
structure Gs3Params where
  /-- `GS3_RNG`: `RngSeed` (R166). -/
  rngSeed : Word → Rng
  /-- `GS3_RNG`: `RngNext` (R166). -/
  rngNext : Rng → Word × Rng
  /-- `GS3_TBL_SEED[0]` (R170). -/
  tblSeed0 : Seeds → Word
  /-- `GS3_TBL_SEED[t]` for `t` = 1..3 (R170); `none` is the instance that does not reseed for that table. -/
  tblSeed : Fin 3 → Seeds → Option Word
  /-- `GS3_SHUFFLE(k, size)`: how many draws pass `k` takes (R169). -/
  shuffleDraws : Nat → Nat → Rng → Nat
  /-- `GS3_SHUFFLE(k, size)`: the two indices pass `k` chooses from its draws (R169). -/
  shufflePick : Nat → Nat → List Word → Nat × Nat := fun _ _ _ => (0, 0)
  /-- `GS3_DEC_k` for `k` in 1..4 (R175). -/
  dec : BitVec 3 → Gs3Tables → Pair → Pair := fun _ _ => withPairKey 0
  /-- `GS3_ENC_k` for `k` in 1..4 (R175). -/
  enc : BitVec 3 → Gs3Tables → Pair → Pair := fun k _ => withPairKey k
  /-- `GS3_DEC2_k` for `k` in 3..4 (R175). -/
  dec2 : BitVec 3 → Gs3Tables → Pair → Pair := fun _ _ x => x
  /-- `GS3_ENC2_k` for `k` in 3..4 (R175). -/
  enc2 : BitVec 3 → Gs3Tables → Pair → Pair := fun _ _ x => x
  /-- `GS3_SEEDS_FROM_PAIR` (R177). -/
  seedsFromPair : Pair → Seeds
  /-- `GS3_SEEDS_RESET` (R33). -/
  seedsReset : Seeds
  /-- R169: both indices of a pass are below the table's size. -/
  shufflePick_lt : ∀ k size ws, 0 < size → (shufflePick k size ws).1 < size ∧ (shufflePick k size ws).2 < size := by
    intro _ _ _ h; exact ⟨h, h⟩
  /-- R176 law 1. -/
  dec_enc : ∀ k T x, 1 ≤ k.toNat → k.toNat ≤ 4 → pairKey x = 0 → dec k T (enc k T x) = x := by
    intro k _ x _ _ h
    show withPairKey 0 (withPairKey k x) = x
    rw [withPairKey_withPairKey, ← h, withPairKey_self]
  /-- R176 law 2. -/
  enc_key : ∀ k T x, 1 ≤ k.toNat → k.toNat ≤ 4 → pairKey (enc k T x) = k := by
    intro k _ x _ _; exact pairKey_withPairKey k x
  /-- R176 law 3. -/
  dec2_enc2 : ∀ k T y, k.toNat = 3 ∨ k.toNat = 4 → dec2 k T (enc2 k T y) = y := by
    intro _ _ _ _; rfl
  /-- R175: the encrypt transforms of keys 1 and 2 permute the bits outside the key field. -/
  enc_permutes : ∀ k T, k.toNat = 1 ∨ k.toNat = 2 → PermutesFreeBits (enc k T) := by
    intro k _ _; exact withPairKey_permutes k
  /-- R175: so do their decrypt transforms. -/
  dec_permutes : ∀ k T, k.toNat = 1 ∨ k.toNat = 2 → PermutesFreeBits (dec k T) := by
    intro _ _ _; exact withPairKey_permutes 0
deriving Inhabited

/-! ## The constants -/

/-- `NMAX - 2`: the type holds exactly the range R5 gives, `2 <= NMAX <= 2^20` (1048575 values). -/
opaque Config.nmaxOffset : Fin 1048575

/-- `NMAX`, the buffer capacity (R5, D6). -/
def Config.nmax : Nat := Config.nmaxOffset.val + 2

/-- The instance of the AR1/AR2 parameters: OPEN (R5, U10). -/
opaque Config.ar2 : Ar2Params

/-- The instance of the ARMAX parameters: OPEN (R5, U6, U7). -/
opaque Config.ax : AxParams

/-- The instance of the GS3+ parameters: OPEN (R5, U8). -/
opaque Config.gs3 : Gs3Params

/-- `VERIFIER_WIDTHS` at the source's literal (R5, R63, D46; log 21). -/
def Config.verifierWidth : BitVec 3 → Nat
  | 0 => 6
  | 1 => 10
  | 2 => 12
  | 3 => 19
  | 4 => 19
  | 5 => 8
  | 6 => 7
  | 7 => 32

/-! ## Free values -/

/-- FREE VALUE (U3; log 4): what a byte of `MEM` holds after block reset number `epoch`, until something writes it. -/
opaque Config.unwrittenByte : (epoch address : Nat) → Byte

/-- FREE VALUE (U3; log 5): the word draw number `n` leaves in a buffer word that a shortening command leaves behind. -/
opaque Config.staleWord : (n : Nat) → Word

/-- FREE VALUE `AR2_TYPE_GE8` (R100, U5; log 7): the result draw number `n` gives an AR2 transform of type 8 to 255. -/
opaque Config.ar2TypeGe8 : (n : Nat) → Word

end Sys2Proof
end

