-- ==== Sys2Proof/Machine/Operands.lean ====
section
/-! DEFINITION. The notation of R7 and R8 and the operand forms of R53: byte order, rotations, fields and lanes of words. -/

namespace Sys2Proof.Machine

/-! ## Words -/

/-- Byte `b` of a word, byte 0 the least significant (R7). -/
def byteOf (w : Word) (b : Nat) : Byte := w.extractLsb' (8 * b) 8

/-- The word with the four bytes given, least significant first (R7, R95). -/
def ofBytes (b0 b1 b2 b3 : Byte) : Word := b3 ++ b2 ++ b1 ++ b0

/-- `bswap32`: the four bytes reversed (R8). -/
def bswap32 (x : Word) : Word := ofBytes (byteOf x 3) (byteOf x 2) (byteOf x 1) (byteOf x 0)

/-- `rotl32` (R8). -/
def rotl32 (x : Word) (n : Nat) : Word := (x <<< n) ||| (x >>> (32 - n))

/-- `rotr32(x, n)` is `rotl32(x, 32 - n)` (R8). -/
def rotr32 (x : Word) (n : Nat) : Word := rotl32 x (32 - n)

/-- `nswap8`: the two nibbles of a byte exchanged (R8). -/
def nswap8 (b : Byte) : Byte := b.extractLsb' 0 4 ++ b.extractLsb' 4 4

/-- `ceil_div` for a positive divisor: the least `q` with `q * b >= a` (R8). -/
def ceilDiv (a b : Nat) : Nat := (a + (b - 1)) / b

/-! ## Operand fields (R53) -/

/-- The low byte of an operand register: an AR2 type or seed byte (R53). -/
def lowByte (w : Word) : Byte := w.extractLsb' 0 8

/-- The low half of an operand register: a GS3+ seed (R171). -/
def lowHalf (w : Word) : Half := w.extractLsb' 0 16

/-- Seed byte `k` of the AR2 running seed, numbered from the most significant end: `SEED[31-8k : 24-8k]` (R19, R61). -/
def seedByte (seed : Word) (k : Nat) : Byte := seed.extractLsb' (24 - 8 * k) 8

/-- The GS3+ `commandKey` of an address word: `addr[27:25]` (R66, R172). -/
def commandKey (addr : Word) : BitVec 3 := addr.extractLsb' 25 3

/-! ## The ARMAX nibble slot and sentinel -/

/-- The CRC nibble slot `w[31:28]` (R133). -/
def nibbleSlot (w : Word) : BitVec 4 := w.extractLsb' 28 4

/-- `w` with the nibble slot replaced (R133). -/
def withNibble (w : Word) (n : BitVec 4) : Word := n ++ w.extractLsb' 0 28

/-- R65: an address word carries the master-code sentinel when `a >> 25 == 0x62`. -/
def isMasterCode (a : Word) : Bool := a >>> 25 == 0x62#32

/-! ## Fixed-size tables -/

/-- The table of `n` entries whose entry `i` is `f i`. -/
def tabulate {α : Type} (n : Nat) (f : Fin n → α) : Vector α n := ⟨⟨List.ofFn f⟩, by simp⟩

@[simp] theorem tabulate_getElem {α : Type} (n : Nat) (f : Fin n → α) (i : Nat) (h : i < n) :
    (tabulate n f)[i] = f ⟨i, h⟩ := by
  simp [tabulate]

end Sys2Proof.Machine
end

