-- ==== Sys2Proof/Machine/Generator.lean ====
section
/-! DEFINITION. The GS3+ generator's use (R166), the shuffle (R169) and the table build (R170), over the parameters of R5.
Nothing here touches the machine's state. -/

namespace Sys2Proof.Machine

/-- `n` draws from `RngNext()`, in order, and the generator after them (R166). -/
def drawList (P : Gs3Params) : Nat → Rng → List Word × Rng
  | 0, r => ([], r)
  | n + 1, r =>
    let (w, r) := P.rngNext r
    let (ws, r) := drawList P n r
    (w :: ws, r)

/-- `GS3_SHUFFLE(k, size)`: the two indices of pass `k` and the generator after the draws it took (R169; log 13). -/
def shufflePass (P : Gs3Params) (k size : Nat) (r : Rng) : (Nat × Nat) × Rng :=
  let (ws, r') := drawList P (P.shuffleDraws k size r) r
  (P.shufflePick k size ws, r')

/-- `swap T[i], T[j]` (R169). -/
def swapEntries {α : Type} {n : Nat} (T : Vector α n) (i j : Nat) : Vector α n :=
  if h : i < n ∧ j < n then (T.set i (T[j]'h.2) h.1).set j (T[i]'h.1) h.2 else T

/-- Passes `k, k+1, ..., k+m-1` of the shuffle (R169). -/
def shufflePasses (P : Gs3Params) {n : Nat} : (m k : Nat) → Vector (Fin n) n → Rng → Vector (Fin n) n × Rng
  | 0, _, T, r => (T, r)
  | m + 1, k, T, r =>
    let (ij, r) := shufflePass P k n r
    shufflePasses P m (k + 1) (swapEntries T ij.1 ij.2) r

/-- The identity table `T[i] = i` (R169). -/
def identityTable (n : Nat) : Vector (Fin n) n := tabulate n id

/-- `Shuffle(size)`: `2 * size` swap passes over the identity table (R169). -/
def shuffle (P : Gs3Params) (n : Nat) (r : Rng) : Vector (Fin n) n × Rng :=
  shufflePasses P (2 * n) 0 (identityTable n) r

/-- `TBL_D[t][TBL_E[t][i]] <- i` for `i` in 0 .. size-1 (R170; log 11). -/
def invertTable {n : Nat} (T : Vector (Fin n) n) : Vector (Fin n) n :=
  (List.finRange n).foldl (fun D i => D.set T[i].val i T[i].isLt) (identityTable n)

/-- The generator at the start of table `t`, `t` in 1..3: reseeded, or left to run on (R170; log 12). -/
def reseed (P : Gs3Params) (t : Fin 3) (s : Seeds) (r : Rng) : Rng :=
  match P.tblSeed t s with
  | some x => P.rngSeed x
  | none => r

/-- `TBL_D` from `TBL_E`, table by table (R170). -/
def TableSet.inverse (T : TableSet) : TableSet :=
  ⟨invertTable T.t0, invertTable T.t1, invertTable T.t2, invertTable T.t3⟩

/-- `BuildTables()`: the tables the seeds give, built in size order, and the generator the build leaves (R170, U9).
Irreducible to the elaborator only, which would otherwise unroll the shuffles whenever it compares two states. -/
@[irreducible] def buildTables (P : Gs3Params) (s : Seeds) : Gs3Tables × Rng :=
  let (t0, r) := shuffle P 0x19 (P.rngSeed (P.tblSeed0 s))
  let (t1, r) := shuffle P 0x39 (reseed P 0 s r)
  let (t2, r) := shuffle P 0x40 (reseed P 1 s r)
  let (t3, r) := shuffle P 0x100 (reseed P 2 s r)
  let E : TableSet := ⟨t0, t1, t2, t3⟩
  (⟨E, TableSet.inverse E⟩, r)

end Sys2Proof.Machine
end

