-- ==== Sys2Proof/Machine/Kernel.lean ====
section
/-! DEFINITION. The ARMAX round schedule (R115 to R119) and block cipher kernel (R120, R121), over the parameters of R114.
Nothing here touches the machine's state. -/

namespace Sys2Proof.Machine

/-! ## Round schedule -/

/-- Step 1, `a0[i]`: the flag is set when `ARMAX_KEY[t >> 3] & ARMAX_BIT8[t & 7]` is not 0 for `t = ARMAX_PC1[i] - 1`
(R116). -/
def keyFlag (P : AxParams) (i : Fin 56) : Bool :=
  let t := P.pc1 i
  (P.key ⟨t.val / 8, by omega⟩ &&& P.bit8 ⟨t.val % 8, by omega⟩) != 0

/-- The index `t` of step 2: `ARMAX_ROT[i] + j`, brought back into the 28-flag half of `j` (R117). -/
def rotatedIndex (rot j : Nat) : Nat :=
  let t := rot + j
  if j ≤ 27 then (if t > 27 then t - 28 else t) else (if t > 55 then t - 28 else t)

theorem rotatedIndex_lt (rot : Fin 28) (j : Fin 56) : rotatedIndex (rot.val + 1) j.val < 56 := by
  simp only [rotatedIndex]; split <;> split <;> omega

/-- Step 2, `a1[j]` for output pair `i`: the flag at the rotated index (R117). -/
def rotatedFlag (P : AxParams) (i : Fin 16) (j : Fin 56) : Bool :=
  keyFlag P ⟨rotatedIndex ((P.rot i).val + 1) j.val, rotatedIndex_lt (P.rot i) j⟩

/-- Step 2, `a2[k]` for output pair `i`: byte `k` collects the six flags `j = 6k .. 6k+5`, flag `j` through
`ARMAX_MASK6[j mod 6] >> 2` (R117). -/
def packedByte (P : AxParams) (i : Fin 16) (k : Fin 8) : Byte :=
  (List.finRange 6).foldl
    (fun acc m =>
      if rotatedFlag P i (P.pc2 ⟨6 * k.val + m.val, by omega⟩) then acc ||| (P.mask6 m >>> 2) else acc) 0

/-- Step 3: the two words of output pair `i` (R118). -/
def schedulePair (P : AxParams) (i : Fin 16) : Word × Word :=
  let a2 := packedByte P i
  (a2 0 ++ a2 2 ++ a2 4 ++ a2 6, a2 1 ++ a2 3 ++ a2 5 ++ a2 7)

/-- The word at index `j` of the 32-word schedule whose pairs are `f 0 .. f 15`: the pair's first word at an even index. -/
def pairWord (f : Fin 16 → Word × Word) (j : Fin 32) : Word :=
  let p := f ⟨j.val / 2, by omega⟩
  if j.val % 2 = 0 then p.1 else p.2

/-- `SCHED_E`: the schedule in encrypt orientation (R118). -/
def schedEncrypt (P : AxParams) : Vector Word 32 := tabulate 32 (pairWord (schedulePair P))

/-- `S` with the order of its 16 pairs reversed and the order within each pair kept (R119). -/
def reversePairs (S : Vector Word 32) : Vector Word 32 :=
  tabulate 32 fun j => S[2 * (15 - j.val / 2) + j.val % 2]

/-- `SCHED_D`: the schedule in decrypt orientation (R119). -/
def schedDecrypt (P : AxParams) : Vector Word 32 := reversePairs (schedEncrypt P)

/-! ## Kernel -/

/-- The round function `F(x, s0, s1)` (R121). -/
def roundF (sp : Fin 8 → BitVec 6 → Word) (x s0 s1 : Word) : Word :=
  let t := rotr32 x 4 ^^^ s0
  let t2 := x ^^^ s1
  sp 6 (t.extractLsb' 0 6) ^^^ sp 4 (t.extractLsb' 8 6) ^^^ sp 2 (t.extractLsb' 16 6) ^^^ sp 0 (t.extractLsb' 24 6) ^^^
    sp 7 (t2.extractLsb' 0 6) ^^^ sp 5 (t2.extractLsb' 8 6) ^^^ sp 3 (t2.extractLsb' 16 6) ^^^ sp 1 (t2.extractLsb' 24 6)

/-- One masked swap: both halves exchange the bits of `mask` in which they differ, `t <- (a ^ v) & mask`. -/
def maskedSwap (mask : Word) (av : Word × Word) : Word × Word :=
  let t := (av.1 ^^^ av.2) &&& mask
  (av.1 ^^^ t, av.2 ^^^ t)

/-- The five scramble steps, on `(a, v)` after the framing swap (R121). -/
def scramble (a v : Word) : Word × Word :=
  let v := rotl32 v 4
  let (a, v) := maskedSwap 0xF0F0F0F0 (a, v)
  let v := rotr32 v 20
  let (a, v) := maskedSwap 0xFFFF0000 (a, v)
  let v := rotr32 v 18
  let (a, v) := maskedSwap 0x33333333 (a, v)
  let v := rotr32 v 6
  let (a, v) := maskedSwap 0x00FF00FF (a, v)
  let v := rotl32 v 9
  let (a, v) := maskedSwap 0xAAAAAAAA (a, v)
  (rotl32 a 1, v)

/-- The rounds, two schedule words each: the first of every two rounds changes `a`, the second `v` (R113, R121). -/
def rounds (sp : Fin 8 → BitVec 6 → Word) : List (Word × Word) → Word × Word → Word × Word
  | [], av => av
  | [k], (a, v) => (a ^^^ roundF sp v k.1 k.2, v)
  | k :: k' :: ks, (a, v) =>
    let a := a ^^^ roundF sp v k.1 k.2
    let v := v ^^^ roundF sp a k'.1 k'.2
    rounds sp ks (a, v)

/-- The 16 pairs `(S[2p], S[2p+1])` of a schedule, in order. -/
def schedulePairs (S : Vector Word 32) : List (Word × Word) :=
  (List.finRange 16).map fun p => (S[2 * p.val], S[2 * p.val + 1])

/-- The five unscramble steps (R121). -/
def unscramble (a v : Word) : Word × Word :=
  let v := rotr32 v 1
  let (a, v) := maskedSwap 0xAAAAAAAA (a, v)
  let a := rotr32 a 9
  let (a, v) := maskedSwap 0x00FF00FF (a, v)
  let a := rotl32 a 6
  let (a, v) := maskedSwap 0x33333333 (a, v)
  let a := rotl32 a 18
  let (a, v) := maskedSwap 0xFFFF0000 (a, v)
  let a := rotl32 a 20
  let (a, v) := maskedSwap 0xF0F0F0F0 (a, v)
  (rotr32 a 4, v)

/-- `Kernel(w0, w1, S)`: framing, scramble, 16 rounds, unscramble, framing with the halves exchanged (R120, R121). -/
def kernel (sp : Fin 8 → BitVec 6 → Word) (S : Vector Word 32) (w : Pair) : Pair :=
  let s := scramble (bswap32 w.1) (bswap32 w.2)
  let r := rounds sp (schedulePairs S) s
  let u := unscramble r.1 r.2
  (bswap32 u.2, bswap32 u.1)

end Sys2Proof.Machine
end

