-- ==== Sys2Proof/Machine/State.lean ====
section
/-! DEFINITION. The state of the ARMAX cipher block (10_state.md), the host's and the platform's events that drive it
(20_memory.md, R206), the reasons a step can stop, and the state after block reset (R33, R206). -/

namespace Sys2Proof.Machine

/-- Four 32-bit registers numbered 0..3: `OP[0..3]` or `RES[0..3]` (R15). -/
structure Quad where
  r0 : Word
  r1 : Word
  r2 : Word
  r3 : Word
deriving DecidableEq, Repr

/-- The bit cursor `CURW`, `CURB`, `CURLIM` (R25; log 8). -/
structure Cursor where
  word : Nat
  bit : Nat
  limit : Nat
deriving DecidableEq, Repr

/-- The storage of `MEM` (R26): cells (byte address, byte) in canonical form, that is, with addresses strictly rising. An
address no cell lists holds no written value; what it reads as is the free value `Config.unwrittenByte epoch address`
(U3; log 3, 4). -/
structure Memory where
  epoch : Nat
  cells : List Host.Cell
deriving DecidableEq, Repr

/-- Who drives an access (R14, R34). -/
inductive Agent where
  /-- The one host. -/
  | host
  /-- Any other bus master (U4). -/
  | other
deriving DecidableEq, Repr

/-- A bus access is a read or a write (R35). -/
inductive Access where
  | read
  | write (value : Word)
deriving DecidableEq, Repr

/-- One bus transaction (R35, R59): who makes it, its width in bits, its byte offset in the block's own address space. -/
structure Transaction where
  agent : Agent
  width : Nat
  offset : Nat
  access : Access
deriving DecidableEq, Repr

/-- What can happen to the block: a bus transaction, or a block reset from the platform (R206). -/
inductive Event where
  | bus (t : Transaction)
  | blockReset
deriving DecidableEq, Repr

/-- The state of the block. The first fields are the spec's (R15 to R26); the last three are the model's own (log 1, 6). -/
structure State where
  /-- `OP[0..3]` (R15). -/
  op : Quad
  /-- `RES[0..3]` (R15). -/
  res : Quad
  /-- `CMD` (R17). -/
  cmd : Word
  /-- `STATUS` (R18). -/
  status : Word
  /-- `SEED` (R19). -/
  seed : Word
  /-- `SCHED_E[0..31]` (R20). -/
  schedE : Vector Word 32
  /-- `SCHED_D[0..31]` (R20). -/
  schedD : Vector Word 32
  /-- `GS3S[0..2]` (R21). -/
  gs3s : Seeds
  /-- `TBL_E` and `TBL_D` (R22). -/
  tbl : Gs3Tables
  /-- `GS3L` (R23). -/
  gs3l : Bool
  /-- `GS3K` (R23). -/
  gs3k : BitVec 3
  /-- `RNG` (R24). -/
  rng : Rng
  /-- `CURW`, `CURB`, `CURLIM` (R25). -/
  cur : Cursor
  /-- `LEN` (R26). -/
  len : Nat
  /-- `MEM` (R26). -/
  mem : Memory
  /-- The model's own: how many free values have been drawn (log 5, 6, 7). -/
  draws : Nat
  /-- The model's own: the events still to come, oldest first (log 1). -/
  events : List Event
  /-- The model's own: the values host reads returned, newest first (log 1). -/
  replies : List Word
deriving DecidableEq, Repr

/-- Reasons the machine stops with a fault: NONE. The block raises no traps (R191, R198); a command that cannot complete
records a code in `STATUS` and the machine goes on. Safe: there is nothing a claim could miss. -/
inductive Fault where
deriving DecidableEq, Repr

/-- Reasons the model has no step. None of them is raised by a command. -/
inductive Refusal where
  /-- An instruction that has no meaning yet; no arm of `exec` answers it. Safe. -/
  | notModelled (mnemonic : String)
  /-- Raised by the bus on an access by a second agent (R34, U4: "refuse"). Safe: the model stops where a device might
  go on. -/
  | secondAgent
  /-- Raised by the bus on an access that is not 32 bits wide (R41, U1: "refuse"). Safe. -/
  | accessWidth
  /-- Raised by the bus on an access at an offset that is not a multiple of 4 (R41, U1: "refuse"). Safe. -/
  | misaligned
deriving DecidableEq, Repr

/-- Four zero registers. -/
def Quad.zero : Quad := ⟨0, 0, 0, 0⟩

/-- The machine right after block reset (R33, R206): registers 0, `SEED` and `GS3S` at their parameters, the schedule and
the tables built, nothing written to `MEM`. -/
def State.reset : State where
  op := Quad.zero
  res := Quad.zero
  cmd := 0
  status := 0
  seed := Config.ar2.seedReset
  schedE := schedEncrypt Config.ax
  schedD := schedDecrypt Config.ax
  gs3s := Config.gs3.seedsReset
  tbl := (buildTables Config.gs3 Config.gs3.seedsReset).1
  gs3l := false
  gs3k := 0
  rng := (buildTables Config.gs3 Config.gs3.seedsReset).2
  cur := ⟨0, 0, 0⟩
  len := 0
  mem := ⟨0, []⟩
  draws := 0
  events := []
  replies := []

end Sys2Proof.Machine
end

