-- ==== Sys2Proof/Machine/Flags.lean ====
section
/-! DEFINITION. The `STATUS` register (R18): its codes, its fields and how the end of a command writes it. The block has no
arithmetic flags (R29). -/

namespace Sys2Proof.Machine

/-- The result codes of R18 and R191. -/
inductive Code where
  /-- 0 `OK`. -/
  | ok
  /-- 1 `ERR_ILLEGAL`. -/
  | illegal
  /-- 2 `ERR_STRUCT`. -/
  | structural
  /-- 3 `ERR_CRC`. -/
  | crc
  /-- 4 `ERR_VERIFIER`. -/
  | verifier
deriving DecidableEq, Repr

/-- The value of a code in `STATUS.CODE` (R18). -/
def Code.bits : Code → BitVec 4
  | .ok => 0
  | .illegal => 1
  | .structural => 2
  | .crc => 3
  | .verifier => 4

/-- `STATUS.CODE`, bits 3:0 (R18). -/
def statusCode (st : Word) : BitVec 4 := st.extractLsb' 0 4

/-- `STATUS.STICKY`, bit 8 (R18). -/
def statusSticky (st : Word) : Bool := st.getLsbD 8

/-- A `STATUS` word with the given fields; every reserved bit is 0 (R18). -/
def statusWord (sticky : Bool) (code : BitVec 4) : Word :=
  (if sticky then 0x100#32 else 0#32) ||| code.setWidth 32

/-- `STATUS` after a command that ends with code `c`: `CODE <- c`, and `STICKY` is set by every code but `OK` and never
cleared (R9, R18). -/
def statusAfter (st : Word) (c : Code) : Word :=
  statusWord (statusSticky st || c != .ok) c.bits

/-- `GS3STAT`: `GS3L` in bit 0, `GS3K` in bits 3:1, the rest 0 (R28). -/
def gs3StatWord (l : Bool) (k : BitVec 3) : Word :=
  (if l then 1#32 else 0#32) ||| (k.setWidth 32 <<< 1)

end Sys2Proof.Machine
end

