-- ==== Sys2Proof/Machine/Ops.lean ====
section
/-! DEFINITION. The named operations over the state: buffer words, registers, how a command ends, the free values, the
removal procedure and the bit cursor. Every read and write of `MEM` goes through `Memory.readWord` and
`Memory.writeWord`. -/

namespace Sys2Proof.Machine

/-! ## Memory cells -/

/-- The byte a list of cells holds at an address, if any cell lists it. -/
def lookupCell (a : Nat) : List Host.Cell → Option Byte
  | [] => none
  | (c, v) :: rest => if c = a then some v else lookupCell a rest

/-- The cells with the byte at address `a` written, addresses strictly rising. -/
def insertCell (a : Nat) (b : Byte) : List Host.Cell → List Host.Cell
  | [] => [(a, b)]
  | (c, v) :: rest =>
    if a < c then (a, b) :: (c, v) :: rest
    else if a = c then (a, b) :: rest
    else (c, v) :: insertCell a b rest

/-- The addresses of the cells rise strictly. -/
def risingCells : List Host.Cell → Bool
  | [] => true
  | [_] => true
  | (a, _) :: (b, v) :: rest => decide (a < b) && risingCells ((b, v) :: rest)

/-- The canonical form of the storage (log 3): addresses strictly rising. An unlisted address holds no written value, so no
cell can equal it. -/
def Memory.wf (m : Memory) : Bool := risingCells m.cells

/-- What an address no cell lists reads as: the free value of its epoch (U3; log 4). -/
def Memory.unlisted (m : Memory) (a : Nat) : Byte := Config.unwrittenByte m.epoch a

/-- One byte of the storage. -/
def Memory.readByte (m : Memory) (a : Nat) : Byte := (lookupCell a m.cells).getD (m.unlisted a)

/-- The storage with one byte written. -/
def Memory.writeByte (m : Memory) (a : Nat) (b : Byte) : Memory := { m with cells := insertCell a b m.cells }

/-! ## Buffer words (R9, R26, R39) -/

/-- The byte offset of `MEM[i]` in the block's address space: `0x1000 + 4*i` (R36). -/
def wordAddress (i : Nat) : Nat := 0x1000 + 4 * i

/-- `MemRead(i)` (R9). The order of a word's four cells is the model's own and cannot be observed (log 3). -/
def Memory.readWord (m : Memory) (i : Nat) : Word :=
  let a := wordAddress i
  ofBytes (m.readByte a) (m.readByte (a + 1)) (m.readByte (a + 2)) (m.readByte (a + 3))

/-- `MemWrite(i, v)` (R9). -/
def Memory.writeWord (m : Memory) (i : Nat) (v : Word) : Memory :=
  let a := wordAddress i
  (((m.writeByte a (byteOf v 0)).writeByte (a + 1) (byteOf v 1)).writeByte (a + 2) (byteOf v 2)).writeByte (a + 3)
    (byteOf v 3)

/-- The words `MEM[i], ..., MEM[i+n-1]`. -/
def Memory.words (m : Memory) : (i n : Nat) → List Word
  | _, 0 => []
  | i, n + 1 => m.readWord i :: Memory.words m (i + 1) n

/-- `MEM[i]` replaced by `f(MEM[i])` for the `n` words from `i` on. -/
def Memory.mapWords (f : Word → Word) : (n i : Nat) → Memory → Memory
  | 0, _, m => m
  | n + 1, i, m => Memory.mapWords f n (i + 1) (m.writeWord i (f (m.readWord i)))

/-- The pair at word index `i` replaced by `f` of it, and so on for `n` pairs. -/
def Memory.mapPairs (f : Pair → Pair) : (n i : Nat) → Memory → Memory
  | 0, _, m => m
  | n + 1, i, m =>
    let p := f (m.readWord i, m.readWord (i + 1))
    Memory.mapPairs f n (i + 2) ((m.writeWord i p.1).writeWord (i + 1) p.2)

/-- The copy loop of R86: `MEM[dst + k] <- MEM[src + k]` for `k` = 0 .. n-1, in rising order. -/
def Memory.copyDown : (n src dst : Nat) → Memory → Memory
  | 0, _, _, m => m
  | n + 1, src, dst, m => Memory.copyDown n (src + 1) (dst + 1) (m.writeWord dst (m.readWord src))

/-- The copy loop of R84: `MEM[i + 1] <- MEM[i]` for `i` = n-1 downto 0. -/
def Memory.shiftUp : (n : Nat) → Memory → Memory
  | 0, m => m
  | n + 1, m => Memory.shiftUp n (m.writeWord (n + 1) (m.readWord n))

namespace State

/-- `MemRead(i)` (R9). -/
def memRead (s : State) (i : Nat) : Word := s.mem.readWord i

/-- `MemWrite(i, 1, v)` (R9). -/
def memWrite (s : State) (i : Nat) (v : Word) : State := { s with mem := s.mem.writeWord i v }

/-- The buffer's content `MEM[0..LEN-1]` (R26). -/
def buffer (s : State) : List Word := s.mem.words 0 s.len

/-- `LEN <- n` (R9). -/
def setLen (s : State) (n : Nat) : State := { s with len := n }

/-- `RES[0] <- v` (R9). -/
def setRes0 (s : State) (v : Word) : State := { s with res := { s.res with r0 := v } }

/-- `RES[1] <- v` (R9). -/
def setRes1 (s : State) (v : Word) : State := { s with res := { s.res with r1 := v } }

/-- `RES[2] <- v` (R9). -/
def setRes2 (s : State) (v : Word) : State := { s with res := { s.res with r2 := v } }

/-- `SEED <- v`. -/
def setSeed (s : State) (v : Word) : State := { s with seed := v }

/-- The cursor written as a whole. -/
def setCursor (s : State) (c : Cursor) : State := { s with cur := c }

/-- `GS3S <- seeds`, with the table build every such write performs (R21, R170). -/
def setGs3Seeds (s : State) (seeds : Seeds) : State :=
  { s with gs3s := seeds, tbl := (buildTables Config.gs3 seeds).1, rng := (buildTables Config.gs3 seeds).2 }

/-! ## How a command ends (R9, R191, R198)

This is the block's whole exception model: an error saves nothing, changes no mode and transfers control nowhere (R198),
and there is no return from it (R199). -/

/-- The command ends with code `c`; every change it made so far stays (R192). -/
def endWith (s : State) (c : Code) : State := { s with status := statusAfter s.status c }

/-- `finish` (R9). -/
def finish (s : State) : State := s.endWith .ok

/-- `raise Error(code)` (R9, R192, R198). -/
def raise (s : State) (c : Code) : State := s.endWith c

/-! ## Free values -/

/-- The words `MEM[i], ..., MEM[i+n-1]`, which the command leaves behind beyond `LEN`, each get a drawn value (U3;
log 5). -/
def drawStale (s : State) : (n i : Nat) → State
  | 0, _ => s
  | n + 1, i => drawStale { s.memWrite i (Config.staleWord s.draws) with draws := s.draws + 1 } n (i + 1)

/-- `LEN <- n` for `n <= LEN` by a command, with the words from `n` to the old `LEN` left behind (R44, U3). -/
def shorten (s : State) (n : Nat) : State := (s.setLen n).drawStale (s.len - n) n

/-! ## Removal (R86) -/

/-- `RemoveWords(start, count)`, `start` 1-based (R86). -/
def removeWords (s : State) (start count : Nat) : State :=
  if start < 1 ∨ start > s.len ∨ count < 1 then s
  else if start + count > s.len then s.shorten (s.len - count)
  else
    { s with mem := s.mem.copyDown (s.len - (start + count - 1)) (start + count - 1) (start - 1) }.shorten
      (s.len - count)

end State

/-! ## Bit cursor (R146) -/

/-- The cursor one bit further: across the word boundary at once (R146). -/
def Cursor.advance (c : Cursor) : Cursor :=
  if c.bit + 1 = 32 then { c with bit := 0, word := c.word + 1 } else { c with bit := c.bit + 1 }

/-- The bit under the cursor: offset 0 is the most significant bit (R146). -/
def Memory.bitAt (m : Memory) (c : Cursor) : Bool := (m.readWord c.word).getLsbD (31 - c.bit)

/-- `ReadBits(n)` after the bits `r` (R146): `none` is `FAIL`; the cursor keeps the advance made before a failure. -/
def readBitsFrom (m : Memory) : (n : Nat) → Word → Cursor → Option Word × Cursor
  | 0, r, c => (some r, c)
  | n + 1, r, c =>
    if c.word ≥ c.limit then (none, c)
    else readBitsFrom m n ((r <<< 1) ||| (BitVec.ofBool (m.bitAt c)).setWidth 32) c.advance

/-- `ReadBits(n)` (R146). -/
def readBits (m : Memory) (n : Nat) (c : Cursor) : Option Word × Cursor := readBitsFrom m n 0 c

end Sys2Proof.Machine
end

