-- ==== Sys2Proof/Machine/Ar2.lean ====
section
/-! DEFINITION. The AR1/AR2 substitution cipher (41_ar2.md). -/

namespace Sys2Proof.Machine

/-! ## The per-word transform (R93 to R98) -/

/-- The table index a seed byte and an offset select: `(s + o) & 0x1F` (R94). -/
def ar2Index (s : Byte) (o : BitVec 5) : BitVec 5 := (s + o.setWidth 8).setWidth 5

/-- The key `k1` of a lane (R94). -/
def Lane.key1 (P : Ar2Params) (l : Lane) (s : Byte) : Byte := P.tbl l.ti (ar2Index s l.oi)

/-- The key `k2` of a lane (R94). -/
def Lane.key2 (P : Ar2Params) (l : Lane) (s : Byte) : Byte := P.tbl l.tj (ar2Index s l.oj)

/-- A lane operation in the decrypt direction (R93, R97); lane arithmetic is modulo 256 (R96). -/
def laneDecrypt (op : LaneOp) (k1 k2 x : Byte) : Byte :=
  match op with
  | .xor => x ^^^ k1
  | .nxor => nswap8 x ^^^ k1
  | .add => x + k1
  | .sub => x - k1
  | .xadd => (x ^^^ k1) + k2
  | .subx => (x - k1) ^^^ k2

/-- A lane operation in the encrypt direction (R97). -/
def laneEncrypt (op : LaneOp) (k1 k2 y : Byte) : Byte :=
  match op with
  | .xor => y ^^^ k1
  | .nxor => nswap8 (y ^^^ k1)
  | .add => y - k1
  | .sub => y + k1
  | .xadd => (y - k2) ^^^ k1
  | .subx => (y ^^^ k2) + k1

/-- The two directions of the cipher. -/
inductive Direction where
  | decrypt | encrypt
deriving DecidableEq, Repr

/-- One byte lane of a transform of type `t` in 0..6 under seed byte `s` (R94, R97). -/
def ar2Lane (P : Ar2Params) (d : Direction) (t : Fin 7) (s : Byte) (w : Word) (b : Fin 4) : Byte :=
  let l := P.xform t b
  let k1 := Lane.key1 P l s
  let k2 := Lane.key2 P l s
  match d with
  | .decrypt => laneDecrypt l.op k1 k2 (byteOf w b.val)
  | .encrypt => laneEncrypt l.op k1 k2 (byteOf w b.val)

/-- A transform of type 0..6: each lane independently (R95, R97). -/
def ar2Lanes (P : Ar2Params) (d : Direction) (t : Fin 7) (w : Word) (s : Byte) : Word :=
  ofBytes (ar2Lane P d t s w 0) (ar2Lane P d t s w 1) (ar2Lane P d t s w 2) (ar2Lane P d t s w 3)

/-- `Ar2Dec(w, t, s)` and `Ar2Enc(w, t, s)` (R97, R98, R100). `free` is the value `AR2_TYPE_GE8` of this evaluation, which
only a type of 8 or above takes (U5; log 7). -/
def ar2Transform (P : Ar2Params) (d : Direction) (free w : Word) (t s : Byte) : Word :=
  if h : t.toNat < 7 then ar2Lanes P d ⟨t.toNat, h⟩ w s
  else if t.toNat = 7 then (if s.getLsbD 0 then ar2Lanes P d 1 w s else ~~~w)
  else free

/-- How many free values a transform of type `t` draws (U5; log 7). -/
def ar2Draws (t : Byte) : Nat := if t.toNat < 8 then 0 else 1

/-- The result of a transform in state `s`. -/
def State.ar2Word (s : State) (d : Direction) (w : Word) (t sb : Byte) : Word :=
  ar2Transform Config.ar2 d (Config.ar2TypeGe8 s.draws) w t sb

/-- The state after a transform of type `t`: only the count of draws can change. -/
def State.afterAr2 (s : State) (t : Byte) : State := { s with draws := s.draws + ar2Draws t }

/-! ## Pairs under the running seed (R19, R101, R102) -/

/-- The pair at an even word index transformed under the running seed: the address word takes (type, seedByte) from seed
bytes 0 and 1, the value word from bytes 2 and 3 (R19, R101). -/
def State.ar2Pair (s : State) (d : Direction) (p : Pair) : Pair × State :=
  let a := s.ar2Word d p.1 (seedByte s.seed 0) (seedByte s.seed 1)
  let s1 := s.afterAr2 (seedByte s.seed 0)
  let v := s1.ar2Word d p.2 (seedByte s.seed 2) (seedByte s.seed 3)
  ((a, v), s1.afterAr2 (seedByte s.seed 2))

/-- `Ar2BatchDec` with `n` pairs still to come at word index `i` (R101; log 17). A marker pair re-seeds, is removed, and
the pair it reveals is next. -/
def ar2BatchDec : (n i : Nat) → State → State
  | 0, _, s => s
  | n + 1, i, s =>
    let (p, s1) := s.ar2Pair .decrypt (s.memRead i, s.memRead (i + 1))
    if p.1 = Config.ar2.marker then ar2BatchDec n i ((s1.setSeed p.2).removeWords (i + 1) 2)
    else ar2BatchDec n (i + 2) ((s1.memWrite i p.1).memWrite (i + 1) p.2)

/-- `Ar2BatchEnc` with `n` pairs still to come at word index `i` (R102; log 17). The marker test is on the plaintext
address word; the new seed applies from the next pair on. -/
def ar2BatchEnc : (n i : Nat) → State → State
  | 0, _, s => s
  | n + 1, i, s =>
    let a := s.memRead i
    let v := s.memRead (i + 1)
    let (p, s1) := s.ar2Pair .encrypt (a, v)
    let s2 := (s1.memWrite i p.1).memWrite (i + 1) p.2
    ar2BatchEnc n (i + 2) (if a = Config.ar2.marker then s2.setSeed v else s2)

/-! ## Commands -/

/-- `AR2_SETSEED` (R91). -/
def execAr2SetSeed (s : State) : Host.Outcome State Fault Refusal := .next (s.setSeed s.op.r0).finish

/-- `AR2_GETSEED` (R92). -/
def execAr2GetSeed (s : State) : Host.Outcome State Fault Refusal := .next (s.setRes0 s.seed).finish

/-- `AR2_DECW` (R99): word `OP[0]`, type `OP[1][7:0]`, seed byte `OP[2][7:0]`. -/
def execAr2DecW (s : State) : Host.Outcome State Fault Refusal :=
  .next ((s.setRes0 (s.ar2Word .decrypt s.op.r0 (lowByte s.op.r1) (lowByte s.op.r2))).afterAr2 (lowByte s.op.r1)).finish

/-- `AR2_ENCW` (R100): the operands of `AR2_DECW`. -/
def execAr2EncW (s : State) : Host.Outcome State Fault Refusal :=
  .next ((s.setRes0 (s.ar2Word .encrypt s.op.r0 (lowByte s.op.r1) (lowByte s.op.r2))).afterAr2 (lowByte s.op.r1)).finish

/-- `AR2_BDEC` (R103). -/
def execAr2BDec (s : State) : Host.Outcome State Fault Refusal :=
  if s.len % 2 = 1 then .next (s.raise .structural)
  else .next (ar2BatchDec (s.len / 2) 0 s).finish

/-- `AR2_BENC` (R104). -/
def execAr2BEnc (s : State) : Host.Outcome State Fault Refusal :=
  if s.len % 2 = 1 then .next (s.raise .structural)
  else .next (ar2BatchEnc (s.len / 2) 0 s).finish

/-- `AR1_BDEC` (R105): the running seed forced to `AR1_SEED` for the command and restored afterward. -/
def execAr1BDec (s : State) : Host.Outcome State Fault Refusal :=
  if s.len % 2 = 1 then .next (s.raise .structural)
  else .next ((ar2BatchDec (s.len / 2) 0 (s.setSeed Config.ar2.ar1Seed)).setSeed s.seed).finish

/-- `AR1_BENC` (R106). -/
def execAr1BEnc (s : State) : Host.Outcome State Fault Refusal :=
  if s.len % 2 = 1 then .next (s.raise .structural)
  else .next ((ar2BatchEnc (s.len / 2) 0 (s.setSeed Config.ar2.ar1Seed)).setSeed s.seed).finish

end Sys2Proof.Machine
end

