-- ==== Sys2Proof/Machine/Verifier.lean ====
section
/-! DEFINITION. The bit cursor commands, the verifier reader and verifier synthesis (44_verifier.md). -/

namespace Sys2Proof.Machine

/-! ## Verifier reader (R149) -/

/-- The reader's loop, entered with a terminator of 0 and `c` bits read: a selector, its payload, the next terminator.
`fuel` bounds the passes; each reads at least 5 bits, so 32 passes for each word of the buffer are never used up
(R149, R217; log 16). -/
def expansionLoop (m : Memory) : (fuel c : Nat) → Cursor → Option Nat × Cursor
  | 0, _, cur => (none, cur)
  | fuel + 1, c, cur =>
    match readBits m 3 cur with
    | (none, cur) => (none, cur)
    | (some sel, cur) =>
      let width := Config.verifierWidth (sel.setWidth 3)
      match readBits m width cur with
      | (none, cur) => (none, cur)
      | (some _, cur) =>
        match readBits m 1 cur with
        | (none, cur) => (none, cur)
        | (some term, cur) =>
          let c := c + 3 + width + 1
          if term = 0 then expansionLoop m fuel c cur else (some c, cur)

/-- The lines a verifier of `c` bits occupies: `1 + ceil_div(max(0, c - 24), 64)` (R149). -/
def verifierLines (c : Nat) : Nat := 1 + ceilDiv (c - 24) 64

/-- `ReadVerifier()` on a buffer of `len` words: `(lines, c)`, or `none` on a cursor overrun, and the cursor it leaves
(R149). -/
def readVerifier (m : Memory) (len : Nat) : Option (Nat × Nat) × Cursor :=
  match readBits m 1 ⟨1, 8, len⟩ with
  | (none, cur) => (none, cur)
  | (some term, cur) =>
    let r := if term = 0 then expansionLoop m (32 * len) 1 cur else (some 1, cur)
    (r.1.map fun c => (verifierLines c, c), r.2)

/-! ## Verifier synthesis (R151, R152) -/

/-- `MasterBit()`: some of the `n` pairs from word index `i` on has the sentinel in its address word (R151). -/
def masterBit (m : Memory) : (n i : Nat) → Bool
  | 0, _ => false
  | n + 1, i => isMasterCode (m.readWord i) || masterBit m n (i + 2)

/-- The first word of `AX_MKVER`: `(gameId << 15) | rand15` (R152). -/
def verifierWord0 (gameId rand : Word) : Word := (gameId <<< 15) ||| (rand &&& 0x7FFF#32)

/-- The second word of `AX_MKVER`: `(rand4 << 28) | 0x00800000 | (m << 27) | (region << 24)` (R152). -/
def verifierWord1 (rand region : Word) (m : Bool) : Word :=
  ((rand &&& 0xF#32) <<< 28) ||| 0x00800000#32 ||| (if m then 0x08000000#32 else 0#32) ||| (region <<< 24)

/-! ## Commands -/

/-- `CUR_SET` (R147): word, bit and limit are naturals from the full operands. -/
def execCurSet (s : State) : Host.Outcome State Fault Refusal :=
  if s.op.r1.toNat > 31 ∨ s.op.r2.toNat > s.len then .next (s.raise .structural)
  else .next (s.setCursor ⟨s.op.r0.toNat, s.op.r1.toNat, s.op.r2.toNat⟩).finish

/-- `CUR_READ n` (R148). Its rule checks the range of `IMM`: above 32 the word is illegal (R55, R56; log 9). -/
def execCurRead (n : Byte) (s : State) : Host.Outcome State Fault Refusal :=
  if n.toNat > 32 then .next (s.raise .illegal)
  else
    match readBits s.mem n.toNat s.cur with
    | (none, cur) => .next ((s.setCursor cur).raise .structural)
    | (some r, cur) => .next ((s.setCursor cur).setRes0 r).finish

/-- `AX_RDVER` (R150). -/
def execAxRdVer (s : State) : Host.Outcome State Fault Refusal :=
  match readVerifier s.mem s.len with
  | (none, cur) => .next ((s.setCursor cur).raise .verifier)
  | (some (lines, c), cur) =>
    .next (((s.setCursor cur).setRes0 (BitVec.ofNat 32 lines)).setRes1 (BitVec.ofNat 32 c)).finish

/-- `AX_MKVER` (R152). -/
def execAxMkVer (s : State) : Host.Outcome State Fault Refusal :=
  .next ((s.setRes0 (verifierWord0 s.op.r0 s.op.r2)).setRes1
    (verifierWord1 s.op.r3 s.op.r1 (masterBit s.mem (s.len / 2) 0))).finish

end Sys2Proof.Machine
end

