-- ==== Sys2Proof/Machine/Armax.lean ====
section
/-! DEFINITION. The ARMAX block commands (R122, R123), CRC nibble, batch cipher and list codec (43_armax_integrity.md). -/

namespace Sys2Proof.Machine

/-! ## CRC and nibble (R131 to R133) -/

/-- The CRC register after one byte (R131). -/
def crcByte (P : AxParams) (c : Half) (b : Byte) : Half :=
  let x := b ^^^ c.setWidth 8
  P.crcT0 (x.extractLsb' 4 4) ^^^ P.crcT1 (x.extractLsb' 0 4) ^^^ (c >>> 8)

/-- The CRC register after one word, its bytes least significant first (R131). -/
def crcWord (P : AxParams) (c : Half) (w : Word) : Half :=
  crcByte P (crcByte P (crcByte P (crcByte P c (byteOf w 0)) (byteOf w 1)) (byteOf w 2)) (byteOf w 3)

/-- `Crc16` over a sequence of words, from 0 (R131). -/
def crc16 (P : AxParams) (ws : List Word) : Half := ws.foldl (crcWord P) 0

/-- `Fold(c)`: the XOR of the four nibbles (R132, C3). -/
def foldNibble (c : Half) : BitVec 4 :=
  c.extractLsb' 12 4 ^^^ c.extractLsb' 8 4 ^^^ c.extractLsb' 4 4 ^^^ c.extractLsb' 0 4

/-- The storage with `MEM[0][31:28]` set to `n` (R133). -/
def Memory.setNibble (m : Memory) (n : BitVec 4) : Memory := m.writeWord 0 (withNibble (m.readWord 0) n)

/-- The 16-bit CRC over the first `len` words with the nibble slot read as 0 (R133, R134). -/
def slotFreeCrc (P : AxParams) (m : Memory) (len : Nat) : Half := crc16 P ((m.setNibble 0).words 0 len)

/-- `Nibble()` (R133). -/
def crcNibble (P : AxParams) (m : Memory) (len : Nat) : BitVec 4 := foldNibble (slotFreeCrc P m len)

/-! ## Batch block cipher (R135, R136) -/

/-- `AxBlockDec()`: the storage it leaves, block-decrypted with the slot cleared, and whether the stored nibble matches
(R135). -/
def axBlockDec (P : AxParams) (S : Vector Word 32) (m : Memory) (len : Nat) : Memory × Bool :=
  let m := m.mapPairs (kernel P.sp S) (len / 2) 0
  let stored := nibbleSlot (m.readWord 0)
  let m := m.setNibble 0
  (m, foldNibble (crc16 P (m.words 0 len)) == stored)

/-- `AxBlockEnc()` (R136). -/
def axBlockEnc (P : AxParams) (S : Vector Word 32) (m : Memory) (len : Nat) : Memory :=
  let m := m.setNibble 0
  let m := m.setNibble (foldNibble (crc16 P (m.words 0 len)))
  m.mapPairs (kernel P.sp S) (len / 2) 0

/-- The length check of the ARMAX batch and list commands: `LEN` odd or below 2 (R193). -/
def badAxLength (len : Nat) : Bool := decide (len % 2 = 1 ∨ len < 2)

/-- The payload byte swap: `bswap32` on `MEM[p..LEN-1]` (R139). -/
def State.swapPayload (s : State) (p : Nat) : State := { s with mem := s.mem.mapWords bswap32 (s.len - p) p }

/-! ## Block commands -/

/-- `AX_DECB` (R122). -/
def execAxDecB (s : State) : Host.Outcome State Fault Refusal :=
  let r := kernel Config.ax.sp s.schedD (s.op.r0, s.op.r1)
  .next ((s.setRes0 r.1).setRes1 r.2).finish

/-- `AX_ENCB` (R123). -/
def execAxEncB (s : State) : Host.Outcome State Fault Refusal :=
  let r := kernel Config.ax.sp s.schedE (s.op.r0, s.op.r1)
  .next ((s.setRes0 r.1).setRes1 r.2).finish

/-! ## Integrity commands -/

/-- `AX_CRC` (R134). -/
def execAxCrc (s : State) : Host.Outcome State Fault Refusal :=
  if s.len < 1 then .next (s.raise .structural)
  else
    .next (((s.setRes1 ((slotFreeCrc Config.ax s.mem s.len).setWidth 32)).setRes0
      ((crcNibble Config.ax s.mem s.len).setWidth 32)).setRes2 ((nibbleSlot (s.memRead 0)).setWidth 32)).finish

/-- `AX_BDEC` (R135). -/
def execAxBDec (s : State) : Host.Outcome State Fault Refusal :=
  if badAxLength s.len then .next (s.raise .structural)
  else
    match axBlockDec Config.ax s.schedD s.mem s.len with
    | (m, false) => .next ({ s with mem := m }.raise .crc)
    | (m, true) => .next { s with mem := m }.finish

/-- `AX_BENC` (R136). -/
def execAxBEnc (s : State) : Host.Outcome State Fault Refusal :=
  if badAxLength s.len then .next (s.raise .structural)
  else .next { s with mem := axBlockEnc Config.ax s.schedE s.mem s.len }.finish

/-! ## List codec -/

/-- `AX_LDEC` (R138). -/
def execAxLDec (s : State) : Host.Outcome State Fault Refusal :=
  if badAxLength s.len then .next (s.raise .structural)
  else
    match axBlockDec Config.ax s.schedD s.mem s.len with
    | (m, false) => .next ({ s with mem := m }.raise .crc)
    | (m, true) =>
      match readVerifier m s.len with
      | (none, cur) => .next (({ s with mem := m }.setCursor cur).raise .verifier)
      | (some (lines, _), cur) =>
        let p := 2 * lines
        let s1 := (({ s with mem := m }.setCursor cur).swapPayload p).setSeed s.op.r0
        .next ((ar2BatchDec ((s.len - p) / 2) p s1).setRes0 (BitVec.ofNat 32 lines)).finish

/-- `AX_LENC` (R140). -/
def execAxLEnc (s : State) : Host.Outcome State Fault Refusal :=
  if badAxLength s.len then .next (s.raise .structural)
  else
    match readVerifier s.mem s.len with
    | (none, cur) => .next ((s.setCursor cur).raise .verifier)
    | (some (lines, _), cur) =>
      let p := 2 * lines
      let s1 := ar2BatchEnc ((s.len - p) / 2) p ((s.setCursor cur).setSeed s.op.r0)
      let s2 := s1.swapPayload p
      .next ({ s2 with mem := axBlockEnc Config.ax s2.schedE s2.mem s2.len }.setRes0 (BitVec.ofNat 32 lines)).finish

end Sys2Proof.Machine
end

