-- ==== Sys2Proof/Machine/Buffer.lean ====
section
/-! DEFINITION. Buffer and control commands (40_buffer_control.md). -/

namespace Sys2Proof.Machine

/-- `NOP` (R81). -/
def execNop (s : State) : Host.Outcome State Fault Refusal := .next s.finish

/-- The batch-scoped state at its reset values (R31, R82). -/
def State.batchReset (s : State) : State :=
  { ((s.setSeed Config.ar2.seedReset).setGs3Seeds Config.gs3.seedsReset) with gs3l := false, gs3k := 0 }

/-- `BATCH_RESET` (R82). -/
def execBatchReset (s : State) : Host.Outcome State Fault Refusal := .next s.batchReset.finish

/-- `BUF_APPEND` (R83). -/
def execBufAppend (s : State) : Host.Outcome State Fault Refusal :=
  if s.len = Config.nmax then .next (s.raise .structural)
  else .next ((s.memWrite s.len s.op.r0).setLen (s.len + 1)).finish

/-- `BUF_PREPEND` (R84). -/
def execBufPrepend (s : State) : Host.Outcome State Fault Refusal :=
  if s.len = Config.nmax then .next (s.raise .structural)
  else .next (({ s with mem := s.mem.shiftUp s.len }.memWrite 0 s.op.r0).setLen (s.len + 1)).finish

/-- `BUF_REMOVE` (R85): `start` and `count` are naturals from the full 32-bit operands. -/
def execBufRemove (s : State) : Host.Outcome State Fault Refusal :=
  .next (s.removeWords s.op.r0.toNat s.op.r1.toNat).finish

end Sys2Proof.Machine
end

