-- ==== Sys2Proof/Machine/Gs3.lean ====
section
/-! DEFINITION. The GS3+ commands (45_gs3.md): the per-pair transform with its second-line latch and seed refresh, the
batches, and the generator commands. -/

namespace Sys2Proof.Machine

/-- What a GS3+ pair operation returns: the pair and the flags word (R177). -/
structure Gs3Result where
  pair : Pair
  flags : Word
deriving DecidableEq, Repr

/-- The flags: bit 0 the pair is a seed refresh, bit 1 it was a second line, bits 4:2 the key used (R177). -/
def gs3Flags (k : BitVec 3) (second refresh : Bool) : Word :=
  (k.setWidth 32 <<< 2) ||| (if second then 2#32 else 0#32) ||| (if refresh then 1#32 else 0#32)

/-- A second line: the remembered key's transform, after which the latch is clear (R174). -/
def gs3SecondLine (f : BitVec 3 → Gs3Tables → Pair → Pair) (x : Pair) (s : State) : Gs3Result × State :=
  (⟨f s.gs3k s.tbl x, gs3Flags s.gs3k true false⟩, { s with gs3l := false })

/-- A first line under key `k`: passthrough or no-op (0, 5, 6), a transform (1, 2), a transform that sets the latch
(3, 4), a seed refresh that returns the pair unchanged (7) (R173, R177, R178, R182). -/
def gs3FirstLine (f : BitVec 3 → Gs3Tables → Pair → Pair) (k : BitVec 3) (x : Pair) (s : State) : Gs3Result × State :=
  if k = 1 ∨ k = 2 then (⟨f k s.tbl x, gs3Flags k false false⟩, s)
  else if k = 3 ∨ k = 4 then (⟨f k s.tbl x, gs3Flags k false false⟩, { s with gs3l := true, gs3k := k })
  else if k = 7 then (⟨x, gs3Flags k false true⟩, s.setGs3Seeds (Config.gs3.seedsFromPair x))
  else (⟨x, gs3Flags k false false⟩, s)

/-- `Gs3DecPair(a, v)` (R177): the key is the pair's own unless a second line is pending (R172). -/
def gs3DecPair (x : Pair) (s : State) : Gs3Result × State :=
  if s.gs3l then gs3SecondLine Config.gs3.dec2 x s
  else gs3FirstLine Config.gs3.dec (commandKey x.1) x s

/-- `Gs3EncPair(a, v, key)` (R178): the explicit key is ignored when a second line is pending. -/
def gs3EncPair (key : BitVec 3) (x : Pair) (s : State) : Gs3Result × State :=
  if s.gs3l then gs3SecondLine Config.gs3.enc2 x s
  else gs3FirstLine Config.gs3.enc key x s

/-- `RES[0..2]` written with a pair operation's result (R177, R178). -/
def State.setGs3Result (s : State) (r : Gs3Result) : State :=
  ((s.setRes0 r.pair.1).setRes1 r.pair.2).setRes2 r.flags

/-- `GS3_BDEC`'s loop with `n` pairs still to come at word index `i` (R179; log 17): a refresh pair is removed and the pair
it reveals is next. -/
def gs3BatchDec : (n i : Nat) → State → State
  | 0, _, s => s
  | n + 1, i, s =>
    let (r, s1) := gs3DecPair (s.memRead i, s.memRead (i + 1)) s
    if r.flags.getLsbD 0 then gs3BatchDec n i (s1.removeWords (i + 1) 2)
    else gs3BatchDec n (i + 2) ((s1.memWrite i r.pair.1).memWrite (i + 1) r.pair.2)

/-- `GS3_BENC`'s loop with `n` pairs still to come at word index `i` (R180; log 17). -/
def gs3BatchEnc (key : BitVec 3) : (n i : Nat) → State → State
  | 0, _, s => s
  | n + 1, i, s =>
    let (r, s1) := gs3EncPair key (s.memRead i, s.memRead (i + 1)) s
    gs3BatchEnc key n (i + 2) ((s1.memWrite i r.pair.1).memWrite (i + 1) r.pair.2)

/-! ## Commands -/

/-- `GS3_SETSEEDS` (R171): the upper halves of the operands are ignored; the latch is not changed. -/
def execGs3SetSeeds (s : State) : Host.Outcome State Fault Refusal :=
  .next (s.setGs3Seeds ⟨lowHalf s.op.r0, lowHalf s.op.r1, lowHalf s.op.r2⟩).finish

/-- `GS3_DECP` (R177). -/
def execGs3DecP (s : State) : Host.Outcome State Fault Refusal :=
  let (r, s1) := gs3DecPair (s.op.r0, s.op.r1) s
  .next (s1.setGs3Result r).finish

/-- `GS3_ENCP key` (R178). Its rule checks the range of `IMM`: above 7 the word is illegal (R55, R56; log 9). -/
def execGs3EncP (key : Byte) (s : State) : Host.Outcome State Fault Refusal :=
  if key.toNat > 7 then .next (s.raise .illegal)
  else
    let (r, s1) := gs3EncPair (key.setWidth 3) (s.op.r0, s.op.r1) s
    .next (s1.setGs3Result r).finish

/-- `GS3_BDEC` (R179). -/
def execGs3BDec (s : State) : Host.Outcome State Fault Refusal :=
  if s.len % 2 = 1 then .next (s.raise .structural)
  else .next (gs3BatchDec (s.len / 2) 0 s).finish

/-- `GS3_BENC key` (R180). The range of `IMM` is checked before the length (R56, R197). -/
def execGs3BEnc (key : Byte) (s : State) : Host.Outcome State Fault Refusal :=
  if key.toNat > 7 then .next (s.raise .illegal)
  else if s.len % 2 = 1 then .next (s.raise .structural)
  else .next (gs3BatchEnc (key.setWidth 3) (s.len / 2) 0 s).finish

/-- `GS3_RNG_SEED` (R167): the tables are not rebuilt. -/
def execGs3RngSeed (s : State) : Host.Outcome State Fault Refusal :=
  .next { s with rng := Config.gs3.rngSeed s.op.r0 }.finish

/-- `GS3_RNG_NEXT` (R168). -/
def execGs3RngNext (s : State) : Host.Outcome State Fault Refusal :=
  let (w, r) := Config.gs3.rngNext s.rng
  .next ({ s with rng := r }.setRes0 w).finish

end Sys2Proof.Machine
end

