-- ==== Sys2Proof/Machine/Dispatch.lean ====
section
/-! DEFINITION. One arm per command: the meaning of each. -/

namespace Sys2Proof.Machine

def exec (i : Instr) (s : State) : Host.Outcome State Fault Refusal :=
  match i with
  | .nop => Sys2Proof.Machine.execNop s
  | .bufAppend => Sys2Proof.Machine.execBufAppend s
  | .bufPrepend => Sys2Proof.Machine.execBufPrepend s
  | .bufRemove => Sys2Proof.Machine.execBufRemove s
  | .batchReset => Sys2Proof.Machine.execBatchReset s
  | .ar2SetSeed => Sys2Proof.Machine.execAr2SetSeed s
  | .ar2GetSeed => Sys2Proof.Machine.execAr2GetSeed s
  | .ar2DecW => Sys2Proof.Machine.execAr2DecW s
  | .ar2EncW => Sys2Proof.Machine.execAr2EncW s
  | .ar2BDec => Sys2Proof.Machine.execAr2BDec s
  | .ar2BEnc => Sys2Proof.Machine.execAr2BEnc s
  | .ar1BDec => Sys2Proof.Machine.execAr1BDec s
  | .ar1BEnc => Sys2Proof.Machine.execAr1BEnc s
  | .axDecB => Sys2Proof.Machine.execAxDecB s
  | .axEncB => Sys2Proof.Machine.execAxEncB s
  | .axCrc => Sys2Proof.Machine.execAxCrc s
  | .axBDec => Sys2Proof.Machine.execAxBDec s
  | .axBEnc => Sys2Proof.Machine.execAxBEnc s
  | .axRdVer => Sys2Proof.Machine.execAxRdVer s
  | .axMkVer => Sys2Proof.Machine.execAxMkVer s
  | .axLDec => Sys2Proof.Machine.execAxLDec s
  | .axLEnc => Sys2Proof.Machine.execAxLEnc s
  | .curSet => Sys2Proof.Machine.execCurSet s
  | .curRead n => Sys2Proof.Machine.execCurRead n s
  | .gs3SetSeeds => Sys2Proof.Machine.execGs3SetSeeds s
  | .gs3DecP => Sys2Proof.Machine.execGs3DecP s
  | .gs3EncP key => Sys2Proof.Machine.execGs3EncP key s
  | .gs3BDec => Sys2Proof.Machine.execGs3BDec s
  | .gs3BEnc key => Sys2Proof.Machine.execGs3BEnc key s
  | .gs3RngSeed => Sys2Proof.Machine.execGs3RngSeed s
  | .gs3RngNext => Sys2Proof.Machine.execGs3RngNext s

end Sys2Proof.Machine
end

