-- ==== Sys2Proof/Machine/Bus.lean ====
section
/-! DEFINITION. The host interface (20_memory.md): the register map, reads, writes, the issue of a command, and block
reset as an event. -/

namespace Sys2Proof.Machine

/-- Register `i` of four (R15, R36). -/
def Quad.get (q : Quad) : Fin 4 → Word
  | 0 => q.r0
  | 1 => q.r1
  | 2 => q.r2
  | 3 => q.r3

/-- Register `i` of four written (R15, R36). -/
def Quad.set (q : Quad) (i : Fin 4) (v : Word) : Quad :=
  match i with
  | 0 => { q with r0 := v }
  | 1 => { q with r1 := v }
  | 2 => { q with r2 := v }
  | 3 => { q with r3 := v }

/-- The registers and buffer words the host can name (R36). -/
inductive HostReg where
  | cmd | status | len | cap
  | op (i : Fin 4)
  | res (i : Fin 4)
  | curw | curb | curlim | gs3stat
  | mem (i : Nat)
deriving DecidableEq, Repr

/-- The register rows of the map (R36). -/
def registerMap : List (Nat × HostReg) :=
  [(0x0000, .cmd), (0x0004, .status), (0x0008, .len), (0x000C, .cap),
   (0x0010, .op 0), (0x0014, .op 1), (0x0018, .op 2), (0x001C, .op 3),
   (0x0020, .res 0), (0x0024, .res 1), (0x0028, .res 2), (0x002C, .res 3),
   (0x0030, .curw), (0x0034, .curb), (0x0038, .curlim), (0x003C, .gs3stat)]

/-- What an offset names: a register row, or the buffer word `MEM[i]` at `0x1000 + 4*i` for `i < NMAX` (R36); `none` is an
offset the map does not list (R37). -/
def targetOf (offset : Nat) : Option HostReg :=
  match registerMap.find? (fun row => row.1 == offset) with
  | some row => some row.2
  | none =>
    if offset % 4 = 0 ∧ 0x1000 ≤ offset ∧ offset < 0x1000 + 4 * Config.nmax then some (.mem ((offset - 0x1000) / 4))
    else none

/-- The value a host read of a target returns (R36). -/
def readTarget (s : State) : HostReg → Word
  | .cmd => s.cmd
  | .status => s.status
  | .len => BitVec.ofNat 32 s.len
  | .cap => BitVec.ofNat 32 Config.nmax
  | .op i => s.op.get i
  | .res i => s.res.get i
  | .curw => BitVec.ofNat 32 s.cur.word
  | .curb => BitVec.ofNat 32 s.cur.bit
  | .curlim => BitVec.ofNat 32 s.cur.limit
  | .gs3stat => gs3StatWord s.gs3l s.gs3k
  | .mem i => s.memRead i

/-- The value a host read at an offset returns: 0 at an offset the map does not list (R37). -/
def hostRead (s : State) (offset : Nat) : Word :=
  match targetOf offset with
  | some t => readTarget s t
  | none => 0

/-- A host write of `c` to `CMD` stores `c` and performs the command it encodes (R17); an illegal word changes nothing but
`STATUS` (R56, R196, R197). -/
def issue (s : State) (c : Word) : Host.Outcome State Fault Refusal :=
  let s := { s with cmd := c }
  match decode c with
  | .ok i => exec i s
  | .error _ => .next (s.raise .illegal)

/-- A host write of `n` to `LEN`: ignored above `NMAX`, and never a change of `MEM` (R27). -/
def writeLen (s : State) (v : Word) : State := if v.toNat ≤ Config.nmax then s.setLen v.toNat else s

/-- A host write at an offset (R36): to `CMD`, `LEN`, `OP` or `MEM`; any other is ignored (R15, R37). -/
def hostWrite (s : State) (offset : Nat) (v : Word) : Host.Outcome State Fault Refusal :=
  match targetOf offset with
  | some .cmd => issue s v
  | some .len => .next (writeLen s v)
  | some (.op i) => .next { s with op := s.op.set i v }
  | some (.mem i) => .next (s.memWrite i v)
  | some .status | some .cap | some (.res _) | some .curw | some .curb | some .curlim | some .gs3stat => .next s
  | none => .next s

/-- One bus transaction (R34, R35, R41): a second agent, another width or a misaligned offset is refused (U1, U4); a read
returns its value to the host and changes nothing else (R43). -/
def busAccess (s : State) (t : Transaction) : Host.Outcome State Fault Refusal :=
  if t.agent ≠ .host then .refused .secondAgent
  else if t.width ≠ 32 then .refused .accessWidth
  else if t.offset % 4 ≠ 0 then .refused .misaligned
  else
    match t.access with
    | .read => .next { s with replies := hostRead s t.offset :: s.replies }
    | .write v => hostWrite s t.offset v

/-- Block reset from the platform (R206): every register at its reset value, `MEM` unspecified anew, the host's side
untouched (log 19). -/
def blockReset (s : State) : State :=
  { State.reset with
    mem := ⟨s.mem.epoch + 1, []⟩
    draws := s.draws
    events := s.events
    replies := s.replies }

/-- The next event taken, and performed on the state without it (R46). -/
def performEvent (s : State) (e : Event) : Host.Outcome State Fault Refusal :=
  match e with
  | .bus t => busAccess s t
  | .blockReset => .next (blockReset s)

/-- The host's write of a command word to `CMD` (R17). -/
def commandWrite (c : Word) : Event := .bus ⟨.host, 32, 0x0000, .write c⟩

end Sys2Proof.Machine
end

