-- ==== Sys2Proof/Machine/Step.lean ====
section
/-! DEFINITION. One step: the next event of the host or the platform. -/

namespace Sys2Proof.Machine

/-- One step of the block: it takes the oldest event still to come and performs it (R35, R46). With none to come the block
is idle and waits for a host access (R207): the state does not change. -/
def step (s : State) : Host.Outcome State Fault Refusal :=
  match s.events with
  | [] => .next s
  | e :: rest => performEvent { s with events := rest } e

/-- `s` with the host about to write the command word `w` to `CMD`: the block fetches no instruction (R16), its next
command is the next one the host issues (R17; log 1). -/
def State.withFetchWord (s : State) (nbits w : Nat) : State :=
  { s with events := commandWrite (BitVec.ofNat 32 (w % 2 ^ nbits)) :: s.events }

end Sys2Proof.Machine
end

