-- ==== Sys2Proof/Machine/Assembler.lean ====
section
/-! DEFINITION. Host programs (R57 to R59): the lines of the assembler syntax, their expansion into bus transactions, and the
reading of a line from its text (log 20). The block runs no program of its own (R16); a host program is a list of bus
transactions. -/

namespace Sys2Proof.Machine

/-- The byte offset of a register (R36). -/
def HostReg.offset : HostReg → Nat
  | .cmd => 0x0000
  | .status => 0x0004
  | .len => 0x0008
  | .cap => 0x000C
  | .op i => 0x0010 + 4 * i.val
  | .res i => 0x0020 + 4 * i.val
  | .curw => 0x0030
  | .curb => 0x0034
  | .curlim => 0x0038
  | .gs3stat => 0x003C
  | .mem i => 0x1000 + 4 * i

/-- What a test program expects of a read: the value under a mask (R57, R58). -/
structure Expectation where
  mask : Word
  value : Word
deriving DecidableEq, Repr

/-- One bus transaction of a host program (R59), with the value expected of a read, if any. -/
structure Transfer where
  offset : Nat
  access : Access
  expect : Option Expectation
deriving DecidableEq, Repr

/-- A line of a host program: the forms of R57 and the pseudo-instructions of R58. -/
inductive Line where
  /-- `MNEMONIC` or `MNEMONIC imm`. -/
  | issue (i : Instr)
  /-- `WR reg, value`. -/
  | wr (r : HostReg) (v : Word)
  /-- `RD reg` or `RD reg == value`. -/
  | rd (r : HostReg) (v : Option Word)
  /-- `SETOP i, v`. -/
  | setOp (i : Fin 4) (v : Word)
  /-- `LOAD v0, v1, ...`. -/
  | load (vs : List Word)
  /-- `EXPECT MEM v0, v1, ...`. -/
  | expectMem (vs : List Word)
  /-- `CHECK code`. -/
  | check (code : Word)
deriving DecidableEq, Repr

/-- A write transaction. -/
def writeTo (r : HostReg) (v : Word) : Transfer := ⟨r.offset, .write v, none⟩

/-- A read transaction, with every bit of the value expected. -/
def readFrom (r : HostReg) (v : Option Word) : Transfer := ⟨r.offset, .read, v.map fun x => ⟨0xFFFFFFFF, x⟩⟩

/-- `f` of each word and its index, from index `i` on. -/
def indexed {α : Type} (f : Nat → Word → α) : Nat → List Word → List α
  | _, [] => []
  | i, v :: vs => f i v :: indexed f (i + 1) vs

/-- The transactions of a line, in order (R57, R58, R59). -/
def Line.expand : Line → List Transfer
  | .issue i => [writeTo .cmd (encode i)]
  | .wr r v => [writeTo r v]
  | .rd r v => [readFrom r v]
  | .setOp i v => [writeTo (.op i) v]
  | .load vs => indexed (fun i v => writeTo (.mem i) v) 0 vs ++ [writeTo .len (BitVec.ofNat 32 vs.length)]
  | .expectMem vs =>
    readFrom .len (some (BitVec.ofNat 32 vs.length)) :: indexed (fun i v => readFrom (.mem i) (some v)) 0 vs
  | .check code => [⟨HostReg.offset .status, .read, some ⟨0xFFFFFEFF, code⟩⟩]

/-- The bus event of a transaction of the host (R35). -/
def Transfer.event (t : Transfer) : Event := .bus ⟨.host, 32, t.offset, t.access⟩

/-- A host program as the events that drive the block (R59). -/
def programEvents (ls : List Line) : List Event := (ls.flatMap Line.expand).map Transfer.event

/-! ## Reading a line -/

/-- The value of a digit in base 10 or 16. -/
def digitValue (c : Char) : Option Nat :=
  if '0' ≤ c ∧ c ≤ '9' then some (c.toNat - '0'.toNat)
  else if 'a' ≤ c ∧ c ≤ 'f' then some (c.toNat - 'a'.toNat + 10)
  else if 'A' ≤ c ∧ c ≤ 'F' then some (c.toNat - 'A'.toNat + 10)
  else none

/-- The number digits spell after `acc`. -/
def digitsValue (base acc : Nat) : List Char → Option Nat
  | [] => some acc
  | c :: cs =>
    match digitValue c with
    | some d => if d < base then digitsValue base (base * acc + d) cs else none
    | none => none

/-- "Values are hexadecimal with `0x`, or decimal" (R57). -/
def parseNumber : List Char → Option Nat
  | [] => none
  | ['0', 'x'] => none
  | '0' :: 'x' :: cs => digitsValue 16 0 cs
  | cs => digitsValue 10 0 cs

/-- A value that fits in `n` bits. -/
def parseBits (n : Nat) (cs : List Char) : Option (BitVec n) :=
  match parseNumber cs with
  | some v => if v < 2 ^ n then some (BitVec.ofNat n v) else none
  | none => none

/-- A register number 0..3. -/
def parseIndex4 (cs : List Char) : Option (Fin 4) :=
  match parseNumber cs with
  | some v => if h : v < 4 then some ⟨v, h⟩ else none
  | none => none

/-- The register names with no index (R36). -/
def plainRegs : List (List Char × HostReg) :=
  [("CMD".toList, .cmd), ("STATUS".toList, .status), ("LEN".toList, .len), ("CAP".toList, .cap),
   ("CURW".toList, .curw), ("CURB".toList, .curb), ("CURLIM".toList, .curlim), ("GS3STAT".toList, .gs3stat)]

/-- A register name of R36, or `MEM[i]` (R57). -/
def parseReg (cs : List Char) : Option HostReg :=
  match plainRegs.find? (fun p => p.1 == cs) with
  | some p => some p.2
  | none =>
    match cs with
    | ['O', 'P', d] => (parseIndex4 [d]).map .op
    | ['R', 'E', 'S', d] => (parseIndex4 [d]).map .res
    | 'M' :: 'E' :: 'M' :: '[' :: rest =>
      if rest.getLast? = some ']' then (parseNumber rest.dropLast).map .mem else none
    | _ => none

/-- The format `N` mnemonics (R54). -/
def plainMnemonics : List (List Char × Instr) :=
  [("NOP".toList, .nop), ("BUF_APPEND".toList, .bufAppend), ("BUF_PREPEND".toList, .bufPrepend),
   ("BUF_REMOVE".toList, .bufRemove), ("BATCH_RESET".toList, .batchReset), ("AR2_SETSEED".toList, .ar2SetSeed),
   ("AR2_GETSEED".toList, .ar2GetSeed), ("AR2_DECW".toList, .ar2DecW), ("AR2_ENCW".toList, .ar2EncW),
   ("AR2_BDEC".toList, .ar2BDec), ("AR2_BENC".toList, .ar2BEnc), ("AR1_BDEC".toList, .ar1BDec),
   ("AR1_BENC".toList, .ar1BEnc), ("AX_DECB".toList, .axDecB), ("AX_ENCB".toList, .axEncB)] ++
  [("AX_CRC".toList, .axCrc), ("AX_BDEC".toList, .axBDec), ("AX_BENC".toList, .axBEnc),
   ("AX_RDVER".toList, .axRdVer), ("AX_MKVER".toList, .axMkVer), ("AX_LDEC".toList, .axLDec),
   ("AX_LENC".toList, .axLEnc), ("CUR_SET".toList, .curSet), ("GS3_SETSEEDS".toList, .gs3SetSeeds),
   ("GS3_DECP".toList, .gs3DecP), ("GS3_BDEC".toList, .gs3BDec), ("GS3_RNG_SEED".toList, .gs3RngSeed),
   ("GS3_RNG_NEXT".toList, .gs3RngNext)]

/-- The format `I` mnemonics (R54). -/
def immMnemonics : List (List Char × (Byte → Instr)) :=
  [("CUR_READ".toList, .curRead), ("GS3_ENCP".toList, .gs3EncP), ("GS3_BENC".toList, .gs3BEnc)]

/-- The tokens of a line: its text before any `;`, cut at spaces, tabs and commas (R57). -/
def tokens (cs : List Char) : List (List Char) :=
  ((cs.takeWhile (· ≠ ';')).splitOnP fun c => c = ' ' || c = '\t' || c = ',').filter fun t => !t.isEmpty

/-- Every token a 32-bit value. -/
def parseWords : List (List Char) → Option (List Word)
  | [] => some []
  | t :: ts =>
    match parseBits 32 t, parseWords ts with
    | some v, some vs => some (v :: vs)
    | _, _ => none

/-- A command line: a format `N` mnemonic alone, or a format `I` mnemonic with its immediate (R57). -/
def parseIssue (ts : List (List Char)) : Option Line :=
  match ts with
  | [m] => (plainMnemonics.find? (fun p => p.1 == m)).map fun p => .issue p.2
  | [m, imm] =>
    match immMnemonics.find? (fun p => p.1 == m), parseBits 8 imm with
    | some p, some n => some (.issue (p.2 n))
    | _, _ => none
  | _ => none

/-- The line a list of tokens spells (R57, R58). DESIGN CHOICE (log 20): R58 writes `LOAD` and `EXPECT MEM` from `v0` on and
does not say whether `k` may be 0; with no value at all they are lines here, for `WR LEN, 0` and `RD LEN == 0`. -/
def parseTokens (ts : List (List Char)) : Option Line :=
  match ts with
  | [] => none
  | head :: args =>
    if head = "WR".toList then
      match args with
      | [r, v] => match parseReg r, parseBits 32 v with
        | some r, some v => some (.wr r v)
        | _, _ => none
      | _ => none
    else if head = "RD".toList then
      match args with
      | [r] => (parseReg r).map fun r => .rd r none
      | [r, eq, v] =>
        if eq = "==".toList then
          match parseReg r, parseBits 32 v with
          | some r, some v => some (.rd r (some v))
          | _, _ => none
        else none
      | _ => none
    else if head = "SETOP".toList then
      match args with
      | [i, v] => match parseIndex4 i, parseBits 32 v with
        | some i, some v => some (.setOp i v)
        | _, _ => none
      | _ => none
    else if head = "LOAD".toList then (parseWords args).map .load
    else if head = "EXPECT".toList then
      match args with
      | m :: vs => if m = "MEM".toList then (parseWords vs).map .expectMem else none
      | [] => none
    else if head = "CHECK".toList then
      match args with
      | [v] => (parseBits 32 v).map .check
      | _ => none
    else parseIssue ts

/-- A line of program text: `some none` is a blank or comment line, `none` a line that is not of the syntax (R57). -/
def parseLine (cs : List Char) : Option (Option Line) :=
  match tokens cs with
  | [] => some none
  | ts => (parseTokens ts).map some

end Sys2Proof.Machine
end

