-- ==== Sys2Proof/Machine/Candidate.lean ====
section
/-! DEFINITION. The candidate instances of R127 (DES tables), R131 (reflected CCITT tables), R166 (MT19937), D12 and D13,
and the AR2 test instance of 95_test_vectors.md. A candidate is never normative (R5, R11): the machine itself runs on the
OPEN constants of Config, and these instances serve the spec's test vectors and the rules that speak of the candidate. -/

namespace Sys2Proof.Machine

/-- `ARMAX_SP[0]` (R127). -/
def candidateSp0 : List Word :=
  [0x01010400, 0x00000000, 0x00010000, 0x01010404, 0x01010004, 0x00010404, 0x00000004, 0x00010000,
   0x00000400, 0x01010400, 0x01010404, 0x00000400, 0x01000404, 0x01010004, 0x01000000, 0x00000004,
   0x00000404, 0x01000400, 0x01000400, 0x00010400, 0x00010400, 0x01010000, 0x01010000, 0x01000404,
   0x00010004, 0x01000004, 0x01000004, 0x00010004, 0x00000000, 0x00000404, 0x00010404, 0x01000000] ++
  [0x00010000, 0x01010404, 0x00000004, 0x01010000, 0x01010400, 0x01000000, 0x01000000, 0x00000400,
   0x01010004, 0x00010000, 0x00010400, 0x01000004, 0x00000400, 0x00000004, 0x01000404, 0x00010404,
   0x01010404, 0x00010004, 0x01010000, 0x01000404, 0x01000004, 0x00000404, 0x00010404, 0x01010400,
   0x00000404, 0x01000400, 0x01000400, 0x00000000, 0x00010004, 0x00010400, 0x00000000, 0x01010004]

/-- `ARMAX_SP[1]` (R127). -/
def candidateSp1 : List Word :=
  [0x80108020, 0x80008000, 0x00008000, 0x00108020, 0x00100000, 0x00000020, 0x80100020, 0x80008020,
   0x80000020, 0x80108020, 0x80108000, 0x80000000, 0x80008000, 0x00100000, 0x00000020, 0x80100020,
   0x00108000, 0x00100020, 0x80008020, 0x00000000, 0x80000000, 0x00008000, 0x00108020, 0x80100000,
   0x00100020, 0x80000020, 0x00000000, 0x00108000, 0x00008020, 0x80108000, 0x80100000, 0x00008020] ++
  [0x00000000, 0x00108020, 0x80100020, 0x00100000, 0x80008020, 0x80100000, 0x80108000, 0x00008000,
   0x80100000, 0x80008000, 0x00000020, 0x80108020, 0x00108020, 0x00000020, 0x00008000, 0x80000000,
   0x00008020, 0x80108000, 0x00100000, 0x80000020, 0x00100020, 0x80008020, 0x80000020, 0x00100020,
   0x00108000, 0x00000000, 0x80008000, 0x00008020, 0x80000000, 0x80100020, 0x80108020, 0x00108000]

/-- `ARMAX_SP[2]` (R127). -/
def candidateSp2 : List Word :=
  [0x00000208, 0x08020200, 0x00000000, 0x08020008, 0x08000200, 0x00000000, 0x00020208, 0x08000200,
   0x00020008, 0x08000008, 0x08000008, 0x00020000, 0x08020208, 0x00020008, 0x08020000, 0x00000208,
   0x08000000, 0x00000008, 0x08020200, 0x00000200, 0x00020200, 0x08020000, 0x08020008, 0x00020208,
   0x08000208, 0x00020200, 0x00020000, 0x08000208, 0x00000008, 0x08020208, 0x00000200, 0x08000000] ++
  [0x08020200, 0x08000000, 0x00020008, 0x00000208, 0x00020000, 0x08020200, 0x08000200, 0x00000000,
   0x00000200, 0x00020008, 0x08020208, 0x08000200, 0x08000008, 0x00000200, 0x00000000, 0x08020008,
   0x08000208, 0x00020000, 0x08000000, 0x08020208, 0x00000008, 0x00020208, 0x00020200, 0x08000008,
   0x08020000, 0x08000208, 0x00000208, 0x08020000, 0x00020208, 0x00000008, 0x08020008, 0x00020200]

/-- `ARMAX_SP[3]` (R127). -/
def candidateSp3 : List Word :=
  [0x00802001, 0x00002081, 0x00002081, 0x00000080, 0x00802080, 0x00800081, 0x00800001, 0x00002001,
   0x00000000, 0x00802000, 0x00802000, 0x00802081, 0x00000081, 0x00000000, 0x00800080, 0x00800001,
   0x00000001, 0x00002000, 0x00800000, 0x00802001, 0x00000080, 0x00800000, 0x00002001, 0x00002080,
   0x00800081, 0x00000001, 0x00002080, 0x00800080, 0x00002000, 0x00802080, 0x00802081, 0x00000081] ++
  [0x00800080, 0x00800001, 0x00802000, 0x00802081, 0x00000081, 0x00000000, 0x00000000, 0x00802000,
   0x00002080, 0x00800080, 0x00800081, 0x00000001, 0x00802001, 0x00002081, 0x00002081, 0x00000080,
   0x00802081, 0x00000081, 0x00000001, 0x00002000, 0x00800001, 0x00002001, 0x00802080, 0x00800081,
   0x00002001, 0x00002080, 0x00800000, 0x00802001, 0x00000080, 0x00800000, 0x00002000, 0x00802080]

/-- `ARMAX_SP[4]` (R127). -/
def candidateSp4 : List Word :=
  [0x00000100, 0x02080100, 0x02080000, 0x42000100, 0x00080000, 0x00000100, 0x40000000, 0x02080000,
   0x40080100, 0x00080000, 0x02000100, 0x40080100, 0x42000100, 0x42080000, 0x00080100, 0x40000000,
   0x02000000, 0x40080000, 0x40080000, 0x00000000, 0x40000100, 0x42080100, 0x42080100, 0x02000100,
   0x42080000, 0x40000100, 0x00000000, 0x42000000, 0x02080100, 0x02000000, 0x42000000, 0x00080100] ++
  [0x00080000, 0x42000100, 0x00000100, 0x02000000, 0x40000000, 0x02080000, 0x42000100, 0x40080100,
   0x02000100, 0x40000000, 0x42080000, 0x02080100, 0x40080100, 0x00000100, 0x02000000, 0x42080000,
   0x42080100, 0x00080100, 0x42000000, 0x42080100, 0x02080000, 0x00000000, 0x40080000, 0x42000000,
   0x00080100, 0x02000100, 0x40000100, 0x00080000, 0x00000000, 0x40080000, 0x02080100, 0x40000100]

/-- `ARMAX_SP[5]` (R127). -/
def candidateSp5 : List Word :=
  [0x20000010, 0x20400000, 0x00004000, 0x20404010, 0x20400000, 0x00000010, 0x20404010, 0x00400000,
   0x20004000, 0x00404010, 0x00400000, 0x20000010, 0x00400010, 0x20004000, 0x20000000, 0x00004010,
   0x00000000, 0x00400010, 0x20004010, 0x00004000, 0x00404000, 0x20004010, 0x00000010, 0x20400010,
   0x20400010, 0x00000000, 0x00404010, 0x20404000, 0x00004010, 0x00404000, 0x20404000, 0x20000000] ++
  [0x20004000, 0x00000010, 0x20400010, 0x00404000, 0x20404010, 0x00400000, 0x00004010, 0x20000010,
   0x00400000, 0x20004000, 0x20000000, 0x00004010, 0x20000010, 0x20404010, 0x00404000, 0x20400000,
   0x00404010, 0x20404000, 0x00000000, 0x20400010, 0x00000010, 0x00004000, 0x20400000, 0x00404010,
   0x00004000, 0x00400010, 0x20004010, 0x00000000, 0x20404000, 0x20000000, 0x00400010, 0x20004010]

/-- `ARMAX_SP[6]` (R127). -/
def candidateSp6 : List Word :=
  [0x00200000, 0x04200002, 0x04000802, 0x00000000, 0x00000800, 0x04000802, 0x00200802, 0x04200800,
   0x04200802, 0x00200000, 0x00000000, 0x04000002, 0x00000002, 0x04000000, 0x04200002, 0x00000802,
   0x04000800, 0x00200802, 0x00200002, 0x04000800, 0x04000002, 0x04200000, 0x04200800, 0x00200002,
   0x04200000, 0x00000800, 0x00000802, 0x04200802, 0x00200800, 0x00000002, 0x04000000, 0x00200800] ++
  [0x04000000, 0x00200800, 0x00200000, 0x04000802, 0x04000802, 0x04200002, 0x04200002, 0x00000002,
   0x00200002, 0x04000000, 0x04000800, 0x00200000, 0x04200800, 0x00000802, 0x00200802, 0x04200800,
   0x00000802, 0x04000002, 0x04200802, 0x04200000, 0x00200800, 0x00000000, 0x00000002, 0x04200802,
   0x00000000, 0x00200802, 0x04200000, 0x00000800, 0x04000002, 0x04000800, 0x00000800, 0x00200002]

/-- `ARMAX_SP[7]` (R127). -/
def candidateSp7 : List Word :=
  [0x10001040, 0x00001000, 0x00040000, 0x10041040, 0x10000000, 0x10001040, 0x00000040, 0x10000000,
   0x00040040, 0x10040000, 0x10041040, 0x00041000, 0x10041000, 0x00041040, 0x00001000, 0x00000040,
   0x10040000, 0x10000040, 0x10001000, 0x00001040, 0x00041000, 0x00040040, 0x10040040, 0x10041000,
   0x00001040, 0x00000000, 0x00000000, 0x10040040, 0x10000040, 0x10001000, 0x00041040, 0x00040000] ++
  [0x00041040, 0x00040000, 0x10041000, 0x00001000, 0x00000040, 0x10040040, 0x00001000, 0x00041040,
   0x10001000, 0x00000040, 0x10000040, 0x10040000, 0x10040040, 0x10000000, 0x00040000, 0x10001040,
   0x00000000, 0x10041040, 0x00040040, 0x10000040, 0x10040000, 0x10001000, 0x10001040, 0x00000000,
   0x10041040, 0x00041000, 0x00041000, 0x00001040, 0x00001040, 0x00040040, 0x10000000, 0x10041000]

/-- `ARMAX_PC1` (R127). -/
def candidatePc1 : List Nat :=
  [57, 49, 41, 33, 25, 17, 9, 1, 58, 50, 42, 34, 26, 18,
   10, 2, 59, 51, 43, 35, 27, 19, 11, 3, 60, 52, 44, 36,
   63, 55, 47, 39, 31, 23, 15, 7, 62, 54, 46, 38, 30, 22,
   14, 6, 61, 53, 45, 37, 29, 21, 13, 5, 28, 20, 12, 4]

/-- `ARMAX_PC2` (R127). -/
def candidatePc2 : List Nat :=
  [14, 17, 11, 24, 1, 5, 3, 28, 15, 6, 21, 10,
   23, 19, 12, 4, 26, 8, 16, 7, 27, 20, 13, 2,
   41, 52, 31, 37, 47, 55, 30, 40, 51, 45, 33, 48,
   44, 49, 39, 56, 34, 53, 46, 42, 50, 36, 29, 32]

/-- `ARMAX_ROT` (R127). -/
def candidateRot : List Nat :=
  [1, 2, 4, 6, 8, 10, 12, 14, 15, 17, 19, 21, 23, 25, 27, 28]

/-- `ARMAX_BIT8` (R127). -/
def candidateBit8 : List Byte :=
  [0x80, 0x40, 0x20, 0x10, 0x08, 0x04, 0x02, 0x01]

/-- `ARMAX_MASK6` (R127). -/
def candidateMask6 : List Byte :=
  [0x80, 0x40, 0x20, 0x10, 0x08, 0x04]

/-- `ARMAX_CRC_T0` (R131). -/
def candidateCrcT0 : List Half :=
  [0x0000, 0x1081, 0x2102, 0x3183, 0x4204, 0x5285, 0x6306, 0x7387,
   0x8408, 0x9489, 0xA50A, 0xB58B, 0xC60C, 0xD68D, 0xE70E, 0xF78F]

/-- `ARMAX_CRC_T1` (R131). -/
def candidateCrcT1 : List Half :=
  [0x0000, 0x1189, 0x2312, 0x329B, 0x4624, 0x57AD, 0x6536, 0x74BF,
   0x8C48, 0x9DC1, 0xAF5A, 0xBED3, 0xCA6C, 0xDBE5, 0xE97E, 0xF8F7]

/-- `ARMAX_SP` (R127). -/
def candidateSp : Fin 8 → BitVec 6 → Word
  | 0, x => candidateSp0.getD x.toNat 0
  | 1, x => candidateSp1.getD x.toNat 0
  | 2, x => candidateSp2.getD x.toNat 0
  | 3, x => candidateSp3.getD x.toNat 0
  | 4, x => candidateSp4.getD x.toNat 0
  | 5, x => candidateSp5.getD x.toNat 0
  | 6, x => candidateSp6.getD x.toNat 0
  | 7, x => candidateSp7.getD x.toNat 0

/-- An entry in 1..n as the element of `Fin n` that stands for it. -/
def entryLessOne (n : Nat) [NeZero n] (entry : Nat) : Fin n := Fin.ofNat n (entry - 1)

/-- The candidate ARMAX parameters (R127, R131) with the key `key`; `ARMAX_KEY` itself has no candidate. -/
def candidateAx (key : Fin 8 → Byte) : AxParams where
  key := key
  pc1 := fun i => entryLessOne 64 (candidatePc1.getD i.val 1)
  bit8 := fun i => candidateBit8.getD i.val 0
  rot := fun i => entryLessOne 28 (candidateRot.getD i.val 1)
  pc2 := fun i => entryLessOne 56 (candidatePc2.getD i.val 1)
  mask6 := fun i => candidateMask6.getD i.val 0
  sp := candidateSp
  crcT0 := fun x => candidateCrcT0.getD x.toNat 0
  crcT1 := fun x => candidateCrcT1.getD x.toNat 0

/-- The test key `0x133457799BBCDFF1` of 95_test_vectors.md, a FIPS 46 example key and no claim about the hardware (U6). -/
def testKey : Fin 8 → Byte
  | 0 => 0x13
  | 1 => 0x34
  | 2 => 0x57
  | 3 => 0x79
  | 4 => 0x9B
  | 5 => 0xBC
  | 6 => 0xDF
  | 7 => 0xF1

/-- The AR2 test instance of 95_test_vectors.md section 0, with the candidate marker (D12) and AR1 seed (D13). -/
def testAr2 : Ar2Params where
  tbl := fun i j => BitVec.ofNat 8 (0x40 * i.val + j.toNat)
  xform := fun t b =>
    if t = 6 then ⟨.add, b, BitVec.ofNat 5 (b.val + 1), b + 1, 0⟩ else ⟨laneOpOfType t, b, 0, b + 1, 0⟩
  marker := 0xDEADFACE
  ar1Seed := 0x05100518
  seedReset := 0
  xform_fixed := by
    intro t b ht
    have : t ≠ 6 := by rintro rfl; omega
    simp [this]

/-! ## MT19937 (R166) -/

/-- The seeding recurrence: `MT[i] .. MT[i+n]` from `MT[i-1]`'s successor `x = MT[i]` on (R166). -/
def mtSeedFrom : (n i : Nat) → Word → List Word
  | 0, _, x => [x]
  | n + 1, i, x => x :: mtSeedFrom n (i + 1) (1812433253#32 * (x ^^^ (x >>> 30)) + BitVec.ofNat 32 (i + 1))

theorem mtSeedFrom_length (n i : Nat) (x : Word) : (mtSeedFrom n i x).length = n + 1 := by
  induction n generalizing i x with
  | zero => rfl
  | succ n ih => simp [mtSeedFrom, ih]

/-- The candidate `RngSeed(x)` (R166). -/
def mtSeed (x : Word) : Rng := ⟨⟨⟨mtSeedFrom 623 0 x⟩, mtSeedFrom_length 623 0 x⟩, 624⟩

/-- One step of the candidate's twist, at index `k`, on the array as it stands (R166). -/
def mtTwistAt (T : Vector Word 624) (k : Fin 624) : Vector Word 624 :=
  let y := (T[k] &&& 0x80000000#32) ||| (T[k + 1] &&& 0x7FFFFFFF#32)
  T.set k.val (T[k + 397] ^^^ (y >>> 1) ^^^ (if y.getLsbD 0 then 0x9908B0DF#32 else 0#32)) k.isLt

/-- The candidate's tempering (R166). -/
def mtTemper (y : Word) : Word :=
  let y := y ^^^ (y >>> 11)
  let y := y ^^^ ((y <<< 7) &&& 0x9D2C5680#32)
  let y := y ^^^ ((y <<< 15) &&& 0xEFC60000#32)
  y ^^^ (y >>> 18)

/-- The candidate `RngNext()` (R166). -/
def mtNext (r : Rng) : Word × Rng :=
  if h : r.mti.val < 624 then
    (mtTemper r.mt[r.mti.val], ⟨r.mt, ⟨r.mti.val + 1, by omega⟩⟩)
  else
    let T := (List.finRange 624).foldl mtTwistAt r.mt
    (mtTemper T[0], ⟨T, 1⟩)

end Sys2Proof.Machine
end

