-- ==== Sys2Proof/Machine/Text.lean ====
section
/-! DEFINITION. The ARMAX human-readable text format (R67, R155 to R157): a data format between the host and people. No
command produces or reads it (R155), so nothing here touches the machine's state. -/

namespace Sys2Proof.Machine

/-- The 32 symbols in value order (R67): no I, L, O or S. -/
def textAlphabet : List Char :=
  ['0', '1', '2', '3', '4', '5', '6', '7', '8', '9', 'A', 'B', 'C', 'D', 'E', 'F',
   'G', 'H', 'J', 'K', 'M', 'N', 'P', 'Q', 'R', 'T', 'U', 'V', 'W', 'X', 'Y', 'Z']

/-- The character of a symbol value (R67). -/
def symbolChar (v : BitVec 5) : Char := textAlphabet.getD v.toNat '0'

/-- The position of a character in a list, if it is there. -/
def positionOf (c : Char) : List Char → Option Nat
  | [] => none
  | d :: ds => if d = c then some 0 else (positionOf c ds).map (· + 1)

/-- The value of a symbol's character: upper case only, no lookalikes (R67, R157). -/
def charSymbol (c : Char) : Option (BitVec 5) := (positionOf c textAlphabet).map (BitVec.ofNat 5)

/-- The XOR of the 64 bits of a line (R155). -/
def lineParity (x : BitVec 64) : Bool := (List.range 64).foldl (fun p i => p ^^ x.getLsbD i) false

/-- A line as 64 bits, `w0` in the high half (R155). -/
def lineBits (x : Pair) : BitVec 64 := x.1 ++ x.2

/-- The 65 bits `v`: the line, then its parity bit (R155). -/
def textBits (x : Pair) : BitVec 65 := lineBits x ++ BitVec.ofBool (lineParity (lineBits x))

/-- `sym[k] = v[64 - 5k : 60 - 5k]` (R155). -/
def textSymbol (v : BitVec 65) (k : Nat) : BitVec 5 := v.extractLsb' (60 - 5 * k) 5

/-- A line's code text: 4, 4 and 5 symbols with `-` at character positions 4 and 9 (R156). -/
def encodeText (x : Pair) : List Char :=
  let sym := fun k => symbolChar (textSymbol (textBits x) k)
  [sym 0, sym 1, sym 2, sym 3, '-', sym 4, sym 5, sym 6, sym 7, '-', sym 8, sym 9, sym 10, sym 11, sym 12]

/-- The values of a list of symbol characters, if each is in the alphabet (R157). -/
def symbolValues : List Char → Option (List (BitVec 5))
  | [] => some []
  | c :: cs =>
    match charSymbol c, symbolValues cs with
    | some v, some vs => some (v :: vs)
    | _, _ => none

/-- Symbols packed most significant first (R155). -/
def packSymbols (vs : List (BitVec 5)) : BitVec 65 := vs.foldl (fun acc v => (acc <<< 5) ||| v.setWidth 65) 0

/-- The line a code text stands for (R157): 15 characters, dashes at positions 4 and 9, 13 symbols of the alphabet, and
a parity bit `v[0]` that is the XOR of `v[64:1]`. -/
def decodeText (cs : List Char) : Option Pair :=
  match cs with
  | [c0, c1, c2, c3, '-', c4, c5, c6, c7, '-', c8, c9, c10, c11, c12] =>
    match symbolValues [c0, c1, c2, c3, c4, c5, c6, c7, c8, c9, c10, c11, c12] with
    | none => none
    | some vs =>
      let v := packSymbols vs
      let x : BitVec 64 := v.extractLsb' 1 64
      if v.getLsbD 0 = lineParity x then some (x.extractLsb' 32 32, x.extractLsb' 0 32) else none
  | _ => none

end Sys2Proof.Machine
end

