-- ==== Sys2Proof/Safety.lean ====
section
/-! DEFINITION. The terms in which claims about the block are stated: its invariants, which words are illegal, which
accesses belong to the interface, what each command may write, and what the batch commands do said over lists of pairs,
with no storage and no loop over indices. -/

namespace Sys2Proof.Machine

/-! ## Status -/

/-- `STATUS` after a command that completes: `CODE = 0`, `STICKY` as it was (R9, R18). -/
def okStatus (st : Word) : Word := st &&& 0x100#32

/-- `STATUS` after a command that ends with error code `code`: `STICKY` set (R9, R18). -/
def errStatus (code : Word) : Word := 0x100#32 ||| code

/-! ## Invariants -/

/-- R18, U16: the reserved bits read 0, `CODE` is 0..4, and an error code comes with `STICKY`. -/
def State.StatusLegal (s : State) : Prop :=
  s.status &&& 0xFFFFFEF0#32 = 0 ∧ (statusCode s.status).toNat ≤ 4 ∧
    (statusCode s.status ≠ 0 → statusSticky s.status = true)

/-- R20, R21, R22: both schedules are those of `ARMAX_KEY`, and the tables are those the present seeds give. -/
def State.DerivedState (s : State) : Prop :=
  s.schedE = schedEncrypt Config.ax ∧ s.schedD = schedDecrypt Config.ax ∧ s.tbl = (buildTables Config.gs3 s.gs3s).1

/-- R26: the storage is in its canonical form, lists nothing outside the window of `MEM`, and `LEN <= NMAX`. -/
def State.BufferCanonical (s : State) : Prop :=
  s.mem.wf = true ∧ (∀ x ∈ s.mem.cells, wordAddress 0 ≤ x.1 ∧ x.1 < wordAddress Config.nmax) ∧ s.len ≤ Config.nmax

/-- R25, R147: `LEN` and `CURLIM` are at most `NMAX`, `CURB` is at most 31 and `CURW` fits its register. -/
def State.CursorInRange (s : State) : Prop :=
  s.len ≤ Config.nmax ∧ s.cur.limit ≤ Config.nmax ∧ s.cur.bit ≤ 31 ∧ s.cur.word < 2 ^ 32

/-- R173: a pending second line remembers key 3 or 4. -/
def State.LatchKeyLegal (s : State) : Prop := s.gs3l = true → s.gs3k = 3 ∨ s.gs3k = 4

/-! ## Command words and accesses -/

/-- The opcodes of the format `N` commands (R54). -/
def opcodesN : List Byte :=
  [0x00, 0x01, 0x02, 0x03, 0x0F, 0x10, 0x11, 0x12, 0x13, 0x14, 0x15, 0x16, 0x17, 0x20, 0x21, 0x22, 0x23, 0x24, 0x25,
   0x26, 0x27, 0x28, 0x30, 0x40, 0x41, 0x43, 0x45, 0x46]

/-- The opcodes of the format `I` commands (R54). -/
def opcodesI : List Byte := [0x31, 0x42, 0x44]

/-- The illegal command words: the four cases of R56. -/
def illegalWord (c : Word) : Prop :=
  c.extractLsb' 16 16 ≠ 0 ∨
  (c.extractLsb' 0 8 ∉ opcodesN ∧ c.extractLsb' 0 8 ∉ opcodesI) ∨
  (c.extractLsb' 0 8 ∈ opcodesN ∧ c.extractLsb' 8 8 ≠ 0) ∨
  (c.extractLsb' 0 8 = 0x31 ∧ 32 < (c.extractLsb' 8 8).toNat) ∨
  ((c.extractLsb' 0 8 = 0x42 ∨ c.extractLsb' 0 8 = 0x44) ∧ 7 < (c.extractLsb' 8 8).toNat)

/-- An access of the interface: the host's, 32 bits wide, at an offset that is a multiple of 4 (R34, R35). -/
def Transaction.Conforms (t : Transaction) : Prop := t.agent = .host ∧ t.width = 32 ∧ t.offset % 4 = 0

/-- The host's read at an offset. -/
def readEvent (offset : Nat) : Event := .bus ⟨.host, 32, offset, .read⟩

/-- The host's write at an offset. -/
def writeEvent (offset : Nat) (v : Word) : Event := .bus ⟨.host, 32, offset, .write v⟩

/-- The value the map of R36 gives a read, and 0 where it lists nothing (R37), row by row. -/
def mappedValue (s : State) (offset : Nat) : Word :=
  if offset = 0x00 then s.cmd
  else if offset = 0x04 then s.status
  else if offset = 0x08 then BitVec.ofNat 32 s.len
  else if offset = 0x0C then BitVec.ofNat 32 Config.nmax
  else if offset = 0x10 then s.op.r0
  else if offset = 0x14 then s.op.r1
  else if offset = 0x18 then s.op.r2
  else if offset = 0x1C then s.op.r3
  else if offset = 0x20 then s.res.r0
  else if offset = 0x24 then s.res.r1
  else if offset = 0x28 then s.res.r2
  else if offset = 0x2C then s.res.r3
  else if offset = 0x30 then BitVec.ofNat 32 s.cur.word
  else if offset = 0x34 then BitVec.ofNat 32 s.cur.bit
  else if offset = 0x38 then BitVec.ofNat 32 s.cur.limit
  else if offset = 0x3C then (s.gs3k ++ BitVec.ofBool s.gs3l).setWidth 32
  else if 0x1000 ≤ offset ∧ offset < 0x1000 + 4 * Config.nmax then s.memRead ((offset - 0x1000) / 4)
  else 0

/-- The offsets R37 names as unlisted. -/
def unlistedOffset (offset : Nat) : Prop :=
  offset % 4 = 0 ∧ ((0x40 ≤ offset ∧ offset ≤ 0xFFC) ∨ 0x1000 + 4 * Config.nmax ≤ offset)

/-- The offsets of the read-only registers (R36). -/
def readOnlyOffsets : List Nat := [0x04, 0x0C, 0x20, 0x24, 0x28, 0x2C, 0x30, 0x34, 0x38, 0x3C]

/-! ## What a command may write -/

/-- The pieces of state a command can write (R54), and those no command writes. -/
inductive Component where
  | op | cmd | schedules | events | replies
  | res0 | res1 | res2 | res3
  | seed | gs3s | tbl | latch | rng | cursor | len | mem | draws
deriving DecidableEq, Repr

/-- The component is the same in both states. -/
def Component.Same (c : Component) (s t : State) : Prop :=
  match c with
  | .op => t.op = s.op
  | .cmd => t.cmd = s.cmd
  | .schedules => t.schedE = s.schedE ∧ t.schedD = s.schedD
  | .events => t.events = s.events
  | .replies => t.replies = s.replies
  | .res0 => t.res.r0 = s.res.r0
  | .res1 => t.res.r1 = s.res.r1
  | .res2 => t.res.r2 = s.res.r2
  | .res3 => t.res.r3 = s.res.r3
  | .seed => t.seed = s.seed
  | .gs3s => t.gs3s = s.gs3s
  | .tbl => t.tbl = s.tbl
  | .latch => t.gs3l = s.gs3l ∧ t.gs3k = s.gs3k
  | .rng => t.rng = s.rng
  | .cursor => t.cur = s.cur
  | .len => t.len = s.len
  | .mem => ∀ a, t.mem.readByte a = s.mem.readByte a
  | .draws => t.draws = s.draws

/-- The GS3+ state (R54, R24). -/
def gs3Components : List Component := [.gs3s, .tbl, .latch, .rng]

/-- The "writes" column of R54, besides `STATUS`; `RNG` is added to `BATCH_RESET`, whose rebuild writes it (R24, R82), and
`draws` is the model's own. -/
def writesOf : Instr → List Component
  | .nop => []
  | .bufAppend => [.mem, .len]
  | .bufPrepend => [.mem, .len]
  | .bufRemove => [.mem, .len, .draws]
  | .batchReset => [.seed, .gs3s, .tbl, .latch, .rng]
  | .ar2SetSeed => [.seed]
  | .ar2GetSeed => [.res0]
  | .ar2DecW => [.res0, .draws]
  | .ar2EncW => [.res0, .draws]
  | .ar2BDec => [.mem, .len, .seed, .draws]
  | .ar2BEnc => [.mem, .seed, .draws]
  | .ar1BDec => [.mem, .len, .draws]
  | .ar1BEnc => [.mem, .draws]
  | .axDecB => [.res0, .res1]
  | .axEncB => [.res0, .res1]
  | .axCrc => [.res0, .res1, .res2]
  | .axBDec => [.mem]
  | .axBEnc => [.mem]
  | .axRdVer => [.res0, .res1, .cursor]
  | .axMkVer => [.res0, .res1]
  | .axLDec => [.mem, .len, .seed, .cursor, .res0, .draws]
  | .axLEnc => [.mem, .seed, .cursor, .res0, .draws]
  | .curSet => [.cursor]
  | .curRead _ => [.res0, .cursor]
  | .gs3SetSeeds => [.gs3s, .tbl, .rng]
  | .gs3DecP => [.res0, .res1, .res2] ++ gs3Components
  | .gs3EncP _ => [.res0, .res1, .res2] ++ gs3Components
  | .gs3BDec => [.mem, .len, .draws] ++ gs3Components
  | .gs3BEnc _ => .mem :: gs3Components
  | .gs3RngSeed => [.rng]
  | .gs3RngNext => [.res0, .rng]

/-- Every byte of the storage outside the words `lo .. hi-1` is the same in both states. -/
def SameBytesOutside (s t : State) (lo hi : Nat) : Prop :=
  ∀ a, a < wordAddress lo ∨ wordAddress hi ≤ a → t.mem.readByte a = s.mem.readByte a

/-- The causes of `ERR_STRUCT` (R193). -/
def structuralCause (i : Instr) (s : State) : Prop :=
  match i with
  | .ar2BDec | .ar2BEnc | .ar1BDec | .ar1BEnc | .gs3BDec | .gs3BEnc _ => s.len % 2 = 1
  | .axBDec | .axBEnc | .axLDec | .axLEnc => s.len % 2 = 1 ∨ s.len < 2
  | .axCrc => s.len = 0
  | .bufAppend | .bufPrepend => s.len = Config.nmax
  | .curSet => s.op.r1.toNat > 31 ∨ s.op.r2.toNat > s.len
  | .curRead n => (readBits s.mem n.toNat s.cur).1 = none
  | .nop | .bufRemove | .batchReset | .ar2SetSeed | .ar2GetSeed | .ar2DecW | .ar2EncW | .axDecB | .axEncB | .axRdVer
  | .axMkVer | .gs3SetSeeds | .gs3DecP | .gs3EncP _ | .gs3RngSeed | .gs3RngNext => False

/-- Two states that differ at most in the storage beyond the first `n` words. -/
def AgreeBelow (n : Nat) (s t : State) : Prop :=
  t = { s with mem := t.mem } ∧ ∀ j < n, t.memRead j = s.memRead j

/-! ## Buffers as lists -/

/-- The pairs of a list of words; a last odd word is in no pair (R60). -/
def pairsOf : List Word → List Pair
  | a :: v :: rest => (a, v) :: pairsOf rest
  | [_] => []
  | [] => []

/-- The words of a list of pairs. -/
def wordsOf : List Pair → List Word
  | [] => []
  | p :: rest => p.1 :: p.2 :: wordsOf rest

/-- A list of words with the nibble slot of its first word set (R133). -/
def setFirstNibble (n : BitVec 4) : List Word → List Word
  | [] => []
  | w :: ws => withNibble w n :: ws

/-- A list of words with the CRC nibble in its slot: the plaintext `AX_BENC` enciphers (R133, R136). -/
def withCrcNibble (ws : List Word) : List Word :=
  setFirstNibble (foldNibble (crc16 Config.ax (setFirstNibble 0 ws))) ws

/-- A list of words with every pair put through the kernel under schedule `S` (R135, R136). -/
def cipherWords (S : Vector Word 32) (ws : List Word) : List Word :=
  wordsOf ((pairsOf ws).map (kernel Config.ax.sp S))

/-- What a block decryption of the buffer leaves in it: every pair deciphered, then the slot cleared (R135). -/
def decipheredBuffer (s : State) : List Word := setFirstNibble 0 (cipherWords s.schedD s.buffer)

/-- The cause of `ERR_CRC`: the nibble found in the slot after block decryption is not the one recomputed over the words
with the slot cleared (R194). -/
def CrcMismatch (s : State) : Prop :=
  foldNibble (crc16 Config.ax (decipheredBuffer s)) ≠ ((cipherWords s.schedD s.buffer).headD 0).extractLsb' 28 4

/-- The cause of `ERR_VERIFIER`, of a list of words that stands as the buffer: the reader would pass its end (R195). -/
def VerifierOverruns (ws : List Word) : Prop :=
  ∀ m : Memory, m.words 0 ws.length = ws → (readVerifier m ws.length).1 = none

/-! ## The ARMAX kernel and schedule, as the spec's pseudocode reads -/

/-- `F(x, s0, s1)` with the shifts and masks of R121. -/
def pseudoF (sp : Fin 8 → BitVec 6 → Word) (x s0 s1 : Word) : Word :=
  let t := x.rotateRight 4 ^^^ s0
  let t2 := x ^^^ s1
  let six := fun y : Word => (y &&& 63#32).setWidth 6
  sp 6 (six t) ^^^ sp 4 (six (t >>> 8)) ^^^ sp 2 (six (t >>> 16)) ^^^ sp 0 (six (t >>> 24)) ^^^
    sp 7 (six t2) ^^^ sp 5 (six (t2 >>> 8)) ^^^ sp 3 (six (t2 >>> 16)) ^^^ sp 1 (six (t2 >>> 24))

/-- The four bytes of a word reversed: `bswap32` (R8). -/
def pseudoSwap (x : Word) : Word :=
  x.extractLsb' 0 8 ++ x.extractLsb' 8 8 ++ x.extractLsb' 16 8 ++ x.extractLsb' 24 8

/-- The halves `(a, v)` after the framing on entry and the five scramble steps of R121. -/
def pseudoScramble (w : Pair) : Word × Word :=
  let a := pseudoSwap w.1
  let v := (pseudoSwap w.2).rotateLeft 4
  let t := (a ^^^ v) &&& 0xF0F0F0F0#32
  let a := a ^^^ t
  let v := (v ^^^ t).rotateRight 20
  let t := (a ^^^ v) &&& 0xFFFF0000#32
  let a := a ^^^ t
  let v := (v ^^^ t).rotateRight 18
  let t := (a ^^^ v) &&& 0x33333333#32
  let a := a ^^^ t
  let v := (v ^^^ t).rotateRight 6
  let t := (a ^^^ v) &&& 0x00FF00FF#32
  let a := a ^^^ t
  let v := (v ^^^ t).rotateLeft 9
  let t := (a ^^^ v) &&& 0xAAAAAAAA#32
  ((a ^^^ t).rotateLeft 1, v ^^^ t)

/-- The block after the five unscramble steps of R121 and the framing on exit, from the halves `(a, v)`. -/
def pseudoUnscramble (a v : Word) : Pair :=
  let v := v.rotateRight 1
  let t := (a ^^^ v) &&& 0xAAAAAAAA#32
  let v := v ^^^ t
  let a := (a ^^^ t).rotateRight 9
  let t := (a ^^^ v) &&& 0x00FF00FF#32
  let v := v ^^^ t
  let a := (a ^^^ t).rotateLeft 6
  let t := (a ^^^ v) &&& 0x33333333#32
  let v := v ^^^ t
  let a := (a ^^^ t).rotateLeft 18
  let t := (a ^^^ v) &&& 0xFFFF0000#32
  let v := v ^^^ t
  let a := (a ^^^ t).rotateLeft 20
  let t := (a ^^^ v) &&& 0xF0F0F0F0#32
  let v := v ^^^ t
  let a := (a ^^^ t).rotateRight 4
  (pseudoSwap v, pseudoSwap a)

/-- `r` is what the pseudocode of R121 returns on `w` under schedule `S`: the scramble, the 16 rounds with the halves
`a i`, `v i` before pass `i` of its loop, and the unscramble. -/
def KernelReturns (sp : Fin 8 → BitVec 6 → Word) (S : Vector Word 32) (w r : Pair) : Prop :=
  ∃ a v : Nat → Word, (a 0, v 0) = pseudoScramble w ∧
    (∀ i : Fin 8,
      a (i.val + 1) = a i.val ^^^ pseudoF sp (v i.val) S[4 * i.val] S[4 * i.val + 1] ∧
      v (i.val + 1) = v i.val ^^^ pseudoF sp (a (i.val + 1)) S[4 * i.val + 2] S[4 * i.val + 3]) ∧
    r = pseudoUnscramble (a 8) (v 8)

/-- `S` is what steps 1 to 3 of the schedule build for output pair `i` (R116 to R118): the flags `a0`, the flags `a1`
rotated within each half of 28, the bytes `a2` that collect six of them each, and the two words. -/
def ScheduleBuilds (P : AxParams) (S : Vector Word 32) (i : Fin 16) : Prop :=
  ∃ (a0 a1 : Fin 56 → Bool) (a2 : Fin 8 → Byte),
    (∀ k, a0 k = true ↔ P.key ⟨(P.pc1 k).val / 8, by omega⟩ &&& P.bit8 ⟨(P.pc1 k).val % 8, by omega⟩ ≠ 0) ∧
    (∀ j : Fin 56, a1 j = a0 ⟨28 * (j.val / 28) + ((P.rot i).val + 1 + j.val) % 28, by omega⟩) ∧
    (∀ k b, (a2 k).getLsbD b = true ↔
      ∃ m : Fin 6, a1 (P.pc2 ⟨6 * k.val + m.val, by omega⟩) = true ∧ (P.mask6 m).getLsbD (b + 2) = true) ∧
    S[2 * i.val] = a2 0 ++ a2 2 ++ a2 4 ++ a2 6 ∧ S[2 * i.val + 1] = a2 1 ++ a2 3 ++ a2 5 ++ a2 7

/-! ## The CRC, as the spec's pseudocode reads -/

/-- `r` is what the pseudocode of R131 returns over the words `ws`: `c j` is the register before byte `j` of the sequence, in
which the bytes of each word stand least significant first. -/
def CrcReturns (P : AxParams) (ws : List Word) (r : Half) : Prop :=
  ∃ c : Nat → Half, c 0 = 0 ∧
    (∀ (i : Fin ws.length) (b : Fin 4), ∃ x : Half,
      x = ((ws[i] >>> (8 * b.val)).setWidth 16 ^^^ c (4 * i.val + b.val)) &&& 0xFF#16 ∧
      c (4 * i.val + b.val + 1) =
        P.crcT0 ((x >>> 4).setWidth 4) ^^^ P.crcT1 ((x &&& 0xF#16).setWidth 4) ^^^ (c (4 * i.val + b.val) >>> 8)) ∧
    r = c (4 * ws.length)

/-- The CRC of one byte from register 0, bit by bit, under the reflected polynomial `0x8408` (R131's candidate). -/
def bitwiseCrc (x : Half) : Half := (fun c : Half => if c.getLsbD 0 then (c >>> 1) ^^^ 0x8408#16 else c >>> 1)^[8] x

/-! ## The text format, as the spec's rules read -/

/-- The 15 characters `cs` spell the 65 bits `v` in five-bit symbols, most significant first, in the alphabet of R67 and the
layout of R156. -/
def TextSpells (v : BitVec 65) (cs : List Char) : Prop :=
  let symbol := fun k : Nat => "0123456789ABCDEFGHJKMNPQRTUVWXYZ".toList[(v >>> (60 - 5 * k)).toNat % 32]?
  cs.length = 15 ∧ cs[4]? = some '-' ∧ cs[9]? = some '-' ∧
    (∀ k < 4, cs[k]? = symbol k) ∧ (∀ k < 4, cs[5 + k]? = symbol (4 + k)) ∧ (∀ k < 5, cs[10 + k]? = symbol (8 + k))

/-- `cs` is a text of the line `x`: it spells bits whose high word is `w0`, whose next word is `w1`, and whose lowest bit is
1 exactly when an odd number of the 64 others are (R155, R157). -/
def TextOfLine (x : Pair) (cs : List Char) : Prop :=
  ∃ v : BitVec 65, TextSpells v cs ∧ (v >>> 33).setWidth 32 = x.1 ∧ (v >>> 1).setWidth 32 = x.2 ∧
    (v.getLsbD 0 = true ↔ ((List.range 64).countP fun i => v.getLsbD (i + 1)) % 2 = 1)

/-! ## The table build, as the spec's pseudocode reads -/

/-- The words `ws` are the next draws of `RngNext()` from the generator `r`, which they leave at `r'` (R166): `h m` is the
generator before draw `m`. -/
def DrawsGive (P : Gs3Params) (r : Rng) (ws : List Word) (r' : Rng) : Prop :=
  ∃ h : Nat → Rng, h 0 = r ∧ (∀ m : Fin ws.length, P.rngNext (h m.val) = (ws[m], h (m.val + 1))) ∧ h ws.length = r'

/-- `T` is what the pseudocode of R169 returns for the size `n` from the generator `r`, and `r'` is the generator it leaves:
`f k` and `g k` are the table and the generator before pass `k`, and each pass swaps the two entries it picks from its
draws. -/
def ShuffleReturns (P : Gs3Params) {n : Nat} (r : Rng) (T : Vector (Fin n) n) (r' : Rng) : Prop :=
  ∃ (f : Nat → Fin n → Fin n) (g : Nat → Rng), (∀ i, f 0 i = i) ∧ g 0 = r ∧
    (∀ k < 2 * n, ∃ (ws : List Word) (i j : Fin n),
      ws.length = P.shuffleDraws k n (g k) ∧ DrawsGive P (g k) ws (g (k + 1)) ∧
      P.shufflePick k n ws = (i.val, j.val) ∧
      ∀ m, f (k + 1) m = if m = i then f k j else if m = j then f k i else f k m) ∧
    (∀ i, T[i] = f (2 * n) i) ∧ r' = g (2 * n)

/-- `T` and `r` are the tables and the generator that the pseudocode of R170 leaves for the seeds: the four encrypt tables
shuffled in size order, the generator seeded for the first and for each later one seeded or running on, and the decrypt
tables filled from them. -/
def TablesBuilt (P : Gs3Params) (seeds : Seeds) (T : Gs3Tables) (r : Rng) : Prop :=
  ∃ r0 r1 r2 : Rng,
    ShuffleReturns P (P.rngSeed (P.tblSeed0 seeds)) T.e.t0 r0 ∧
    ShuffleReturns P (((P.tblSeed 0 seeds).map P.rngSeed).getD r0) T.e.t1 r1 ∧
    ShuffleReturns P (((P.tblSeed 1 seeds).map P.rngSeed).getD r1) T.e.t2 r2 ∧
    ShuffleReturns P (((P.tblSeed 2 seeds).map P.rngSeed).getD r2) T.e.t3 r ∧
    (∀ i : Fin 0x19, T.d.t0[T.e.t0[i]] = i) ∧ (∀ i : Fin 0x39, T.d.t1[T.e.t1[i]] = i) ∧
    (∀ i : Fin 0x40, T.d.t2[T.e.t2[i]] = i) ∧ (∀ i : Fin 0x100, T.d.t3[T.e.t3[i]] = i)

/-! ## AR2 streams (R101, R102) -/

/-- A pair transformed under a seed, whose bytes are the types and seed bytes of the two words (R61), free values being drawn
from number `n` on, and the next free value's number. -/
def ar2PairAt (d : Direction) (seed : Word) (n : Nat) (p : Pair) : Pair × Nat :=
  let n' := n + ar2Draws (seed.extractLsb' 24 8)
  ((ar2Transform Config.ar2 d (Config.ar2TypeGe8 n) p.1 (seed.extractLsb' 24 8) (seed.extractLsb' 16 8),
    ar2Transform Config.ar2 d (Config.ar2TypeGe8 n') p.2 (seed.extractLsb' 8 8) (seed.extractLsb' 0 8)),
   n' + ar2Draws (seed.extractLsb' 8 8))

/-- A stream of pairs decrypted: a decrypted marker re-seeds at once and is left out (R101); its two stale words draw two
free values (U3). The result is the pairs, the seed and the next free value's number. -/
def ar2DecStream : List Pair → (seed : Word) → (n : Nat) → List Pair × Word × Nat
  | [], seed, n => ([], seed, n)
  | p :: ps, seed, n =>
    let q := ar2PairAt .decrypt seed n p
    if q.1.1 = Config.ar2.marker then ar2DecStream ps q.1.2 (q.2 + 2)
    else
      let r := ar2DecStream ps seed q.2
      (q.1 :: r.1, r.2)

/-- A stream of pairs encrypted: a plaintext marker stays, under the old seed, and re-seeds the pairs after it (R102). -/
def ar2EncStream : List Pair → (seed : Word) → (n : Nat) → List Pair × Word × Nat
  | [], seed, n => ([], seed, n)
  | p :: ps, seed, n =>
    let q := ar2PairAt .encrypt seed n p
    let r := ar2EncStream ps (if p.1 = Config.ar2.marker then p.2 else seed) q.2
    (q.1 :: r.1, r.2)

/-- Both type bytes of a seed are below 8 (R107). -/
def KnownTypes (seed : Word) : Prop := (seed.extractLsb' 24 8).toNat < 8 ∧ (seed.extractLsb' 8 8).toNat < 8

/-- Every seed under which a pair of the plaintext stream is transformed has both type bytes below 8 (R107, R142). The value
word of a marker in the last pair is used for no pair. -/
def SeedsKnown : (seed : Word) → List Pair → Prop
  | _, [] => True
  | seed, p :: ps => KnownTypes seed ∧ SeedsKnown (if p.1 = Config.ar2.marker then p.2 else seed) ps

/-- The pairs that are no markers. -/
def withoutMarkers (ps : List Pair) : List Pair := ps.filter fun p => p.1 ≠ Config.ar2.marker

/-- The seed after a plaintext stream: the last marker's value word, or the seed before it (R104, R107). -/
def seedAfter (seed : Word) (ps : List Pair) : Word :=
  ps.foldl (fun k p => if p.1 = Config.ar2.marker then p.2 else k) seed

/-! ## The verifier's bit stream (R63, R146) -/

/-- Bit `k` of the storage read as one stream, each word's most significant bit first (R146). -/
def streamBit (m : Memory) (k : Nat) : Bool := (m.readWord (k / 32)).getLsbD (31 - k % 32)

/-- The three bits of the stream from `k` on, most significant first. -/
def streamSelector (m : Memory) (k : Nat) : BitVec 3 :=
  BitVec.ofBool (streamBit m k) ++ BitVec.ofBool (streamBit m (k + 1)) ++ BitVec.ofBool (streamBit m (k + 2))

/-- From bit `k` on the stream holds expansions with the selectors given, and then the terminator 1 (R63). -/
def VerifierParses (m : Memory) : (k : Nat) → List (BitVec 3) → Prop
  | k, [] => streamBit m k = true
  | k, sel :: sels =>
    streamBit m k = false ∧ streamSelector m (k + 1) = sel ∧
      VerifierParses m (k + 4 + Config.verifierWidth sel) sels

/-- The bits a verifier stream with these selectors has: terminators, selectors and payloads (R149). -/
def verifierBits (sels : List (BitVec 3)) : Nat := 1 + (sels.map fun sel => 4 + Config.verifierWidth sel).sum

/-! ## GS3+ streams (R179, R180) -/

/-- A stream of pairs decrypted, the GS3+ state being threaded through a `State`: a refresh pair is left out (R179). -/
def gs3DecStream : List Pair → State → List Pair × State
  | [], s => ([], s)
  | p :: ps, s =>
    let q := gs3DecPair p s
    let r := gs3DecStream ps q.2
    if q.1.flags.getLsbD 0 then r else (q.1.pair :: r.1, r.2)

/-- A stream of pairs encrypted with one key; every pair is kept (R180). -/
def gs3EncStream (key : BitVec 3) : List Pair → State → List Pair × State
  | [], s => ([], s)
  | p :: ps, s =>
    let q := gs3EncPair key p s
    let r := gs3EncStream key ps q.2
    (q.1.pair :: r.1, r.2)

/-- `s` with the GS3+ state of `r`. -/
def State.withGs3Of (s r : State) : State :=
  { s with gs3s := r.gs3s, tbl := r.tbl, gs3l := r.gs3l, gs3k := r.gs3k, rng := r.rng }

end Sys2Proof.Machine
end

