-- ==== Sys2Proof/Certificates/Slice0/Obligations.lean ====
section
/-! DEFINITION. The statements about the ARMAX cipher block, from the numbered rules of the spec. Each holds for every value
of the OPEN parameters and of the free values, which are constants with no body. -/

open Sys2Proof Sys2Proof.Machine

/-! ## Command words (R52 to R56) -/

/-- Words written out from the table of R54 decode to their commands; the first with an `IMM` is the example of R59. -/
def Obligations.ExampleWordsDecode : Prop :=
  decode 0x00000000 = .ok .nop ∧ decode 0x00000003 = .ok .bufRemove ∧ decode 0x00000015 = .ok .ar2BEnc ∧
  decode 0x00000028 = .ok .axLEnc ∧ decode 0x00000030 = .ok .curSet ∧ decode 0x00000D31 = .ok (.curRead 13) ∧
  decode 0x00000742 = .ok (.gs3EncP 7) ∧ decode 0x00000046 = .ok .gs3RngNext ∧
  decode 0x00010000 = .error .reservedBits ∧ decode 0x00000004 = .error (.unknownOpcode 4) ∧
  decode 0x00000100 = .error (.immNotZero 0)

/-- R52, R54: the word of every command, whatever its `IMM`, decodes back to it. -/
def Obligations.EncodedCommandDecodesBack : Prop :=
  ∀ i : Instr, decode (encode i) = .ok i

/-- R52, R54: a word has one meaning and a command one word. -/
def Obligations.DecodedWordEncodesBack : Prop :=
  ∀ (c : Word) (i : Instr), decode c = .ok i → encode i = c

/-- R55: selection by mask and match, with the masks and matches the rule gives; `IMM` is free in format `I`. -/
def Obligations.SelectionIsMaskAndMatch : Prop :=
  ∀ (c : Word) (i : Instr), decode c = .ok i ↔
    ∃ r ∈ opcodeMap, i = r.build (c.extractLsb' 8 8) ∧
      ((r.fmt = .n ∧ c &&& 0xFFFFFFFF = r.opc.setWidth 32) ∨ (r.fmt = .i ∧ c &&& 0xFFFF00FF = r.opc.setWidth 32))

/-- R56: a host write of an illegal word to `CMD` stores it, reports `ERR_ILLEGAL`, and changes nothing else. -/
def Obligations.IllegalWordOnlyReportsItself : Prop :=
  ∀ (s : State) (rest : List Event) (c : Word), illegalWord c → s.events = commandWrite c :: rest →
    step s = .next { s with events := rest, cmd := c, status := 0x101 }

/-- R54, R56: the words that are not illegal are exactly those of the well-formed commands. -/
def Obligations.LegalWordsAreWellFormedCommands : Prop :=
  ∀ c : Word, ¬ illegalWord c ↔ ∃ i : Instr, i.wf = true ∧ decode c = .ok i

/-- R17: a host write of a word to `CMD` stores it and performs the command it encodes; what `step` adds around `exec` is
that the event is taken and `CMD` holds the word. The second clause is the same for a placed command word. -/
def Obligations.StepRunsDecodedCommand : Prop :=
  (∀ (s : State) (rest : List Event) (c : Word) (i : Instr),
    s.events = commandWrite c :: rest → decode c = .ok i →
      step s = exec i { s with events := rest, cmd := c }) ∧
  (∀ (s : State) (i : Instr), step (s.withFetchWord 32 (encode i).toNat) = exec i { s with cmd := encode i })

/-! ## Host accesses (R34 to R46) -/

/-- R36, R37, R43: a host read returns what the map gives its offset, and has no other effect. -/
def Obligations.HostReadFollowsTheMap : Prop :=
  ∀ (s : State) (rest : List Event) (offset : Nat), offset % 4 = 0 → s.events = readEvent offset :: rest →
    step s = .next { s with events := rest, replies := mappedValue s offset :: s.replies }

/-- R27: a host write to `LEN`; after reset the words that enter the buffer hold free values. -/
def Obligations.HostWriteOfLen : Prop :=
  (∀ (s : State) (rest : List Event) (v : Word), s.events = writeEvent 0x08 v :: rest →
    (v.toNat ≤ Config.nmax → step s = .next { s with events := rest, len := v.toNat }) ∧
    (Config.nmax < v.toNat → step s = .next { s with events := rest })) ∧
  ∃ epoch, ∀ a, State.reset.mem.readByte a = Config.unwrittenByte epoch a

/-- R36, R39, R46: a host write to an operand register or a buffer word changes that word only, and a read that follows
returns the word written, or at another offset what the map gave before. -/
def Obligations.HostWriteReadsBack : Prop :=
  ∀ (s : State) (rest : List Event) (off off' : Nat) (v : Word), off % 4 = 0 → off' % 4 = 0 →
    ((0x10 ≤ off ∧ off ≤ 0x1C) ∨ (0x1000 ≤ off ∧ off < 0x1000 + 4 * Config.nmax)) →
    s.events = writeEvent off v :: readEvent off' :: rest →
    ∃ t, step s = .next t ∧ t = { s with events := readEvent off' :: rest, op := t.op, mem := t.mem } ∧
      (∀ a, a < off ∨ off + 4 ≤ a → t.mem.readByte a = s.mem.readByte a) ∧
      (0x1000 ≤ off → t.op = s.op) ∧
      step t = .next { t with
        events := rest, replies := (if off' = off then v else mappedValue s off') :: s.replies }

/-- R37: unlisted offsets read 0 and ignore writes, read-only registers ignore writes, and `STATUS` does not change. -/
def Obligations.UnlistedAndReadOnlyAccesses : Prop :=
  (∀ (s : State) (rest : List Event) (offset : Nat), unlistedOffset offset → s.events = readEvent offset :: rest →
    step s = .next { s with events := rest, replies := 0 :: s.replies }) ∧
  (∀ (s : State) (rest : List Event) (offset : Nat) (v : Word), unlistedOffset offset ∨ offset ∈ readOnlyOffsets →
    s.events = writeEvent offset v :: rest → step s = .next { s with events := rest })

/-- R34, R41, R191: the model refuses exactly the accesses outside the interface, and no command ever stops it. -/
def Obligations.RefusalsAreForeignAccesses : Prop :=
  (∀ s : State, (∃ r, step s = .refused r) ↔ ∃ t rest, s.events = .bus t :: rest ∧ ¬ t.Conforms) ∧
  (∀ (i : Instr) (s : State), ∃ t, exec i s = .next t)

/-! ## Reset and the invariants -/

/-- R33, R5: the reset table, and the range of `NMAX`. -/
def Obligations.ResetTable : Prop :=
  State.reset.op = ⟨0, 0, 0, 0⟩ ∧ State.reset.res = ⟨0, 0, 0, 0⟩ ∧ State.reset.cmd = 0 ∧ State.reset.status = 0 ∧
  State.reset.seed = Config.ar2.seedReset ∧
  State.reset.schedE = schedEncrypt Config.ax ∧ State.reset.schedD = reversePairs (schedEncrypt Config.ax) ∧
  State.reset.gs3s = Config.gs3.seedsReset ∧
  (State.reset.tbl, State.reset.rng) = buildTables Config.gs3 Config.gs3.seedsReset ∧
  State.reset.gs3l = false ∧ State.reset.gs3k = 0 ∧ State.reset.cur = ⟨0, 0, 0⟩ ∧ State.reset.len = 0 ∧
  (∃ epoch, ∀ a, State.reset.mem.readByte a = Config.unwrittenByte epoch a) ∧
  mappedValue State.reset 0x0C = BitVec.ofNat 32 Config.nmax ∧ mappedValue State.reset 0x3C = 0 ∧
  2 ≤ Config.nmax ∧ Config.nmax ≤ 2 ^ 20

/-- R206, R207: block reset gives the reset table with `MEM` unspecified anew; with nothing to do the block is idle. What
the host still sends and has read is kept: the model's choice (log 1, log 19). -/
def Obligations.BlockResetAndIdle : Prop :=
  (∀ (s : State) (rest : List Event), s.events = .blockReset :: rest →
    step s = .next { State.reset with
      mem := ⟨s.mem.epoch + 1, []⟩, draws := s.draws, events := rest, replies := s.replies }) ∧
  (∀ s : State, s.events = [] → step s = .next s)

/-- The reset state meets every invariant. -/
def Obligations.ResetMeetsInvariants : Prop :=
  State.reset.StatusLegal ∧ State.reset.DerivedState ∧ State.reset.BufferCanonical ∧ State.reset.CursorInRange ∧
    State.reset.LatchKeyLegal

/-- R18, U16: every step keeps `STATUS` legal: reserved bits 0, `CODE` at most 4, an error code only with `STICKY`. -/
def Obligations.StepKeepsStatusLegal : Prop :=
  ∀ s t : State, s.StatusLegal → step s = .next t → t.StatusLegal

/-- R20, R21, R22: every step keeps the schedules those of the key and the tables those of the present seeds. -/
def Obligations.StepKeepsDerivedState : Prop :=
  ∀ s t : State, s.DerivedState → step s = .next t → t.DerivedState

/-- R26: every step keeps the storage canonical and within the window of `MEM`, and `LEN` at most `NMAX`. -/
def Obligations.StepKeepsBufferCanonical : Prop :=
  ∀ s t : State, s.BufferCanonical → step s = .next t → t.BufferCanonical

/-- R25, R26: every step keeps `LEN` and `CURLIM` at most `NMAX`, `CURB` at most 31 and `CURW` a 32-bit value (log 8). -/
def Obligations.StepKeepsCursorInRange : Prop :=
  ∀ s t : State, s.CursorInRange → step s = .next t → t.CursorInRange

/-- R173: every step keeps the key of a pending second line 3 or 4. -/
def Obligations.StepKeepsLatchKeyLegal : Prop :=
  ∀ s t : State, s.LatchKeyLegal → step s = .next t → t.LatchKeyLegal

/-- R18: once set, `STICKY` is cleared by block reset only. -/
def Obligations.StickyClearedOnlyByReset : Prop :=
  ∀ s t : State, step s = .next t → statusSticky s.status = true →
    statusSticky t.status = true ∨ ∃ rest, s.events = .blockReset :: rest

/-! ## Every command -/

/-- R54, R18: a command changes nothing but what the "writes" column lists and `STATUS`, which it sets to `OK` or to an
error code 1 to 4. -/
def Obligations.CommandsWriteOnlyTheirColumn : Prop :=
  ∀ (i : Instr) (s t : State), exec i s = .next t →
    (∀ c : Component, c ∉ writesOf i → c.Same s t) ∧
    (t.status = okStatus s.status ∨
      t.status = errStatus 1 ∨ t.status = errStatus 2 ∨ t.status = errStatus 3 ∨ t.status = errStatus 4)

/-- R191, R193, R194, R195, R197: each code with exactly its causes, the data errors only once the checks before them have
passed, and what each error leaves changed. -/
def Obligations.ErrorsOnlyAsListed : Prop :=
  ∀ (i : Instr) (s t : State), exec i s = .next t →
    (statusCode t.status = 1 ↔ i.wf = false) ∧
    (statusCode t.status = 2 ↔ i.wf = true ∧ structuralCause i s) ∧
    (statusCode t.status = 3 ↔ (i = .axBDec ∨ i = .axLDec) ∧ ¬ structuralCause i s ∧ CrcMismatch s) ∧
    (statusCode t.status = 4 ↔ (i = .axRdVer ∨ i = .axLEnc ∧ ¬ structuralCause i s) ∧ VerifierOverruns s.buffer ∨
      i = .axLDec ∧ ¬ structuralCause i s ∧ ¬ CrcMismatch s ∧ VerifierOverruns (decipheredBuffer s)) ∧
    (statusCode t.status = 1 → t = { s with status := errStatus 1 }) ∧
    (statusCode t.status = 2 → t = { s with status := errStatus 2 } ∨
      ∃ n, i = .curRead n ∧ t = { s with cur := t.cur, status := errStatus 2 }) ∧
    (statusCode t.status = 3 → t = { s with mem := t.mem, status := errStatus 3 } ∧
      t.buffer = decipheredBuffer s ∧ SameBytesOutside s t 0 s.len) ∧
    (statusCode t.status = 4 → i ≠ .axLDec → t = { s with cur := t.cur, status := errStatus 4 }) ∧
    (statusCode t.status = 4 → i = .axLDec → t = { s with mem := t.mem, cur := t.cur, status := errStatus 4 } ∧
      t.buffer = decipheredBuffer s ∧ SameBytesOutside s t 0 s.len)

/-- R44: what a command does depends on no buffer word at or beyond `LEN`, but for `CUR_READ`. That the two results agree in
the words from the new `LEN` to the old one, and in AR2 results of types 8 to 255, is the model's: both runs start from one
draw count and so take equally numbered free values (log 5, 6, 7). -/
def Obligations.CommandsReadOnlyTheBuffer : Prop :=
  ∀ (i : Instr) (s1 s2 t1 : State), (∀ n, i ≠ .curRead n) → AgreeBelow s1.len s1 s2 → exec i s1 = .next t1 →
    ∃ t2, exec i s2 = .next t2 ∧ AgreeBelow (max s1.len t1.len) t1 t2

/-! ## Buffer and control commands -/

/-- R81. -/
def Obligations.NopOnlyReportsOk : Prop :=
  (∀ s : State, exec .nop s = .next { s with status := okStatus s.status }) ∧
  (∀ c : Word, c.extractLsb' 0 8 = 0 → c ≠ 0 → illegalWord c)

/-- R82. -/
def Obligations.BatchResetEffect : Prop :=
  ∀ s : State, exec .batchReset s = .next { s with
    seed := Config.ar2.seedReset
    gs3s := Config.gs3.seedsReset
    tbl := (buildTables Config.gs3 Config.gs3.seedsReset).1
    rng := (buildTables Config.gs3 Config.gs3.seedsReset).2
    gs3l := false
    gs3k := 0
    status := okStatus s.status }

/-- R83. -/
def Obligations.AppendAddsLastWord : Prop :=
  ∀ s : State,
    (s.len = Config.nmax → exec .bufAppend s = .next { s with status := errStatus 2 }) ∧
    (s.len ≠ Config.nmax → ∃ t, exec .bufAppend s = .next t ∧
      t = { s with mem := t.mem, len := s.len + 1, status := okStatus s.status } ∧
      t.buffer = s.buffer ++ [s.op.r0] ∧ SameBytesOutside s t s.len (s.len + 1))

/-- R84. -/
def Obligations.PrependAddsFirstWord : Prop :=
  ∀ s : State,
    (s.len = Config.nmax → exec .bufPrepend s = .next { s with status := errStatus 2 }) ∧
    (s.len ≠ Config.nmax → ∃ t, exec .bufPrepend s = .next t ∧
      t = { s with mem := t.mem, len := s.len + 1, status := okStatus s.status } ∧
      t.buffer = s.op.r0 :: s.buffer ∧ SameBytesOutside s t 0 (s.len + 1))

/-- R85, R86: the three branches of the removal; the words left behind are free values (U3, log 5). -/
def Obligations.RemoveBranches : Prop :=
  ∀ (s : State) (start count : Nat), start = s.op.r0.toNat → count = s.op.r1.toNat →
    (start < 1 ∨ s.len < start ∨ count < 1 → exec .bufRemove s = .next { s with status := okStatus s.status }) ∧
    (1 ≤ start → start ≤ s.len → 1 ≤ count → s.len < start + count → ∃ t, exec .bufRemove s = .next t ∧
      t = { s with mem := t.mem, len := s.len - count, draws := s.draws + (s.len - (s.len - count))
                   status := okStatus s.status } ∧
      t.buffer = s.buffer.take (s.len - count) ∧ SameBytesOutside s t (s.len - count) s.len ∧
      ∀ k < s.len - (s.len - count), t.memRead (s.len - count + k) = Config.staleWord (s.draws + k)) ∧
    (1 ≤ start → 1 ≤ count → start + count ≤ s.len → ∃ t, exec .bufRemove s = .next t ∧
      t = { s with mem := t.mem, len := s.len - count, draws := s.draws + count, status := okStatus s.status } ∧
      t.buffer = s.buffer.take (start - 1) ++ s.buffer.drop (start + count - 1) ∧
      SameBytesOutside s t (start - 1) s.len ∧
      ∀ k < count, t.memRead (s.len - count + k) = Config.staleWord (s.draws + k))

/-! ## AR1/AR2 -/

/-- R91, R92: set and get of the running seed, and a get after a set. -/
def Obligations.SeedRegisterCommands : Prop :=
  ∀ s : State,
    exec .ar2SetSeed s = .next { s with seed := s.op.r0, status := okStatus s.status } ∧
    exec .ar2GetSeed s = .next { s with res := { s.res with r0 := s.seed }, status := okStatus s.status } ∧
    ∀ t, exec .ar2SetSeed s = .next t → ∃ u, exec .ar2GetSeed t = .next u ∧ u.res.r0 = s.op.r0

/-- R99, R100: the single-word commands; a type of 8 to 255 takes one free value (U5, log 7). -/
def Obligations.SingleWordTransforms : Prop :=
  ∀ s : State,
    exec .ar2DecW s = .next { s with
      res := { s.res with r0 := ar2Transform Config.ar2 .decrypt (Config.ar2TypeGe8 s.draws) s.op.r0
                                  (s.op.r1.extractLsb' 0 8) (s.op.r2.extractLsb' 0 8) }
      draws := s.draws + (if (s.op.r1.extractLsb' 0 8).toNat < 8 then 0 else 1)
      status := okStatus s.status } ∧
    exec .ar2EncW s = .next { s with
      res := { s.res with r0 := ar2Transform Config.ar2 .encrypt (Config.ar2TypeGe8 s.draws) s.op.r0
                                  (s.op.r1.extractLsb' 0 8) (s.op.r2.extractLsb' 0 8) }
      draws := s.draws + (if (s.op.r1.extractLsb' 0 8).toNat < 8 then 0 else 1)
      status := okStatus s.status }

/-- R93, R94, R95, R97, R98: what each type does to each byte lane, the keys `k1` and `k2` read from the tables the lane's
descriptor names; type 6 takes its operation and offsets from the descriptor. -/
def Obligations.LaneFormulasByType : Prop :=
  ∀ (P : Ar2Params) (free w : Word) (s : Byte) (b : Fin 4),
    let x : Byte := w.extractLsb' (8 * b.val) 8
    let lane := fun (d : Direction) (t : Byte) => (ar2Transform P d free w t s).extractLsb' (8 * b.val) 8
    let k1 := fun (t : Fin 7) => P.tbl (P.xform t b).ti ((s + (P.xform t b).oi.setWidth 8).setWidth 5)
    let k2 := fun (t : Fin 7) => P.tbl (P.xform t b).tj ((s + (P.xform t b).oj.setWidth 8).setWidth 5)
    (∀ t : Fin 7, t.val < 6 →
      k1 t = P.tbl (P.xform t b).ti (s.setWidth 5) ∧ k2 t = P.tbl (P.xform t b).tj (s.setWidth 5)) ∧
    lane .decrypt 0 = x ^^^ k1 0 ∧
    lane .decrypt 1 = (x.extractLsb' 0 4 ++ x.extractLsb' 4 4) ^^^ k1 1 ∧
    lane .decrypt 2 = x + k1 2 ∧
    lane .decrypt 3 = x - k1 3 ∧
    lane .decrypt 4 = (x ^^^ k1 4) + k2 4 ∧
    lane .decrypt 5 = (x - k1 5) ^^^ k2 5 ∧
    lane .decrypt 6 = laneDecrypt (P.xform 6 b).op (k1 6) (k2 6) x ∧
    lane .encrypt 6 = laneEncrypt (P.xform 6 b).op (k1 6) (k2 6) x ∧
    (∀ d, ar2Transform P d free w 7 s = if s.getLsbD 0 then ar2Transform P d free w 1 s else ~~~w) ∧
    (∀ d (t : Byte), 8 ≤ t.toNat → ar2Transform P d free w t s = free)

/-- R97, R98: for types 0 to 7 each direction undoes the other, whatever the tables. -/
def Obligations.WordTransformsInvert : Prop :=
  ∀ (P : Ar2Params) (f g w : Word) (t s : Byte), t.toNat < 8 →
    ar2Transform P .decrypt f (ar2Transform P .encrypt g w t s) t s = w ∧
    ar2Transform P .encrypt f (ar2Transform P .decrypt g w t s) t s = w

/-- R101, R103: `AR2_BDEC` decrypts the buffer as a stream of pairs in which a marker re-seeds and is left out. -/
def Obligations.Ar2BatchDecryptsStream : Prop :=
  ∀ s : State,
    (s.len % 2 = 1 → exec .ar2BDec s = .next { s with status := errStatus 2 }) ∧
    (s.len % 2 = 0 → ∃ t, exec .ar2BDec s = .next t ∧
      ∀ r, r = ar2DecStream (pairsOf s.buffer) s.seed s.draws →
        t = { s with mem := t.mem, len := 2 * r.1.length, seed := r.2.1, draws := r.2.2
                     status := okStatus s.status } ∧
        t.buffer = wordsOf r.1 ∧ SameBytesOutside s t 0 s.len)

/-- R102, R104: `AR2_BENC` encrypts the buffer as a stream of pairs in which a marker stays and re-seeds what follows. -/
def Obligations.Ar2BatchEncryptsStream : Prop :=
  ∀ s : State,
    (s.len % 2 = 1 → exec .ar2BEnc s = .next { s with status := errStatus 2 }) ∧
    (s.len % 2 = 0 → ∃ t, exec .ar2BEnc s = .next t ∧
      ∀ r, r = ar2EncStream (pairsOf s.buffer) s.seed s.draws →
        t = { s with mem := t.mem, seed := r.2.1, draws := r.2.2, status := okStatus s.status } ∧
        t.buffer = wordsOf r.1 ∧ SameBytesOutside s t 0 s.len)

/-- R105, R106: the AR1 commands are the AR2 commands under `AR1_SEED`, with the running seed restored. -/
def Obligations.Ar1IsAr2UnderFixedSeed : Prop :=
  ∀ s : State,
    (s.len % 2 = 1 → exec .ar1BDec s = .next { s with status := errStatus 2 } ∧
      exec .ar1BEnc s = .next { s with status := errStatus 2 }) ∧
    (s.len % 2 = 0 → ∃ t u, exec .ar2BDec { s with seed := Config.ar2.ar1Seed } = .next t ∧
      exec .ar1BDec s = .next { t with seed := s.seed } ∧
      exec .ar2BEnc { s with seed := Config.ar2.ar1Seed } = .next u ∧
      exec .ar1BEnc s = .next { u with seed := s.seed })

/-- R107: the AR2 batch round trip, in the order encrypt then decrypt under the same starting seed, markers being removed;
and in the order decrypt then encrypt when the decrypt removes no marker. Only seeds used for some pair need types below
8. -/
def Obligations.Ar2BatchRoundTrip : Prop :=
  (∀ s : State, s.len % 2 = 0 → SeedsKnown s.seed (pairsOf s.buffer) →
    ∃ t u, exec .ar2BEnc s = .next t ∧ exec .ar2BDec { t with seed := s.seed } = .next u ∧
      t.seed = seedAfter s.seed (pairsOf s.buffer) ∧
      u = { s with mem := u.mem, len := 2 * (withoutMarkers (pairsOf s.buffer)).length
                   seed := seedAfter s.seed (pairsOf s.buffer), draws := u.draws, status := okStatus s.status } ∧
      u.buffer = wordsOf (withoutMarkers (pairsOf s.buffer)) ∧
      ((∀ p ∈ pairsOf s.buffer, p.1 ≠ Config.ar2.marker) → u.buffer = s.buffer ∧ u.seed = s.seed)) ∧
  (∀ s t : State, s.len % 2 = 0 → (s.len ≠ 0 → KnownTypes s.seed) → exec .ar2BDec s = .next t → t.len = s.len →
    ∃ u, exec .ar2BEnc t = .next u ∧ u = { s with mem := u.mem, status := okStatus s.status } ∧ u.buffer = s.buffer)

/-! ## ARMAX block cipher and integrity -/

/-- R116 to R123: the two commands, the kernel they run as the pseudocode of R121 returns it, for any tables and schedule,
and the schedules as the steps of R116 to R119 build them, for any parameters. -/
def Obligations.SingleBlockCommands : Prop :=
  (∀ s : State,
    exec .axDecB s = .next { s with
      res := { s.res with r0 := (kernel Config.ax.sp s.schedD (s.op.r0, s.op.r1)).1
                          r1 := (kernel Config.ax.sp s.schedD (s.op.r0, s.op.r1)).2 }
      status := okStatus s.status } ∧
    exec .axEncB s = .next { s with
      res := { s.res with r0 := (kernel Config.ax.sp s.schedE (s.op.r0, s.op.r1)).1
                          r1 := (kernel Config.ax.sp s.schedE (s.op.r0, s.op.r1)).2 }
      status := okStatus s.status }) ∧
  (∀ (sp : Fin 8 → BitVec 6 → Word) (S : Vector Word 32) (w r : Pair), kernel sp S w = r ↔ KernelReturns sp S w r) ∧
  (∀ (P : AxParams) (i : Fin 16), ScheduleBuilds P (schedEncrypt P) i ∧
    (schedEncrypt P)[2 * i.val] &&& 0xC0C0C0C0 = 0 ∧ (schedEncrypt P)[2 * i.val + 1] &&& 0xC0C0C0C0 = 0 ∧
    (schedDecrypt P)[2 * i.val] = (schedEncrypt P)[2 * (15 - i.val)] ∧
    (schedDecrypt P)[2 * i.val + 1] = (schedEncrypt P)[2 * (15 - i.val) + 1])

/-- R124: for any tables and any schedule, the kernel under the pair-reversed schedule undoes the kernel; so `AX_DECB`
inverts `AX_ENCB`, and the reverse. -/
def Obligations.KernelInverseLaw : Prop :=
  (∀ (sp : Fin 8 → BitVec 6 → Word) (S : Vector Word 32) (w : Pair), kernel sp (reversePairs S) (kernel sp S w) = w) ∧
  (∀ s t u : State, s.DerivedState → exec .axEncB s = .next t →
    exec .axDecB { t with op := { t.op with r0 := t.res.r0, r1 := t.res.r1 } } = .next u →
      u.res.r0 = s.op.r0 ∧ u.res.r1 = s.op.r1) ∧
  (∀ s t u : State, s.DerivedState → exec .axDecB s = .next t →
    exec .axEncB { t with op := { t.op with r0 := t.res.r0, r1 := t.res.r1 } } = .next u →
      u.res.r0 = s.op.r0 ∧ u.res.r1 = s.op.r1)

/-- R131, R132, R133, R134: `AX_CRC` over the buffer as a list, with the nibble slot read as 0; the CRC as the pseudocode of
R131 returns it, for any tables, the fold and the slot as R132 and R133 write them, and the candidate tables of R131. -/
def Obligations.CrcCommandResults : Prop :=
  (∀ s : State,
    (s.len = 0 → exec .axCrc s = .next { s with status := errStatus 2 }) ∧
    (s.len ≠ 0 → ∀ crc, crc = crc16 Config.ax (setFirstNibble 0 s.buffer) →
      exec .axCrc s = .next { s with
        res := { s.res with r0 := (foldNibble crc).setWidth 32, r1 := crc.setWidth 32
                            r2 := ((s.memRead 0).extractLsb' 28 4).setWidth 32 }
        status := okStatus s.status })) ∧
  (∀ (P : AxParams) (ws : List Word) (crc : Half), crc16 P ws = crc ↔ CrcReturns P ws crc) ∧
  (∀ c : Half, (foldNibble c).setWidth 16 = ((c >>> 12) ^^^ (c >>> 8) ^^^ (c >>> 4) ^^^ c) &&& 0xF#16) ∧
  (∀ (n : BitVec 4) (w : Word) (ws : List Word),
    setFirstNibble n (w :: ws) = ((w &&& 0x0FFFFFFF#32) ||| (n.setWidth 32 <<< 28)) :: ws) ∧
  (∀ (key : Fin 8 → Byte) (x : BitVec 4),
    (candidateAx key).crcT1 x = bitwiseCrc (x.setWidth 16) ∧
    (candidateAx key).crcT0 x = bitwiseCrc (x.setWidth 16 <<< 4))

/-- R136: `AX_BENC` writes the nibble into the first word, then enciphers every pair. -/
def Obligations.BlockBatchEncrypts : Prop :=
  ∀ s : State,
    (s.len % 2 = 1 ∨ s.len < 2 → exec .axBEnc s = .next { s with status := errStatus 2 }) ∧
    (s.len % 2 = 0 → 2 ≤ s.len → ∃ t, exec .axBEnc s = .next t ∧
      t = { s with mem := t.mem, status := okStatus s.status } ∧
      t.buffer = cipherWords s.schedE (withCrcNibble s.buffer) ∧ SameBytesOutside s t 0 s.len)

/-- R135, R194: `AX_BDEC` deciphers every pair, clears the slot, and reports `ERR_CRC` exactly when the nibble that stood
there differs from the one recomputed; the buffer is left deciphered either way. -/
def Obligations.BlockBatchDecrypts : Prop :=
  ∀ s : State,
    (s.len % 2 = 1 ∨ s.len < 2 → exec .axBDec s = .next { s with status := errStatus 2 }) ∧
    (s.len % 2 = 0 → 2 ≤ s.len → ∃ t, exec .axBDec s = .next t ∧
      ∀ ws plain, ws = cipherWords s.schedD s.buffer → plain = setFirstNibble 0 ws →
        t = { s with mem := t.mem
                     status := if foldNibble (crc16 Config.ax plain) = (ws.headD 0).extractLsb' 28 4
                               then okStatus s.status else errStatus 3 } ∧
        t.buffer = plain ∧ SameBytesOutside s t 0 s.len)

/-- R137: the block batch round trip, for every state whose schedules are those of the key. -/
def Obligations.BlockBatchRoundTrip : Prop :=
  ∀ s : State, s.DerivedState → s.len % 2 = 0 → 2 ≤ s.len →
    ∃ t u, exec .axBEnc s = .next t ∧ exec .axBDec t = .next u ∧
      u = { s with mem := u.mem, status := okStatus s.status } ∧
      u.buffer = setFirstNibble 0 s.buffer ∧ SameBytesOutside s u 0 s.len

/-! ## ARMAX list codec -/

/-- R139, R140: `AX_LENC`, with its errors in the order of the rule. -/
def Obligations.ListEncrypts : Prop :=
  ∀ s : State,
    (s.len % 2 = 1 ∨ s.len < 2 → exec .axLEnc s = .next { s with status := errStatus 2 }) ∧
    (s.len % 2 = 0 → 2 ≤ s.len →
      (∀ cur, readVerifier s.mem s.len = (none, cur) →
        exec .axLEnc s = .next { s with cur := cur, status := errStatus 4 }) ∧
      (∀ lines c cur, readVerifier s.mem s.len = (some (lines, c), cur) → ∃ t, exec .axLEnc s = .next t ∧
        ∀ e, e = ar2EncStream (pairsOf (s.buffer.drop (2 * lines))) s.op.r0 s.draws →
          t = { s with mem := t.mem, seed := e.2.1, draws := e.2.2, cur := cur
                       res := { s.res with r0 := BitVec.ofNat 32 lines }, status := okStatus s.status } ∧
          t.buffer = cipherWords s.schedE
            (withCrcNibble (s.buffer.take (2 * lines) ++ (wordsOf e.1).map bswap32)) ∧
          SameBytesOutside s t 0 s.len))

/-- R138, R139, R197: `AX_LDEC`, with its errors in the order of the rule. -/
def Obligations.ListDecrypts : Prop :=
  ∀ s : State,
    (s.len % 2 = 1 ∨ s.len < 2 → exec .axLDec s = .next { s with status := errStatus 2 }) ∧
    (s.len % 2 = 0 → 2 ≤ s.len → ∃ t, exec .axLDec s = .next t ∧
      ∀ ws plain m, ws = cipherWords s.schedD s.buffer → plain = setFirstNibble 0 ws →
        m.words 0 s.len = plain →
        (foldNibble (crc16 Config.ax plain) ≠ (ws.headD 0).extractLsb' 28 4 →
          t = { s with mem := t.mem, status := errStatus 3 } ∧ t.buffer = plain ∧ SameBytesOutside s t 0 s.len) ∧
        (foldNibble (crc16 Config.ax plain) = (ws.headD 0).extractLsb' 28 4 →
          (∀ cur, readVerifier m s.len = (none, cur) →
            t = { s with mem := t.mem, cur := cur, status := errStatus 4 } ∧ t.buffer = plain ∧
              SameBytesOutside s t 0 s.len) ∧
          (∀ lines c cur, readVerifier m s.len = (some (lines, c), cur) →
            ∀ d, d = ar2DecStream (pairsOf ((plain.drop (2 * lines)).map bswap32)) s.op.r0 s.draws →
              t = { s with mem := t.mem, len := 2 * lines + 2 * d.1.length, seed := d.2.1, draws := d.2.2, cur := cur
                           res := { s.res with r0 := BitVec.ofNat 32 lines }, status := okStatus s.status } ∧
              t.buffer = plain.take (2 * lines) ++ wordsOf d.1 ∧ SameBytesOutside s t 0 s.len)))

/-- R141, R149: the bits the reader consumed lie in the buffer, the line count is the least that holds them, and the
payload start lies within an even buffer. -/
def Obligations.PayloadStartsInBuffer : Prop :=
  ∀ (m : Memory) (len lines c : Nat) (cur : Cursor), readVerifier m len = (some (lines, c), cur) →
    40 + c ≤ 32 * len ∧ c + 40 ≤ 64 * lines ∧ 64 * (lines - 1) < c + 40 ∧ (len % 2 = 0 → 2 * lines ≤ len)

/-- R142: the list round trip under one key; marker pairs of the payload come out removed. Only seeds used for some pair
need types below 8. -/
def Obligations.ListRoundTrip : Prop :=
  ∀ (s : State) (lines c : Nat) (payload : List Pair), s.DerivedState → s.len % 2 = 0 →
    (s.memRead 0).extractLsb' 28 4 = 0 → (readVerifier s.mem s.len).1 = some (lines, c) →
    payload = pairsOf (s.buffer.drop (2 * lines)) → SeedsKnown s.op.r0 payload →
    ∃ t u, exec .axLEnc s = .next t ∧ exec .axLDec t = .next u ∧ u.status = okStatus s.status ∧
      u.buffer = s.buffer.take (2 * lines) ++ wordsOf (withoutMarkers payload) ∧
      u.seed = seedAfter s.op.r0 payload ∧
      ((∀ p ∈ payload, p.1 ≠ Config.ar2.marker) → u.buffer = s.buffer)

/-! ## Bit cursor and verifier -/

/-- R147. -/
def Obligations.CursorSetChecks : Prop :=
  ∀ s : State,
    (31 < s.op.r1.toNat ∨ s.len < s.op.r2.toNat → exec .curSet s = .next { s with status := errStatus 2 }) ∧
    (s.op.r1.toNat ≤ 31 → s.op.r2.toNat ≤ s.len → exec .curSet s = .next { s with
      cur := ⟨s.op.r0.toNat, s.op.r1.toNat, s.op.r2.toNat⟩, status := okStatus s.status })

/-- R146, R148, R56: `CUR_READ n` reads `n` bits of the storage as one stream, most significant bit first, when the limit
leaves room for them; otherwise the cursor stops at the limit. `CURB <= 31` is part of an invariant of every step. -/
def Obligations.CursorReadTakesStreamBits : Prop :=
  ∀ (s : State) (n : Byte) (p : Nat), s.cur.bit ≤ 31 → p = 32 * s.cur.word + s.cur.bit →
    (32 < n.toNat → exec (.curRead n) s = .next { s with status := errStatus 1 }) ∧
    (n.toNat ≤ 32 → n.toNat = 0 ∨ p + n.toNat ≤ 32 * s.cur.limit → ∃ t, exec (.curRead n) s = .next t ∧
      t = { s with res := { s.res with r0 := t.res.r0 }
                   cur := ⟨(p + n.toNat) / 32, (p + n.toNat) % 32, s.cur.limit⟩, status := okStatus s.status } ∧
      (∀ k < n.toNat, t.res.r0.getLsbD k = streamBit s.mem (p + n.toNat - 1 - k)) ∧
      ∀ k, n.toNat ≤ k → t.res.r0.getLsbD k = false) ∧
    (1 ≤ n.toNat → n.toNat ≤ 32 → 32 * s.cur.limit < p + n.toNat → exec (.curRead n) s = .next { s with
      cur := if s.cur.limit ≤ s.cur.word then s.cur else ⟨s.cur.limit, 0, s.cur.limit⟩, status := errStatus 2 })

/-- R63, R149, R150, R195: `AX_RDVER` succeeds exactly when the stream from bit 40 on parses as a verifier that ends within
the buffer, and then reports its lines and bits; otherwise it reports `ERR_VERIFIER` and the cursor stands where the
failing read stopped. -/
def Obligations.VerifierReadParsesStream : Prop :=
  ∀ s : State,
    (∀ sels b, VerifierParses s.mem 40 sels → b = verifierBits sels → 40 + b ≤ 32 * s.len →
      exec .axRdVer s = .next { s with
        cur := ⟨(40 + b) / 32, (40 + b) % 32, s.len⟩
        res := { s.res with r0 := BitVec.ofNat 32 (1 + (b - 24 + 63) / 64), r1 := BitVec.ofNat 32 b }
        status := okStatus s.status }) ∧
    ((∀ sels, VerifierParses s.mem 40 sels → 32 * s.len < 40 + verifierBits sels) →
      exec .axRdVer s = .next { s with
        cur := if s.len < 2 then ⟨1, 8, s.len⟩ else ⟨s.len, 0, s.len⟩, status := errStatus 4 })

/-- R151, R152: the two words of `AX_MKVER`, the formula applied as written; the buffer is not changed. -/
def Obligations.VerifierSynthesis : Prop :=
  ∀ s : State, exec .axMkVer s = .next { s with
    res := { s.res with
      r0 := (s.op.r0 <<< 15) ||| ((s.op.r2.extractLsb' 0 15).setWidth 32)
      r1 := ((s.op.r3.extractLsb' 0 4).setWidth 32 <<< 28) ||| 0x00800000#32 |||
              ((if (pairsOf s.buffer).any (fun p => p.1 >>> 25 == 0x62#32) then 1#32 else 0#32) <<< 27) |||
              (s.op.r1 <<< 24) }
    status := okStatus s.status }

/-- R154: whatever its operands, a verifier made by `AX_MKVER` reads back as one line and one bit. -/
def Obligations.MadeVerifierReadsBack : Prop :=
  ∀ s t u : State, exec .axMkVer s = .next t → 2 ≤ u.len → u.memRead 0 = t.res.r0 → u.memRead 1 = t.res.r1 →
    exec .axRdVer u = .next { u with
      cur := ⟨1, 9, u.len⟩, res := { u.res with r0 := 1, r1 := 1 }, status := okStatus u.status }

/-- R67, R155, R156, R157: a line's text is the one that alphabet, packing, parity bit and layout give it, and a string
decodes to a line exactly when it is that text; so a line's text is 15 characters with dashes at positions 4 and 9 and decodes
to the line, and a text that decodes is the text of the line it decodes to. -/
def Obligations.TextFormatRoundTrip : Prop :=
  (∀ (x : Pair) (cs : List Char), encodeText x = cs ↔ TextOfLine x cs) ∧
  (∀ (cs : List Char) (x : Pair), decodeText cs = some x ↔ TextOfLine x cs) ∧
  (∀ x : Pair, (encodeText x).length = 15 ∧ (encodeText x)[4]? = some '-' ∧ (encodeText x)[9]? = some '-' ∧
    decodeText (encodeText x) = some x) ∧
  (∀ (cs : List Char) (x : Pair), decodeText cs = some x → encodeText x = cs)

/-! ## GS3+ -/

/-- R167, R168, R171. -/
def Obligations.SeedAndGeneratorCommands : Prop :=
  ∀ s : State,
    (∀ seeds : Seeds, seeds = ⟨s.op.r0.extractLsb' 0 16, s.op.r1.extractLsb' 0 16, s.op.r2.extractLsb' 0 16⟩ →
      exec .gs3SetSeeds s = .next { s with
        gs3s := seeds, tbl := (buildTables Config.gs3 seeds).1, rng := (buildTables Config.gs3 seeds).2
        status := okStatus s.status }) ∧
    exec .gs3RngSeed s = .next { s with rng := Config.gs3.rngSeed s.op.r0, status := okStatus s.status } ∧
    exec .gs3RngNext s = .next { s with
      res := { s.res with r0 := (Config.gs3.rngNext s.rng).1 }
      rng := (Config.gs3.rngNext s.rng).2, status := okStatus s.status }

/-- R22, R169, R170: whatever the generator, the shuffle and the seeds, the build gives what the pseudocode of R169 and R170
returns, and each table is a permutation and the decrypt table its inverse. What a pass draws and picks from is the form the
model gives `GS3_SHUFFLE` (log 13), and "no reseed" the form it gives `GS3_TBL_SEED` (log 12). -/
def Obligations.TablesAreInversePermutations : Prop :=
  (∀ (P : Gs3Params) (seeds : Seeds) (T : Gs3Tables) (r : Rng), buildTables P seeds = (T, r) ↔ TablesBuilt P seeds T r) ∧
  ∀ (P : Gs3Params) (seeds : Seeds) (T : Gs3Tables), T = (buildTables P seeds).1 →
    (∀ i : Fin 0x19, T.d.t0[T.e.t0[i]] = i ∧ T.e.t0[T.d.t0[i]] = i) ∧
    (∀ i : Fin 0x39, T.d.t1[T.e.t1[i]] = i ∧ T.e.t1[T.d.t1[i]] = i) ∧
    (∀ i : Fin 0x40, T.d.t2[T.e.t2[i]] = i ∧ T.e.t2[T.d.t2[i]] = i) ∧
    (∀ i : Fin 0x100, T.d.t3[T.e.t3[i]] = i ∧ T.e.t3[T.d.t3[i]] = i)

/-- R172, R173, R174, R177, R182: `GS3_DECP`, case by case. -/
def Obligations.PairDecryptCases : Prop :=
  ∀ (s : State) (k : BitVec 3) (x : Pair), k = s.op.r0.extractLsb' 25 3 → x = (s.op.r0, s.op.r1) →
    (s.gs3l = true → exec .gs3DecP s = .next { s with
      res := ⟨(Config.gs3.dec2 s.gs3k s.tbl x).1, (Config.gs3.dec2 s.gs3k s.tbl x).2,
              BitVec.ofNat 32 (2 + 4 * s.gs3k.toNat), s.res.r3⟩
      gs3l := false, status := okStatus s.status }) ∧
    (s.gs3l = false → k = 0 ∨ k = 5 ∨ k = 6 → exec .gs3DecP s = .next { s with
      res := ⟨s.op.r0, s.op.r1, BitVec.ofNat 32 (4 * k.toNat), s.res.r3⟩, status := okStatus s.status }) ∧
    (s.gs3l = false → k = 1 ∨ k = 2 → exec .gs3DecP s = .next { s with
      res := ⟨(Config.gs3.dec k s.tbl x).1, (Config.gs3.dec k s.tbl x).2, BitVec.ofNat 32 (4 * k.toNat), s.res.r3⟩
      status := okStatus s.status }) ∧
    (s.gs3l = false → k = 3 ∨ k = 4 → exec .gs3DecP s = .next { s with
      res := ⟨(Config.gs3.dec k s.tbl x).1, (Config.gs3.dec k s.tbl x).2, BitVec.ofNat 32 (4 * k.toNat), s.res.r3⟩
      gs3l := true, gs3k := k, status := okStatus s.status }) ∧
    (s.gs3l = false → k = 7 → exec .gs3DecP s = .next { s with
      res := ⟨s.op.r0, s.op.r1, 29, s.res.r3⟩
      gs3s := Config.gs3.seedsFromPair x
      tbl := (buildTables Config.gs3 (Config.gs3.seedsFromPair x)).1
      rng := (buildTables Config.gs3 (Config.gs3.seedsFromPair x)).2
      status := okStatus s.status })

/-- R172, R173, R174, R178, R182, R56: `GS3_ENCP key`, case by case. -/
def Obligations.PairEncryptCases : Prop :=
  ∀ (s : State) (key : Byte) (k : BitVec 3) (x : Pair), k = key.setWidth 3 → x = (s.op.r0, s.op.r1) →
    (7 < key.toNat → exec (.gs3EncP key) s = .next { s with status := errStatus 1 }) ∧
    (key.toNat ≤ 7 → s.gs3l = true → exec (.gs3EncP key) s = .next { s with
      res := ⟨(Config.gs3.enc2 s.gs3k s.tbl x).1, (Config.gs3.enc2 s.gs3k s.tbl x).2,
              BitVec.ofNat 32 (2 + 4 * s.gs3k.toNat), s.res.r3⟩
      gs3l := false, status := okStatus s.status }) ∧
    (s.gs3l = false → key = 0 ∨ key = 5 ∨ key = 6 → exec (.gs3EncP key) s = .next { s with
      res := ⟨s.op.r0, s.op.r1, BitVec.ofNat 32 (4 * key.toNat), s.res.r3⟩, status := okStatus s.status }) ∧
    (s.gs3l = false → key = 1 ∨ key = 2 → exec (.gs3EncP key) s = .next { s with
      res := ⟨(Config.gs3.enc k s.tbl x).1, (Config.gs3.enc k s.tbl x).2, BitVec.ofNat 32 (4 * key.toNat), s.res.r3⟩
      status := okStatus s.status }) ∧
    (s.gs3l = false → key = 3 ∨ key = 4 → exec (.gs3EncP key) s = .next { s with
      res := ⟨(Config.gs3.enc k s.tbl x).1, (Config.gs3.enc k s.tbl x).2, BitVec.ofNat 32 (4 * key.toNat), s.res.r3⟩
      gs3l := true, gs3k := k, status := okStatus s.status }) ∧
    (s.gs3l = false → key = 7 → exec (.gs3EncP key) s = .next { s with
      res := ⟨s.op.r0, s.op.r1, 29, s.res.r3⟩
      gs3s := Config.gs3.seedsFromPair x
      tbl := (buildTables Config.gs3 (Config.gs3.seedsFromPair x)).1
      rng := (buildTables Config.gs3 (Config.gs3.seedsFromPair x)).2
      status := okStatus s.status })

/-- R179, R180: the GS3+ batches as streams of pairs; the decrypt leaves refresh pairs out, the encrypt keeps every pair. -/
def Obligations.Gs3BatchesAreStreams : Prop :=
  ∀ (s : State) (key : Byte),
    (7 < key.toNat → exec (.gs3BEnc key) s = .next { s with status := errStatus 1 }) ∧
    (s.len % 2 = 1 → exec .gs3BDec s = .next { s with status := errStatus 2 } ∧
      (key.toNat ≤ 7 → exec (.gs3BEnc key) s = .next { s with status := errStatus 2 })) ∧
    (s.len % 2 = 0 → ∃ t, exec .gs3BDec s = .next t ∧ ∀ r, r = gs3DecStream (pairsOf s.buffer) s →
      t = { s.withGs3Of r.2 with
        mem := t.mem, len := 2 * r.1.length, draws := s.draws + (s.len - 2 * r.1.length)
        status := okStatus s.status } ∧
      t.buffer = wordsOf r.1 ∧ SameBytesOutside s t 0 s.len) ∧
    (s.len % 2 = 0 → key.toNat ≤ 7 → ∃ t, exec (.gs3BEnc key) s = .next t ∧
      ∀ r, r = gs3EncStream (key.setWidth 3) (pairsOf s.buffer) s →
        t = { s.withGs3Of r.2 with mem := t.mem, status := okStatus s.status } ∧
        t.buffer = wordsOf r.1 ∧ SameBytesOutside s t 0 s.len)

/-- R181: the GS3+ batch round trip for keys 0 to 4, the latch being clear at the start of each command; an odd number of
pairs under key 3 or 4 leaves it set, and one `GS3_DECP` with any operands clears it and leaves the seeds alone. In a state
whose tables no build gives it rests on the model's range for the laws of R176 (log 24). -/
def Obligations.Gs3BatchRoundTrip : Prop :=
  ∀ (s : State) (key : Byte), key.toNat ≤ 4 → s.gs3l = false → s.len % 2 = 0 →
    (∀ p ∈ pairsOf s.buffer, p.1.extractLsb' 25 3 = 0) →
    ∃ t, exec (.gs3BEnc key) s = .next t ∧
      (t.gs3l = true ↔ (key = 3 ∨ key = 4) ∧ (s.len / 2) % 2 = 1) ∧
      (∃ u, exec .gs3BDec { t with gs3l := false } = .next u ∧ u.buffer = s.buffer ∧
        u = { s with mem := u.mem, gs3l := u.gs3l, gs3k := u.gs3k, status := okStatus s.status }) ∧
      (t.gs3l = true → ∀ op, ∃ v u, exec .gs3DecP { t with op := op } = .next v ∧ v.gs3s = t.gs3s ∧
        exec .gs3BDec v = .next u ∧ u.buffer = s.buffer)

/-! ## Host programs -/

/-- R58: the transactions of `LOAD v0, ..., v(k-1)` put the values into the buffer and change nothing else. That the line may
hold no value (`k = 0`) is the model's choice (log 20). -/
def Obligations.LoadLineFillsBuffer : Prop :=
  ∀ (s : State) (vs : List Word) (rest : List Event), vs.length ≤ Config.nmax →
    s.events = programEvents [.load vs] ++ rest →
    ∃ t, Host.Core.run Sys2Proof.core (vs.length + 1) s = .next t ∧ t.buffer = vs ∧
      t = { s with events := rest, mem := t.mem, len := vs.length } ∧ SameBytesOutside s t 0 vs.length
end

