-- ==== Sys2Proof/Laws/Bits.lean ====
section
/-! SUPPORT. The small lemmas of Machine/Operands.lean. -/

namespace Sys2Proof.Machine

theorem byteOf_getLsbD (w : Word) (b i : Nat) (hi : i < 8) : (byteOf w b).getLsbD i = w.getLsbD (8 * b + i) := by
  simp [byteOf, hi]

theorem ofBytes_getLsbD (b0 b1 b2 b3 : Byte) (i : Nat) :
    (ofBytes b0 b1 b2 b3).getLsbD i =
      if i < 8 then b0.getLsbD i else if i < 16 then b1.getLsbD (i - 8) else if i < 24 then b2.getLsbD (i - 16)
      else b3.getLsbD (i - 24) := by
  simp only [ofBytes, BitVec.getLsbD_append]
  by_cases h1 : i < 8
  · simp [h1]
  · by_cases h2 : i < 16
    · have : i - 8 < 8 := by omega
      simp [h1, h2, this]
    · by_cases h3 : i < 24
      · have e1 : ¬ i - 8 < 8 := by omega
        have e2 : i - 8 - 8 < 8 := by omega
        have e3 : i - 8 - 8 = i - 16 := by omega
        rw [if_neg h1, if_neg e1, if_pos e2, if_neg h1, if_neg h2, if_pos h3, e3]
      · have e1 : ¬ i - 8 < 8 := by omega
        have e2 : ¬ i - 8 - 8 < 8 := by omega
        have e3 : i - 8 - 8 - 8 = i - 24 := by omega
        simp [h1, h2, h3, e1, e2, e3]

@[simp] theorem byteOf_ofBytes_zero (b0 b1 b2 b3 : Byte) : byteOf (ofBytes b0 b1 b2 b3) 0 = b0 := by
  apply BitVec.eq_of_getLsbD_eq
  intro i hi
  rw [byteOf_getLsbD _ _ _ hi, ofBytes_getLsbD]
  simp [hi]

@[simp] theorem byteOf_ofBytes_one (b0 b1 b2 b3 : Byte) : byteOf (ofBytes b0 b1 b2 b3) 1 = b1 := by
  apply BitVec.eq_of_getLsbD_eq
  intro i hi
  rw [byteOf_getLsbD _ _ _ hi, ofBytes_getLsbD]
  have e : ¬ (8 * 1 + i < 8) := by omega
  have e2 : 8 * 1 + i < 16 := by omega
  rw [if_neg e, if_pos e2]
  congr 1; omega

@[simp] theorem byteOf_ofBytes_two (b0 b1 b2 b3 : Byte) : byteOf (ofBytes b0 b1 b2 b3) 2 = b2 := by
  apply BitVec.eq_of_getLsbD_eq
  intro i hi
  rw [byteOf_getLsbD _ _ _ hi, ofBytes_getLsbD]
  rw [if_neg (by omega), if_neg (by omega), if_pos (by omega)]
  congr 1; omega

@[simp] theorem byteOf_ofBytes_three (b0 b1 b2 b3 : Byte) : byteOf (ofBytes b0 b1 b2 b3) 3 = b3 := by
  apply BitVec.eq_of_getLsbD_eq
  intro i hi
  rw [byteOf_getLsbD _ _ _ hi, ofBytes_getLsbD]
  rw [if_neg (by omega), if_neg (by omega), if_neg (by omega)]
  congr 1; omega

/-- A word is its four bytes. -/
@[simp] theorem ofBytes_byteOf (w : Word) : ofBytes (byteOf w 0) (byteOf w 1) (byteOf w 2) (byteOf w 3) = w := by
  apply BitVec.eq_of_getLsbD_eq
  intro i hi
  rw [ofBytes_getLsbD]
  split
  · rw [byteOf_getLsbD _ _ _ (by omega)]; congr 1; omega
  · split
    · rw [byteOf_getLsbD _ _ _ (by omega)]; congr 1; omega
    · split
      · rw [byteOf_getLsbD _ _ _ (by omega)]; congr 1; omega
      · rw [byteOf_getLsbD _ _ _ (by omega)]; congr 1; omega

/-- `bswap32` is its own inverse (R139). -/
@[simp] theorem bswap32_bswap32 (x : Word) : bswap32 (bswap32 x) = x := by
  simp [bswap32]

/-- `nswap8` is its own inverse (R97). -/
@[simp] theorem nswap8_nswap8 (b : Byte) : nswap8 (nswap8 b) = b := by
  apply BitVec.eq_of_getLsbD_eq
  intro i hi
  simp only [nswap8, BitVec.getLsbD_append, BitVec.getLsbD_extractLsb']
  interval_cases i <;> simp

theorem rotl32_getLsbD (x : Word) (n i : Nat) (hi : i < 32) (hn : n < 32) :
    (rotl32 x n).getLsbD i = if n ≤ i then x.getLsbD (i - n) else x.getLsbD (32 - n + i) := by
  by_cases h : n ≤ i
  · have : ¬ i < n := by omega
    have hz : x.getLsbD (32 - n + i) = false := BitVec.getLsbD_of_ge _ _ (by omega)
    simp only [rotl32, BitVec.getLsbD_or, BitVec.getLsbD_shiftLeft, BitVec.getLsbD_ushiftRight, hz, hi, h, this]
    simp
  · have : i < n := by omega
    simp only [rotl32, BitVec.getLsbD_or, BitVec.getLsbD_shiftLeft, BitVec.getLsbD_ushiftRight, hi, h, this]
    simp

/-- Rotating left and then right by the same amount changes nothing. -/
@[simp] theorem rotr32_rotl32 (x : Word) (n : Nat) (h0 : 0 < n) (hn : n < 32) : rotr32 (rotl32 x n) n = x := by
  apply BitVec.eq_of_getLsbD_eq
  intro i hi
  rw [rotr32, rotl32_getLsbD _ _ _ hi (by omega)]
  split
  · rw [rotl32_getLsbD _ _ _ (by omega) hn]; split
    · omega
    · congr 1; omega
  · rw [rotl32_getLsbD _ _ _ (by omega) hn]; split
    · congr 1; omega
    · omega

/-- Rotating right and then left by the same amount changes nothing. -/
@[simp] theorem rotl32_rotr32 (x : Word) (n : Nat) (h0 : 0 < n) (hn : n < 32) : rotl32 (rotr32 x n) n = x := by
  have h := rotr32_rotl32 x (32 - n) (by omega) (by omega)
  simp only [rotr32] at h ⊢
  rwa [Nat.sub_sub_self (by omega)] at h

@[simp] theorem nibbleSlot_withNibble (w : Word) (n : BitVec 4) : nibbleSlot (withNibble w n) = n := by
  apply BitVec.eq_of_getLsbD_eq
  intro i hi
  simp only [nibbleSlot, withNibble, BitVec.getLsbD_extractLsb', BitVec.getLsbD_append]
  have : ¬ 28 + i < 28 := by omega
  simp [hi, this]

@[simp] theorem withNibble_withNibble (w : Word) (n n' : BitVec 4) : withNibble (withNibble w n) n' = withNibble w n' := by
  apply BitVec.eq_of_getLsbD_eq
  intro i hi
  simp only [withNibble, BitVec.getLsbD_extractLsb', BitVec.getLsbD_append]
  by_cases h : i < 28 <;> simp [h]

@[simp] theorem withNibble_nibbleSlot (w : Word) : withNibble w (nibbleSlot w) = w := by
  apply BitVec.eq_of_getLsbD_eq
  intro i hi
  simp only [nibbleSlot, withNibble, BitVec.getLsbD_extractLsb', BitVec.getLsbD_append]
  by_cases h : i < 28
  · simp [h]
  · have e : i - 28 < 4 := by omega
    have e2 : 28 + (i - 28) = i := by omega
    simp [h, e, e2]

/-- `ceilDiv a b` is the least `q` with `q * b >= a` (R8). -/
theorem ceilDiv_le_iff (a b q : Nat) (hb : 0 < b) : ceilDiv a b ≤ q ↔ a ≤ q * b := by
  unfold ceilDiv
  rw [← Nat.lt_succ_iff, Nat.div_lt_iff_lt_mul hb, Nat.succ_mul]
  omega

/-- The key field the laws of R176 speak of is the command key (R66). -/
theorem pairKey_eq_commandKey (x : Pair) : pairKey x = commandKey x.1 := rfl

/-- The rotations of R8 are those of bit vectors. -/
theorem rotl32_eq_rotateLeft (x : Word) (n : Nat) (hn : n < 32) : rotl32 x n = x.rotateLeft n := by
  simp [rotl32, BitVec.rotateLeft, BitVec.rotateLeftAux, Nat.mod_eq_of_lt hn]

theorem rotr32_eq_rotateRight (x : Word) (n : Nat) (hn : n < 32) : rotr32 x n = x.rotateRight n := by
  simp only [rotr32, rotl32, BitVec.rotateRight, BitVec.rotateRightAux, Nat.mod_eq_of_lt hn]
  rw [show 32 - (32 - n) = n by omega, BitVec.or_comm]

/-- Six bits of a word by shift and mask, as R121 writes an index into `ARMAX_SP`. -/
theorem sixBits_eq_extract (y : Word) (k : Nat) : ((y >>> k) &&& 63#32).setWidth 6 = y.extractLsb' k 6 := by
  apply BitVec.eq_of_getLsbD_eq
  intro i hi
  simp only [BitVec.getLsbD_setWidth, BitVec.getLsbD_and, BitVec.getLsbD_ushiftRight, BitVec.getLsbD_extractLsb']
  interval_cases i <;> simp [hi]

end Sys2Proof.Machine
end

