-- ==== Sys2Proof/Laws/Memory.lean ====
section
/-! SUPPORT. The laws of the storage: read after write, the canonical form, and what each buffer loop does. -/

namespace Sys2Proof.Machine

/-! ## Cells -/

theorem lookupCell_insertCell_same (a : Nat) (b : Byte) (cs : List Host.Cell) :
    lookupCell a (insertCell a b cs) = some b := by
  induction cs with
  | nil => simp [insertCell, lookupCell]
  | cons x rest ih =>
    obtain ⟨c, v⟩ := x
    simp only [insertCell]
    split
    · simp [lookupCell]
    · split
      · simp [lookupCell]
      · have : c ≠ a := fun h => by omega
        simp [lookupCell, this, ih]

theorem lookupCell_insertCell_ne {a a' : Nat} (h : a' ≠ a) (b : Byte) (cs : List Host.Cell) :
    lookupCell a' (insertCell a b cs) = lookupCell a' cs := by
  induction cs with
  | nil => simp [insertCell, lookupCell, h.symm]
  | cons x rest ih =>
    obtain ⟨c, v⟩ := x
    simp only [insertCell]
    split
    · simp [lookupCell, h.symm]
    · split
      · next hc => subst hc; simp [lookupCell, h.symm]
      · simp [lookupCell, ih]

theorem risingCells_cons (a : Nat) (v : Byte) (cs : List Host.Cell) :
    risingCells ((a, v) :: cs) = true ↔ (∀ x ∈ cs.head?, a < x.1) ∧ risingCells cs = true := by
  cases cs with
  | nil => simp [risingCells]
  | cons y rest => obtain ⟨b, w⟩ := y; simp [risingCells]

theorem head_insertCell (a : Nat) (b : Byte) (cs : List Host.Cell) (x : Host.Cell) (hx : x ∈ (insertCell a b cs).head?) :
    x.1 = a ∨ x ∈ cs.head? := by
  cases cs with
  | nil => simp [insertCell] at hx; simp [← hx]
  | cons y rest =>
    obtain ⟨c, v⟩ := y
    simp only [insertCell] at hx
    split at hx
    · simp at hx; simp [← hx]
    · split at hx
      · simp at hx; simp [← hx]
      · right; simpa using hx

/-- A write keeps the canonical form. -/
theorem risingCells_insertCell (a : Nat) (b : Byte) (cs : List Host.Cell) (h : risingCells cs = true) :
    risingCells (insertCell a b cs) = true := by
  induction cs with
  | nil => simp [insertCell, risingCells]
  | cons y rest ih =>
    obtain ⟨c, v⟩ := y
    have hr := (risingCells_cons c v rest).1 h
    simp only [insertCell]
    split
    · next hac => rw [risingCells_cons]; exact ⟨by simpa using hac, h⟩
    · split
      · next hac => subst hac; rw [risingCells_cons]; exact hr
      · rw [risingCells_cons]
        refine ⟨fun x hx => ?_, ih hr.2⟩
        rcases head_insertCell a b rest x hx with h1 | h1
        · omega
        · exact hr.1 x h1

theorem mem_insertCell (a : Nat) (b : Byte) (cs : List Host.Cell) (x : Host.Cell) (hx : x ∈ insertCell a b cs) :
    x.1 = a ∨ x ∈ cs := by
  induction cs with
  | nil => simp [insertCell] at hx; simp [hx]
  | cons y rest ih =>
    obtain ⟨c, v⟩ := y
    simp only [insertCell] at hx
    split at hx
    · simp only [List.mem_cons] at hx ⊢
      rcases hx with rfl | h | h <;> simp_all
    · split at hx
      · simp only [List.mem_cons] at hx ⊢
        rcases hx with rfl | h <;> simp_all
      · simp only [List.mem_cons] at hx ⊢
        rcases hx with h | h
        · exact .inr (.inl h)
        · rcases ih h with h | h <;> simp [h]

/-! ## Bytes -/

@[simp] theorem Memory.readByte_writeByte_same (m : Memory) (a : Nat) (b : Byte) : (m.writeByte a b).readByte a = b := by
  simp [Memory.readByte, Memory.writeByte, lookupCell_insertCell_same]

theorem Memory.readByte_writeByte_ne (m : Memory) {a a' : Nat} (b : Byte) (h : a' ≠ a) :
    (m.writeByte a b).readByte a' = m.readByte a' := by
  simp [Memory.readByte, Memory.writeByte, lookupCell_insertCell_ne h, Memory.unlisted]

theorem Memory.readByte_writeByte (m : Memory) (a a' : Nat) (b : Byte) :
    (m.writeByte a b).readByte a' = if a' = a then b else m.readByte a' := by
  split
  · next h => subst h; simp
  · next h => exact Memory.readByte_writeByte_ne m b h

@[simp] theorem Memory.epoch_writeByte (m : Memory) (a : Nat) (b : Byte) : (m.writeByte a b).epoch = m.epoch := rfl

theorem Memory.wf_writeByte (m : Memory) (a : Nat) (b : Byte) (h : m.wf = true) : (m.writeByte a b).wf = true :=
  risingCells_insertCell a b m.cells h

/-! ## Words -/

/-- The bytes `MEM[i]` occupies. -/
def inWord (i a : Nat) : Prop := wordAddress i ≤ a ∧ a < wordAddress i + 4

/-- A word write leaves every byte outside the word as it was. -/
theorem Memory.readByte_writeWord (m : Memory) (i : Nat) (v : Word) (a : Nat) (h : a < wordAddress i ∨ wordAddress i + 4 ≤ a) :
    (m.writeWord i v).readByte a = m.readByte a := by
  simp only [Memory.writeWord]
  rw [Memory.readByte_writeByte_ne _ _ (by omega), Memory.readByte_writeByte_ne _ _ (by omega),
    Memory.readByte_writeByte_ne _ _ (by omega), Memory.readByte_writeByte_ne _ _ (by omega)]

/-- Two storages with the same bytes in a word read the same word. -/
theorem Memory.readWord_congr {m m' : Memory} {i : Nat}
    (h : ∀ a, wordAddress i ≤ a → a < wordAddress i + 4 → m'.readByte a = m.readByte a) : m'.readWord i = m.readWord i := by
  simp only [Memory.readWord]
  rw [h _ (by omega) (by omega), h _ (by omega) (by omega), h _ (by omega) (by omega), h _ (by omega) (by omega)]

@[simp] theorem Memory.readWord_writeWord_same (m : Memory) (i : Nat) (v : Word) : (m.writeWord i v).readWord i = v := by
  simp [Memory.readWord, Memory.writeWord, Memory.readByte_writeByte]

theorem Memory.readWord_writeWord_ne (m : Memory) {i j : Nat} (v : Word) (h : j ≠ i) :
    (m.writeWord i v).readWord j = m.readWord j :=
  Memory.readWord_congr fun a h1 h2 => Memory.readByte_writeWord m i v a (by simp only [wordAddress] at *; omega)

theorem Memory.readWord_writeWord (m : Memory) (i j : Nat) (v : Word) :
    (m.writeWord i v).readWord j = if j = i then v else m.readWord j := by
  split
  · next h => subst h; simp
  · next h => exact Memory.readWord_writeWord_ne m v h

@[simp] theorem Memory.epoch_writeWord (m : Memory) (i : Nat) (v : Word) : (m.writeWord i v).epoch = m.epoch := rfl

theorem Memory.wf_writeWord (m : Memory) (i : Nat) (v : Word) (h : m.wf = true) : (m.writeWord i v).wf = true :=
  Memory.wf_writeByte _ _ _ (Memory.wf_writeByte _ _ _ (Memory.wf_writeByte _ _ _ (Memory.wf_writeByte _ _ _ h)))

theorem Memory.cells_writeWord (m : Memory) (i : Nat) (v : Word) (x : Host.Cell) (hx : x ∈ (m.writeWord i v).cells) :
    (wordAddress i ≤ x.1 ∧ x.1 < wordAddress i + 4) ∨ x ∈ m.cells := by
  rcases mem_insertCell _ _ _ _ hx with h | hx
  · left; omega
  rcases mem_insertCell _ _ _ _ hx with h | hx
  · left; omega
  rcases mem_insertCell _ _ _ _ hx with h | hx
  · left; omega
  rcases mem_insertCell _ _ _ _ hx with h | hx
  · left; omega
  · exact .inr hx

/-- What a loop that writes only the words `lo .. hi-1` leaves alone: every byte outside them, the epoch; and the
canonical form and the window it keeps. -/
structure Memory.Touches (m m' : Memory) (lo hi : Nat) : Prop where
  epoch : m'.epoch = m.epoch
  byte : ∀ a, (a < wordAddress lo ∨ wordAddress hi ≤ a) → m'.readByte a = m.readByte a
  wf : m.wf = true → m'.wf = true
  cells : ∀ x ∈ m'.cells, (wordAddress lo ≤ x.1 ∧ x.1 < wordAddress hi) ∨ x ∈ m.cells

theorem Memory.Touches.refl (m : Memory) (lo hi : Nat) : m.Touches m lo hi :=
  ⟨rfl, fun _ _ => rfl, id, fun _ h => .inr h⟩

theorem Memory.Touches.trans {m m' m'' : Memory} {lo hi : Nat} (h : m.Touches m' lo hi) (h' : m'.Touches m'' lo hi) :
    m.Touches m'' lo hi :=
  ⟨h'.epoch.trans h.epoch, fun a ha => (h'.byte a ha).trans (h.byte a ha), h'.wf ∘ h.wf,
    fun x hx => (h'.cells x hx).elim .inl (h.cells x)⟩

theorem Memory.Touches.mono {m m' : Memory} {lo hi lo' hi' : Nat} (h : m.Touches m' lo hi) (hl : lo' ≤ lo) (hh : hi ≤ hi') :
    m.Touches m' lo' hi' :=
  ⟨h.epoch, fun a ha => h.byte a (by simp only [wordAddress] at *; omega), h.wf,
    fun x hx => (h.cells x hx).imp (fun h => by simp only [wordAddress] at *; omega) id⟩

theorem Memory.Touches.word {m m' : Memory} {lo hi i : Nat} (h : m.Touches m' lo hi) (hi' : i < lo ∨ hi ≤ i) :
    m'.readWord i = m.readWord i :=
  Memory.readWord_congr fun a h1 h2 => h.byte a (by simp only [wordAddress] at *; omega)

theorem Memory.touches_writeWord (m : Memory) {i lo hi : Nat} (v : Word) (hl : lo ≤ i) (hh : i < hi) :
    m.Touches (m.writeWord i v) lo hi :=
  ⟨rfl, fun a ha => Memory.readByte_writeWord m i v a (by simp only [wordAddress] at *; omega), Memory.wf_writeWord m i v,
    fun x hx => (Memory.cells_writeWord m i v x hx).imp (fun h => by simp only [wordAddress] at *; omega) id⟩

/-! ## The words of the buffer as a list -/

@[simp] theorem Memory.words_length (m : Memory) (i n : Nat) : (m.words i n).length = n := by
  induction n generalizing i with
  | zero => rfl
  | succ n ih => simp [Memory.words, ih]

theorem Memory.words_getElem (m : Memory) (i n k : Nat) (hk : k < (m.words i n).length) :
    (m.words i n)[k] = m.readWord (i + k) := by
  induction n generalizing i k with
  | zero => simp [Memory.words] at hk
  | succ n ih =>
    cases k with
    | zero => simp [Memory.words]
    | succ k =>
      simp only [Memory.words, List.getElem_cons_succ]
      rw [ih]; congr 1; omega

/-- A list of words is the storage's words when each entry is. -/
theorem Memory.words_eq (m : Memory) (i : Nat) (ws : List Word)
    (h : ∀ k (hk : k < ws.length), m.readWord (i + k) = ws[k]) : m.words i ws.length = ws := by
  apply List.ext_getElem (by simp)
  intro k h1 h2
  rw [Memory.words_getElem, h k h2]

theorem Memory.words_congr {m m' : Memory} {i n : Nat} (h : ∀ k, i ≤ k → k < i + n → m'.readWord k = m.readWord k) :
    m'.words i n = m.words i n := by
  apply List.ext_getElem (by simp)
  intro k h1 h2
  rw [Memory.words_getElem, Memory.words_getElem]
  simp only [Memory.words_length] at h1
  exact h _ (by omega) (by omega)

theorem Memory.words_append (m : Memory) (i n k : Nat) : m.words i (n + k) = m.words i n ++ m.words (i + n) k := by
  induction n generalizing i with
  | zero => simp [Memory.words]
  | succ n ih =>
    rw [Nat.succ_add]
    simp only [Memory.words, List.cons_append, ih]
    congr 3; omega

theorem Memory.Touches.words {m m' : Memory} {lo hi i n : Nat} (h : m.Touches m' lo hi) (hd : i + n ≤ lo ∨ hi ≤ i) :
    m'.words i n = m.words i n :=
  Memory.words_congr fun k h1 h2 => h.word (by omega)

/-! ## Loops -/

theorem Memory.touches_mapWords (f : Word → Word) (n i : Nat) (m : Memory) : m.Touches (m.mapWords f n i) i (i + n) := by
  induction n generalizing i m with
  | zero => exact .refl ..
  | succ n ih =>
    exact (Memory.touches_writeWord m _ (Nat.le_refl i) (by omega)).trans ((ih (i + 1) _).mono (by omega) (by omega))

theorem Memory.words_mapWords (f : Word → Word) (n i : Nat) (m : Memory) :
    (m.mapWords f n i).words i n = (m.words i n).map f := by
  induction n generalizing i m with
  | zero => rfl
  | succ n ih =>
    simp only [Memory.mapWords, Memory.words, List.map_cons, ih]
    congr 1
    · rw [(Memory.touches_mapWords f n (i + 1) _).word (by omega)]; simp
    · rw [Memory.words_congr fun k h1 h2 => Memory.readWord_writeWord_ne m _ (by omega)]

theorem Memory.touches_mapPairs (f : Pair → Pair) (n i : Nat) (m : Memory) :
    m.Touches (m.mapPairs f n i) i (i + 2 * n) := by
  induction n generalizing i m with
  | zero => exact .refl ..
  | succ n ih =>
    refine ((Memory.touches_writeWord m _ (Nat.le_refl i) (by omega)).trans
      (Memory.touches_writeWord _ _ (by omega) (by omega))).trans ((ih (i + 2) _).mono (by omega) (by omega))

@[simp] theorem pairsOf_wordsOf (ps : List Pair) : pairsOf (wordsOf ps) = ps := by
  induction ps with
  | nil => rfl
  | cons p ps ih => simp [wordsOf, pairsOf, ih]

@[simp] theorem wordsOf_length (ps : List Pair) : (wordsOf ps).length = 2 * ps.length := by
  induction ps with
  | nil => rfl
  | cons p ps ih => simp only [wordsOf, List.length_cons, ih]; omega

theorem wordsOf_append (ps qs : List Pair) : wordsOf (ps ++ qs) = wordsOf ps ++ wordsOf qs := by
  induction ps with
  | nil => rfl
  | cons p ps ih => simp [wordsOf, ih]

/-- The `n` pairs of the storage from word index `i` on. -/
def Memory.pairs (m : Memory) : (i n : Nat) → List Pair
  | _, 0 => []
  | i, n + 1 => (m.readWord i, m.readWord (i + 1)) :: Memory.pairs m (i + 2) n

@[simp] theorem Memory.pairs_length (m : Memory) (i n : Nat) : (m.pairs i n).length = n := by
  induction n generalizing i with
  | zero => rfl
  | succ n ih => simp [Memory.pairs, ih]

theorem Memory.words_eq_wordsOf_pairs (m : Memory) (i n : Nat) : m.words i (2 * n) = wordsOf (m.pairs i n) := by
  induction n generalizing i with
  | zero => rfl
  | succ n ih =>
    rw [Nat.mul_succ]
    simp only [Memory.words, Memory.pairs, wordsOf, ih]

theorem Memory.pairs_eq_pairsOf_words (m : Memory) (i n : Nat) : pairsOf (m.words i (2 * n)) = m.pairs i n := by
  rw [Memory.words_eq_wordsOf_pairs, pairsOf_wordsOf]

theorem Memory.pairs_congr {m m' : Memory} {i n : Nat} (h : ∀ k, i ≤ k → k < i + 2 * n → m'.readWord k = m.readWord k) :
    m'.pairs i n = m.pairs i n := by
  rw [← Memory.pairs_eq_pairsOf_words, ← Memory.pairs_eq_pairsOf_words, Memory.words_congr h]

theorem Memory.pairs_mapPairs (f : Pair → Pair) (n i : Nat) (m : Memory) :
    (m.mapPairs f n i).pairs i n = (m.pairs i n).map f := by
  induction n generalizing i m with
  | zero => rfl
  | succ n ih =>
    simp only [Memory.mapPairs, Memory.pairs, List.map_cons, ih]
    congr 1
    · rw [(Memory.touches_mapPairs f n (i + 2) _).word (by omega), (Memory.touches_mapPairs f n (i + 2) _).word (by omega)]
      rw [Memory.readWord_writeWord_ne _ _ (by omega)]; simp
    · refine congrArg _ (Memory.pairs_congr fun k h1 h2 => ?_)
      rw [Memory.readWord_writeWord_ne _ _ (by omega), Memory.readWord_writeWord_ne _ _ (by omega)]

theorem Memory.touches_copyDown (n src dst : Nat) (m : Memory) : m.Touches (m.copyDown n src dst) dst (dst + n) := by
  induction n generalizing src dst m with
  | zero => exact .refl ..
  | succ n ih =>
    exact (Memory.touches_writeWord m _ (Nat.le_refl dst) (by omega)).trans ((ih _ (dst + 1) _).mono (by omega) (by omega))

/-- The copy loop moves the words down when the source lies above the destination (R86). -/
theorem Memory.words_copyDown (n src dst : Nat) (m : Memory) (h : dst < src) :
    (m.copyDown n src dst).words dst n = m.words src n := by
  induction n generalizing src dst m with
  | zero => rfl
  | succ n ih =>
    simp only [Memory.copyDown, Memory.words]
    rw [ih _ _ _ (by omega), (Memory.touches_copyDown n _ (dst + 1) _).word (by omega)]
    congr 1
    · simp
    · exact Memory.words_congr fun k h1 h2 => Memory.readWord_writeWord_ne m _ (by omega)

theorem Memory.touches_shiftUp (n : Nat) (m : Memory) : m.Touches (m.shiftUp n) 1 (n + 1) := by
  induction n generalizing m with
  | zero => exact .refl ..
  | succ n ih =>
    exact (Memory.touches_writeWord m _ (by omega) (by omega)).trans ((ih _).mono (by omega) (by omega))

/-- The copy loop of `BUF_PREPEND` moves the first `n` words up by one (R84). -/
theorem Memory.words_shiftUp (n : Nat) (m : Memory) : (m.shiftUp n).words 1 n = m.words 0 n := by
  induction n generalizing m with
  | zero => rfl
  | succ n ih =>
    rw [Memory.words_append _ 1 n 1, Memory.words_append _ 0 n 1]
    simp only [Memory.shiftUp]
    rw [ih]
    congr 1
    · exact Memory.words_congr fun k h1 h2 => Memory.readWord_writeWord_ne m _ (by omega)
    · simp only [Memory.words]
      rw [(Memory.touches_shiftUp n _).word (by omega)]
      simp [Nat.add_comm]

theorem Memory.touches_setNibble (m : Memory) (n : BitVec 4) {hi : Nat} (h : 0 < hi) : m.Touches (m.setNibble n) 0 hi :=
  Memory.touches_writeWord m _ (Nat.le_refl 0) h

@[simp] theorem Memory.readWord_setNibble_zero (m : Memory) (n : BitVec 4) :
    (m.setNibble n).readWord 0 = withNibble (m.readWord 0) n := by
  simp [Memory.setNibble]

theorem Memory.readWord_setNibble_ne (m : Memory) (n : BitVec 4) {i : Nat} (h : i ≠ 0) :
    (m.setNibble n).readWord i = m.readWord i := Memory.readWord_writeWord_ne m _ h

theorem Memory.words_setNibble (m : Memory) (n : BitVec 4) (len : Nat) :
    (m.setNibble n).words 0 len = setFirstNibble n (m.words 0 len) := by
  cases len with
  | zero => rfl
  | succ len =>
    simp only [Memory.words, setFirstNibble, Memory.readWord_setNibble_zero]
    rw [Memory.words_congr fun k h1 h2 => Memory.readWord_setNibble_ne m n (by omega)]

end Sys2Proof.Machine
end

