-- ==== Sys2Proof/Laws/State.lean ====
section
/-! SUPPORT. One lemma per field per state update, so that no proof unfolds a record update, and how a command's end writes
`STATUS`. -/

namespace Sys2Proof.Machine

@[simp] theorem State.finish_eq (s : State) : s.finish = s.endWith .ok := rfl
@[simp] theorem State.raise_eq (s : State) (c : Code) : s.raise c = s.endWith c := rfl

/-! ### memWrite -/

@[simp] theorem State.memWrite_op (s : State) (i : Nat) (v : Word) : (s.memWrite i v).op = s.op := rfl
@[simp] theorem State.memWrite_res (s : State) (i : Nat) (v : Word) : (s.memWrite i v).res = s.res := rfl
@[simp] theorem State.memWrite_cmd (s : State) (i : Nat) (v : Word) : (s.memWrite i v).cmd = s.cmd := rfl
@[simp] theorem State.memWrite_status (s : State) (i : Nat) (v : Word) : (s.memWrite i v).status = s.status := rfl
@[simp] theorem State.memWrite_seed (s : State) (i : Nat) (v : Word) : (s.memWrite i v).seed = s.seed := rfl
@[simp] theorem State.memWrite_schedE (s : State) (i : Nat) (v : Word) : (s.memWrite i v).schedE = s.schedE := rfl
@[simp] theorem State.memWrite_schedD (s : State) (i : Nat) (v : Word) : (s.memWrite i v).schedD = s.schedD := rfl
@[simp] theorem State.memWrite_gs3s (s : State) (i : Nat) (v : Word) : (s.memWrite i v).gs3s = s.gs3s := rfl
@[simp] theorem State.memWrite_tbl (s : State) (i : Nat) (v : Word) : (s.memWrite i v).tbl = s.tbl := rfl
@[simp] theorem State.memWrite_gs3l (s : State) (i : Nat) (v : Word) : (s.memWrite i v).gs3l = s.gs3l := rfl
@[simp] theorem State.memWrite_gs3k (s : State) (i : Nat) (v : Word) : (s.memWrite i v).gs3k = s.gs3k := rfl
@[simp] theorem State.memWrite_rng (s : State) (i : Nat) (v : Word) : (s.memWrite i v).rng = s.rng := rfl
@[simp] theorem State.memWrite_cur (s : State) (i : Nat) (v : Word) : (s.memWrite i v).cur = s.cur := rfl
@[simp] theorem State.memWrite_len (s : State) (i : Nat) (v : Word) : (s.memWrite i v).len = s.len := rfl
@[simp] theorem State.memWrite_mem (s : State) (i : Nat) (v : Word) : (s.memWrite i v).mem = s.mem.writeWord i v :=
    rfl
@[simp] theorem State.memWrite_draws (s : State) (i : Nat) (v : Word) : (s.memWrite i v).draws = s.draws := rfl
@[simp] theorem State.memWrite_events (s : State) (i : Nat) (v : Word) : (s.memWrite i v).events = s.events := rfl
@[simp] theorem State.memWrite_replies (s : State) (i : Nat) (v : Word) : (s.memWrite i v).replies = s.replies := rfl

/-! ### setLen -/

@[simp] theorem State.setLen_op (s : State) (n : Nat) : (s.setLen n).op = s.op := rfl
@[simp] theorem State.setLen_res (s : State) (n : Nat) : (s.setLen n).res = s.res := rfl
@[simp] theorem State.setLen_cmd (s : State) (n : Nat) : (s.setLen n).cmd = s.cmd := rfl
@[simp] theorem State.setLen_status (s : State) (n : Nat) : (s.setLen n).status = s.status := rfl
@[simp] theorem State.setLen_seed (s : State) (n : Nat) : (s.setLen n).seed = s.seed := rfl
@[simp] theorem State.setLen_schedE (s : State) (n : Nat) : (s.setLen n).schedE = s.schedE := rfl
@[simp] theorem State.setLen_schedD (s : State) (n : Nat) : (s.setLen n).schedD = s.schedD := rfl
@[simp] theorem State.setLen_gs3s (s : State) (n : Nat) : (s.setLen n).gs3s = s.gs3s := rfl
@[simp] theorem State.setLen_tbl (s : State) (n : Nat) : (s.setLen n).tbl = s.tbl := rfl
@[simp] theorem State.setLen_gs3l (s : State) (n : Nat) : (s.setLen n).gs3l = s.gs3l := rfl
@[simp] theorem State.setLen_gs3k (s : State) (n : Nat) : (s.setLen n).gs3k = s.gs3k := rfl
@[simp] theorem State.setLen_rng (s : State) (n : Nat) : (s.setLen n).rng = s.rng := rfl
@[simp] theorem State.setLen_cur (s : State) (n : Nat) : (s.setLen n).cur = s.cur := rfl
@[simp] theorem State.setLen_len (s : State) (n : Nat) : (s.setLen n).len = n := rfl
@[simp] theorem State.setLen_mem (s : State) (n : Nat) : (s.setLen n).mem = s.mem := rfl
@[simp] theorem State.setLen_draws (s : State) (n : Nat) : (s.setLen n).draws = s.draws := rfl
@[simp] theorem State.setLen_events (s : State) (n : Nat) : (s.setLen n).events = s.events := rfl
@[simp] theorem State.setLen_replies (s : State) (n : Nat) : (s.setLen n).replies = s.replies := rfl

/-! ### setRes0 -/

@[simp] theorem State.setRes0_op (s : State) (v : Word) : (s.setRes0 v).op = s.op := rfl
@[simp] theorem State.setRes0_res (s : State) (v : Word) : (s.setRes0 v).res = { s.res with r0 := v } := rfl
@[simp] theorem State.setRes0_cmd (s : State) (v : Word) : (s.setRes0 v).cmd = s.cmd := rfl
@[simp] theorem State.setRes0_status (s : State) (v : Word) : (s.setRes0 v).status = s.status := rfl
@[simp] theorem State.setRes0_seed (s : State) (v : Word) : (s.setRes0 v).seed = s.seed := rfl
@[simp] theorem State.setRes0_schedE (s : State) (v : Word) : (s.setRes0 v).schedE = s.schedE := rfl
@[simp] theorem State.setRes0_schedD (s : State) (v : Word) : (s.setRes0 v).schedD = s.schedD := rfl
@[simp] theorem State.setRes0_gs3s (s : State) (v : Word) : (s.setRes0 v).gs3s = s.gs3s := rfl
@[simp] theorem State.setRes0_tbl (s : State) (v : Word) : (s.setRes0 v).tbl = s.tbl := rfl
@[simp] theorem State.setRes0_gs3l (s : State) (v : Word) : (s.setRes0 v).gs3l = s.gs3l := rfl
@[simp] theorem State.setRes0_gs3k (s : State) (v : Word) : (s.setRes0 v).gs3k = s.gs3k := rfl
@[simp] theorem State.setRes0_rng (s : State) (v : Word) : (s.setRes0 v).rng = s.rng := rfl
@[simp] theorem State.setRes0_cur (s : State) (v : Word) : (s.setRes0 v).cur = s.cur := rfl
@[simp] theorem State.setRes0_len (s : State) (v : Word) : (s.setRes0 v).len = s.len := rfl
@[simp] theorem State.setRes0_mem (s : State) (v : Word) : (s.setRes0 v).mem = s.mem := rfl
@[simp] theorem State.setRes0_draws (s : State) (v : Word) : (s.setRes0 v).draws = s.draws := rfl
@[simp] theorem State.setRes0_events (s : State) (v : Word) : (s.setRes0 v).events = s.events := rfl
@[simp] theorem State.setRes0_replies (s : State) (v : Word) : (s.setRes0 v).replies = s.replies := rfl

/-! ### setRes1 -/

@[simp] theorem State.setRes1_op (s : State) (v : Word) : (s.setRes1 v).op = s.op := rfl
@[simp] theorem State.setRes1_res (s : State) (v : Word) : (s.setRes1 v).res = { s.res with r1 := v } := rfl
@[simp] theorem State.setRes1_cmd (s : State) (v : Word) : (s.setRes1 v).cmd = s.cmd := rfl
@[simp] theorem State.setRes1_status (s : State) (v : Word) : (s.setRes1 v).status = s.status := rfl
@[simp] theorem State.setRes1_seed (s : State) (v : Word) : (s.setRes1 v).seed = s.seed := rfl
@[simp] theorem State.setRes1_schedE (s : State) (v : Word) : (s.setRes1 v).schedE = s.schedE := rfl
@[simp] theorem State.setRes1_schedD (s : State) (v : Word) : (s.setRes1 v).schedD = s.schedD := rfl
@[simp] theorem State.setRes1_gs3s (s : State) (v : Word) : (s.setRes1 v).gs3s = s.gs3s := rfl
@[simp] theorem State.setRes1_tbl (s : State) (v : Word) : (s.setRes1 v).tbl = s.tbl := rfl
@[simp] theorem State.setRes1_gs3l (s : State) (v : Word) : (s.setRes1 v).gs3l = s.gs3l := rfl
@[simp] theorem State.setRes1_gs3k (s : State) (v : Word) : (s.setRes1 v).gs3k = s.gs3k := rfl
@[simp] theorem State.setRes1_rng (s : State) (v : Word) : (s.setRes1 v).rng = s.rng := rfl
@[simp] theorem State.setRes1_cur (s : State) (v : Word) : (s.setRes1 v).cur = s.cur := rfl
@[simp] theorem State.setRes1_len (s : State) (v : Word) : (s.setRes1 v).len = s.len := rfl
@[simp] theorem State.setRes1_mem (s : State) (v : Word) : (s.setRes1 v).mem = s.mem := rfl
@[simp] theorem State.setRes1_draws (s : State) (v : Word) : (s.setRes1 v).draws = s.draws := rfl
@[simp] theorem State.setRes1_events (s : State) (v : Word) : (s.setRes1 v).events = s.events := rfl
@[simp] theorem State.setRes1_replies (s : State) (v : Word) : (s.setRes1 v).replies = s.replies := rfl

/-! ### setRes2 -/

@[simp] theorem State.setRes2_op (s : State) (v : Word) : (s.setRes2 v).op = s.op := rfl
@[simp] theorem State.setRes2_res (s : State) (v : Word) : (s.setRes2 v).res = { s.res with r2 := v } := rfl
@[simp] theorem State.setRes2_cmd (s : State) (v : Word) : (s.setRes2 v).cmd = s.cmd := rfl
@[simp] theorem State.setRes2_status (s : State) (v : Word) : (s.setRes2 v).status = s.status := rfl
@[simp] theorem State.setRes2_seed (s : State) (v : Word) : (s.setRes2 v).seed = s.seed := rfl
@[simp] theorem State.setRes2_schedE (s : State) (v : Word) : (s.setRes2 v).schedE = s.schedE := rfl
@[simp] theorem State.setRes2_schedD (s : State) (v : Word) : (s.setRes2 v).schedD = s.schedD := rfl
@[simp] theorem State.setRes2_gs3s (s : State) (v : Word) : (s.setRes2 v).gs3s = s.gs3s := rfl
@[simp] theorem State.setRes2_tbl (s : State) (v : Word) : (s.setRes2 v).tbl = s.tbl := rfl
@[simp] theorem State.setRes2_gs3l (s : State) (v : Word) : (s.setRes2 v).gs3l = s.gs3l := rfl
@[simp] theorem State.setRes2_gs3k (s : State) (v : Word) : (s.setRes2 v).gs3k = s.gs3k := rfl
@[simp] theorem State.setRes2_rng (s : State) (v : Word) : (s.setRes2 v).rng = s.rng := rfl
@[simp] theorem State.setRes2_cur (s : State) (v : Word) : (s.setRes2 v).cur = s.cur := rfl
@[simp] theorem State.setRes2_len (s : State) (v : Word) : (s.setRes2 v).len = s.len := rfl
@[simp] theorem State.setRes2_mem (s : State) (v : Word) : (s.setRes2 v).mem = s.mem := rfl
@[simp] theorem State.setRes2_draws (s : State) (v : Word) : (s.setRes2 v).draws = s.draws := rfl
@[simp] theorem State.setRes2_events (s : State) (v : Word) : (s.setRes2 v).events = s.events := rfl
@[simp] theorem State.setRes2_replies (s : State) (v : Word) : (s.setRes2 v).replies = s.replies := rfl

/-! ### setSeed -/

@[simp] theorem State.setSeed_op (s : State) (v : Word) : (s.setSeed v).op = s.op := rfl
@[simp] theorem State.setSeed_res (s : State) (v : Word) : (s.setSeed v).res = s.res := rfl
@[simp] theorem State.setSeed_cmd (s : State) (v : Word) : (s.setSeed v).cmd = s.cmd := rfl
@[simp] theorem State.setSeed_status (s : State) (v : Word) : (s.setSeed v).status = s.status := rfl
@[simp] theorem State.setSeed_seed (s : State) (v : Word) : (s.setSeed v).seed = v := rfl
@[simp] theorem State.setSeed_schedE (s : State) (v : Word) : (s.setSeed v).schedE = s.schedE := rfl
@[simp] theorem State.setSeed_schedD (s : State) (v : Word) : (s.setSeed v).schedD = s.schedD := rfl
@[simp] theorem State.setSeed_gs3s (s : State) (v : Word) : (s.setSeed v).gs3s = s.gs3s := rfl
@[simp] theorem State.setSeed_tbl (s : State) (v : Word) : (s.setSeed v).tbl = s.tbl := rfl
@[simp] theorem State.setSeed_gs3l (s : State) (v : Word) : (s.setSeed v).gs3l = s.gs3l := rfl
@[simp] theorem State.setSeed_gs3k (s : State) (v : Word) : (s.setSeed v).gs3k = s.gs3k := rfl
@[simp] theorem State.setSeed_rng (s : State) (v : Word) : (s.setSeed v).rng = s.rng := rfl
@[simp] theorem State.setSeed_cur (s : State) (v : Word) : (s.setSeed v).cur = s.cur := rfl
@[simp] theorem State.setSeed_len (s : State) (v : Word) : (s.setSeed v).len = s.len := rfl
@[simp] theorem State.setSeed_mem (s : State) (v : Word) : (s.setSeed v).mem = s.mem := rfl
@[simp] theorem State.setSeed_draws (s : State) (v : Word) : (s.setSeed v).draws = s.draws := rfl
@[simp] theorem State.setSeed_events (s : State) (v : Word) : (s.setSeed v).events = s.events := rfl
@[simp] theorem State.setSeed_replies (s : State) (v : Word) : (s.setSeed v).replies = s.replies := rfl

/-! ### setCursor -/

@[simp] theorem State.setCursor_op (s : State) (c : Cursor) : (s.setCursor c).op = s.op := rfl
@[simp] theorem State.setCursor_res (s : State) (c : Cursor) : (s.setCursor c).res = s.res := rfl
@[simp] theorem State.setCursor_cmd (s : State) (c : Cursor) : (s.setCursor c).cmd = s.cmd := rfl
@[simp] theorem State.setCursor_status (s : State) (c : Cursor) : (s.setCursor c).status = s.status := rfl
@[simp] theorem State.setCursor_seed (s : State) (c : Cursor) : (s.setCursor c).seed = s.seed := rfl
@[simp] theorem State.setCursor_schedE (s : State) (c : Cursor) : (s.setCursor c).schedE = s.schedE := rfl
@[simp] theorem State.setCursor_schedD (s : State) (c : Cursor) : (s.setCursor c).schedD = s.schedD := rfl
@[simp] theorem State.setCursor_gs3s (s : State) (c : Cursor) : (s.setCursor c).gs3s = s.gs3s := rfl
@[simp] theorem State.setCursor_tbl (s : State) (c : Cursor) : (s.setCursor c).tbl = s.tbl := rfl
@[simp] theorem State.setCursor_gs3l (s : State) (c : Cursor) : (s.setCursor c).gs3l = s.gs3l := rfl
@[simp] theorem State.setCursor_gs3k (s : State) (c : Cursor) : (s.setCursor c).gs3k = s.gs3k := rfl
@[simp] theorem State.setCursor_rng (s : State) (c : Cursor) : (s.setCursor c).rng = s.rng := rfl
@[simp] theorem State.setCursor_cur (s : State) (c : Cursor) : (s.setCursor c).cur = c := rfl
@[simp] theorem State.setCursor_len (s : State) (c : Cursor) : (s.setCursor c).len = s.len := rfl
@[simp] theorem State.setCursor_mem (s : State) (c : Cursor) : (s.setCursor c).mem = s.mem := rfl
@[simp] theorem State.setCursor_draws (s : State) (c : Cursor) : (s.setCursor c).draws = s.draws := rfl
@[simp] theorem State.setCursor_events (s : State) (c : Cursor) : (s.setCursor c).events = s.events := rfl
@[simp] theorem State.setCursor_replies (s : State) (c : Cursor) : (s.setCursor c).replies = s.replies := rfl

/-! ### setGs3Seeds -/

@[simp] theorem State.setGs3Seeds_op (s : State) (x : Seeds) : (s.setGs3Seeds x).op = s.op := rfl
@[simp] theorem State.setGs3Seeds_res (s : State) (x : Seeds) : (s.setGs3Seeds x).res = s.res := rfl
@[simp] theorem State.setGs3Seeds_cmd (s : State) (x : Seeds) : (s.setGs3Seeds x).cmd = s.cmd := rfl
@[simp] theorem State.setGs3Seeds_status (s : State) (x : Seeds) : (s.setGs3Seeds x).status = s.status := rfl
@[simp] theorem State.setGs3Seeds_seed (s : State) (x : Seeds) : (s.setGs3Seeds x).seed = s.seed := rfl
@[simp] theorem State.setGs3Seeds_schedE (s : State) (x : Seeds) : (s.setGs3Seeds x).schedE = s.schedE := rfl
@[simp] theorem State.setGs3Seeds_schedD (s : State) (x : Seeds) : (s.setGs3Seeds x).schedD = s.schedD := rfl
@[simp] theorem State.setGs3Seeds_gs3s (s : State) (x : Seeds) : (s.setGs3Seeds x).gs3s = x := rfl
@[simp] theorem State.setGs3Seeds_tbl (s : State) (x : Seeds) : (s.setGs3Seeds x).tbl = (buildTables Config.gs3 x).1 :=
    rfl
@[simp] theorem State.setGs3Seeds_gs3l (s : State) (x : Seeds) : (s.setGs3Seeds x).gs3l = s.gs3l := rfl
@[simp] theorem State.setGs3Seeds_gs3k (s : State) (x : Seeds) : (s.setGs3Seeds x).gs3k = s.gs3k := rfl
@[simp] theorem State.setGs3Seeds_rng (s : State) (x : Seeds) : (s.setGs3Seeds x).rng = (buildTables Config.gs3 x).2 :=
    rfl
@[simp] theorem State.setGs3Seeds_cur (s : State) (x : Seeds) : (s.setGs3Seeds x).cur = s.cur := rfl
@[simp] theorem State.setGs3Seeds_len (s : State) (x : Seeds) : (s.setGs3Seeds x).len = s.len := rfl
@[simp] theorem State.setGs3Seeds_mem (s : State) (x : Seeds) : (s.setGs3Seeds x).mem = s.mem := rfl
@[simp] theorem State.setGs3Seeds_draws (s : State) (x : Seeds) : (s.setGs3Seeds x).draws = s.draws := rfl
@[simp] theorem State.setGs3Seeds_events (s : State) (x : Seeds) : (s.setGs3Seeds x).events = s.events := rfl
@[simp] theorem State.setGs3Seeds_replies (s : State) (x : Seeds) : (s.setGs3Seeds x).replies = s.replies := rfl

/-! ### endWith -/

@[simp] theorem State.endWith_op (s : State) (c : Code) : (s.endWith c).op = s.op := rfl
@[simp] theorem State.endWith_res (s : State) (c : Code) : (s.endWith c).res = s.res := rfl
@[simp] theorem State.endWith_cmd (s : State) (c : Code) : (s.endWith c).cmd = s.cmd := rfl
@[simp] theorem State.endWith_status (s : State) (c : Code) : (s.endWith c).status = statusAfter s.status c := rfl
@[simp] theorem State.endWith_seed (s : State) (c : Code) : (s.endWith c).seed = s.seed := rfl
@[simp] theorem State.endWith_schedE (s : State) (c : Code) : (s.endWith c).schedE = s.schedE := rfl
@[simp] theorem State.endWith_schedD (s : State) (c : Code) : (s.endWith c).schedD = s.schedD := rfl
@[simp] theorem State.endWith_gs3s (s : State) (c : Code) : (s.endWith c).gs3s = s.gs3s := rfl
@[simp] theorem State.endWith_tbl (s : State) (c : Code) : (s.endWith c).tbl = s.tbl := rfl
@[simp] theorem State.endWith_gs3l (s : State) (c : Code) : (s.endWith c).gs3l = s.gs3l := rfl
@[simp] theorem State.endWith_gs3k (s : State) (c : Code) : (s.endWith c).gs3k = s.gs3k := rfl
@[simp] theorem State.endWith_rng (s : State) (c : Code) : (s.endWith c).rng = s.rng := rfl
@[simp] theorem State.endWith_cur (s : State) (c : Code) : (s.endWith c).cur = s.cur := rfl
@[simp] theorem State.endWith_len (s : State) (c : Code) : (s.endWith c).len = s.len := rfl
@[simp] theorem State.endWith_mem (s : State) (c : Code) : (s.endWith c).mem = s.mem := rfl
@[simp] theorem State.endWith_draws (s : State) (c : Code) : (s.endWith c).draws = s.draws := rfl
@[simp] theorem State.endWith_events (s : State) (c : Code) : (s.endWith c).events = s.events := rfl
@[simp] theorem State.endWith_replies (s : State) (c : Code) : (s.endWith c).replies = s.replies := rfl

/-! ### afterAr2 -/

@[simp] theorem State.afterAr2_op (s : State) (t : Byte) : (s.afterAr2 t).op = s.op := rfl
@[simp] theorem State.afterAr2_res (s : State) (t : Byte) : (s.afterAr2 t).res = s.res := rfl
@[simp] theorem State.afterAr2_cmd (s : State) (t : Byte) : (s.afterAr2 t).cmd = s.cmd := rfl
@[simp] theorem State.afterAr2_status (s : State) (t : Byte) : (s.afterAr2 t).status = s.status := rfl
@[simp] theorem State.afterAr2_seed (s : State) (t : Byte) : (s.afterAr2 t).seed = s.seed := rfl
@[simp] theorem State.afterAr2_schedE (s : State) (t : Byte) : (s.afterAr2 t).schedE = s.schedE := rfl
@[simp] theorem State.afterAr2_schedD (s : State) (t : Byte) : (s.afterAr2 t).schedD = s.schedD := rfl
@[simp] theorem State.afterAr2_gs3s (s : State) (t : Byte) : (s.afterAr2 t).gs3s = s.gs3s := rfl
@[simp] theorem State.afterAr2_tbl (s : State) (t : Byte) : (s.afterAr2 t).tbl = s.tbl := rfl
@[simp] theorem State.afterAr2_gs3l (s : State) (t : Byte) : (s.afterAr2 t).gs3l = s.gs3l := rfl
@[simp] theorem State.afterAr2_gs3k (s : State) (t : Byte) : (s.afterAr2 t).gs3k = s.gs3k := rfl
@[simp] theorem State.afterAr2_rng (s : State) (t : Byte) : (s.afterAr2 t).rng = s.rng := rfl
@[simp] theorem State.afterAr2_cur (s : State) (t : Byte) : (s.afterAr2 t).cur = s.cur := rfl
@[simp] theorem State.afterAr2_len (s : State) (t : Byte) : (s.afterAr2 t).len = s.len := rfl
@[simp] theorem State.afterAr2_mem (s : State) (t : Byte) : (s.afterAr2 t).mem = s.mem := rfl
@[simp] theorem State.afterAr2_draws (s : State) (t : Byte) : (s.afterAr2 t).draws = s.draws + ar2Draws t := rfl
@[simp] theorem State.afterAr2_events (s : State) (t : Byte) : (s.afterAr2 t).events = s.events := rfl
@[simp] theorem State.afterAr2_replies (s : State) (t : Byte) : (s.afterAr2 t).replies = s.replies := rfl

/-! ### swapPayload -/

@[simp] theorem State.swapPayload_op (s : State) (p : Nat) : (s.swapPayload p).op = s.op := rfl
@[simp] theorem State.swapPayload_res (s : State) (p : Nat) : (s.swapPayload p).res = s.res := rfl
@[simp] theorem State.swapPayload_cmd (s : State) (p : Nat) : (s.swapPayload p).cmd = s.cmd := rfl
@[simp] theorem State.swapPayload_status (s : State) (p : Nat) : (s.swapPayload p).status = s.status := rfl
@[simp] theorem State.swapPayload_seed (s : State) (p : Nat) : (s.swapPayload p).seed = s.seed := rfl
@[simp] theorem State.swapPayload_schedE (s : State) (p : Nat) : (s.swapPayload p).schedE = s.schedE := rfl
@[simp] theorem State.swapPayload_schedD (s : State) (p : Nat) : (s.swapPayload p).schedD = s.schedD := rfl
@[simp] theorem State.swapPayload_gs3s (s : State) (p : Nat) : (s.swapPayload p).gs3s = s.gs3s := rfl
@[simp] theorem State.swapPayload_tbl (s : State) (p : Nat) : (s.swapPayload p).tbl = s.tbl := rfl
@[simp] theorem State.swapPayload_gs3l (s : State) (p : Nat) : (s.swapPayload p).gs3l = s.gs3l := rfl
@[simp] theorem State.swapPayload_gs3k (s : State) (p : Nat) : (s.swapPayload p).gs3k = s.gs3k := rfl
@[simp] theorem State.swapPayload_rng (s : State) (p : Nat) : (s.swapPayload p).rng = s.rng := rfl
@[simp] theorem State.swapPayload_cur (s : State) (p : Nat) : (s.swapPayload p).cur = s.cur := rfl
@[simp] theorem State.swapPayload_len (s : State) (p : Nat) : (s.swapPayload p).len = s.len := rfl
@[simp] theorem State.swapPayload_mem (s : State) (p : Nat) : (s.swapPayload p).mem = s.mem.mapWords bswap32 (s.len - p) p :=
    rfl
@[simp] theorem State.swapPayload_draws (s : State) (p : Nat) : (s.swapPayload p).draws = s.draws := rfl
@[simp] theorem State.swapPayload_events (s : State) (p : Nat) : (s.swapPayload p).events = s.events := rfl
@[simp] theorem State.swapPayload_replies (s : State) (p : Nat) : (s.swapPayload p).replies = s.replies := rfl

/-! ### Updates made of others -/

theorem State.setGs3Result_eq (s : State) (r : Gs3Result) :
    s.setGs3Result r = { s with res := ⟨r.pair.1, r.pair.2, r.flags, s.res.r3⟩ } := rfl

theorem State.batchReset_eq (s : State) :
    s.batchReset = { s with
      seed := Config.ar2.seedReset
      gs3s := Config.gs3.seedsReset
      tbl := (buildTables Config.gs3 Config.gs3.seedsReset).1
      rng := (buildTables Config.gs3 Config.gs3.seedsReset).2
      gs3l := false
      gs3k := 0 } := rfl

theorem blockReset_eq (s : State) :
    blockReset s = { State.reset with
      mem := ⟨s.mem.epoch + 1, []⟩, draws := s.draws, events := s.events, replies := s.replies } := rfl

theorem State.withFetchWord_eq (s : State) (nbits w : Nat) :
    s.withFetchWord nbits w = { s with events := commandWrite (BitVec.ofNat 32 (w % 2 ^ nbits)) :: s.events } := rfl

end Sys2Proof.Machine
end

