-- ==== Sys2Proof/Laws/Ops.lean ====
section
/-! SUPPORT. For each shared operation of Machine/Ops.lean, one lemma that says everything it can do. -/

namespace Sys2Proof.Machine

/-! ## How a command ends -/

theorem stickyBit_getLsbD : ∀ i < 32, (0x100#32).getLsbD i = decide (i = 8) := by decide

theorem statusAfter_ok (st : Word) : statusAfter st .ok = okStatus st := by
  have e : statusAfter st .ok = if st.getLsbD 8 then 0x100#32 else 0#32 := by
    cases h : st.getLsbD 8 <;> simp only [statusAfter, statusWord, statusSticky, Code.bits, h] <;> rfl
  rw [e]
  apply BitVec.eq_of_getLsbD_eq
  intro i hi
  rw [okStatus, BitVec.getLsbD_and, stickyBit_getLsbD i hi]
  by_cases h8 : i = 8
  · subst h8
    split <;> simp_all
  · split <;> simp [h8, stickyBit_getLsbD i hi]

theorem statusAfter_error (st : Word) (c : Code) (h : c ≠ .ok) : statusAfter st c = errStatus (c.bits.setWidth 32) := by
  cases c <;> simp_all [statusAfter, statusWord, errStatus]

/-- Everything the end of a command with `OK` does. -/
theorem State.endWith_ok (s : State) : s.endWith .ok = { s with status := okStatus s.status } := by
  rw [← statusAfter_ok]; rfl

/-- Everything an error does. -/
theorem State.endWith_error (s : State) (c : Code) (h : c ≠ .ok) :
    s.endWith c = { s with status := errStatus (c.bits.setWidth 32) } := by
  rw [← statusAfter_error s.status c h]; rfl

theorem State.endWith_illegal (s : State) : s.endWith .illegal = { s with status := errStatus 1 } :=
  s.endWith_error _ (by decide)

theorem State.endWith_structural (s : State) : s.endWith .structural = { s with status := errStatus 2 } :=
  s.endWith_error _ (by decide)

theorem State.endWith_crc (s : State) : s.endWith .crc = { s with status := errStatus 3 } :=
  s.endWith_error _ (by decide)

theorem State.endWith_verifier (s : State) : s.endWith .verifier = { s with status := errStatus 4 } :=
  s.endWith_error _ (by decide)

theorem okStatus_okStatus (st : Word) : okStatus (okStatus st) = okStatus st := by
  simp [okStatus, BitVec.and_assoc]

/-! ## Shortening and removal -/

/-- Everything the draw of the words left behind does. -/
theorem State.drawStale_spec (n i : Nat) (s : State) :
    ∃ m, s.drawStale n i = { s with mem := m, draws := s.draws + n } ∧ s.mem.Touches m i (i + n) ∧
      ∀ k < n, m.readWord (i + k) = Config.staleWord (s.draws + k) := by
  induction n generalizing i s with
  | zero => exact ⟨s.mem, rfl, .refl .., fun k hk => absurd hk (Nat.not_lt_zero k)⟩
  | succ n ih =>
    obtain ⟨m, e, ht, hv⟩ := ih (i + 1) { s.memWrite i (Config.staleWord s.draws) with draws := s.draws + 1 }
    refine ⟨m, ?_, ?_, fun k hk => ?_⟩
    · rw [State.drawStale, e, Nat.add_assoc, Nat.add_comm 1 n]; rfl
    · exact (Memory.touches_writeWord s.mem _ (Nat.le_refl i) (by omega)).trans (ht.mono (by omega) (by omega))
    · cases k with
      | zero =>
        have h := ht.word (i := i) (.inl (by omega))
        simpa using h
      | succ k =>
        have h := hv k (by omega)
        simp only at h
        rw [show i + (k + 1) = i + 1 + k by omega, h]
        congr 1; omega

/-- Everything a shortening to `n` words does. -/
theorem State.shorten_spec (s : State) (n : Nat) (h : n ≤ s.len) :
    ∃ m, s.shorten n = { s with mem := m, len := n, draws := s.draws + (s.len - n) } ∧ s.mem.Touches m n s.len ∧
      ∀ k < s.len - n, m.readWord (n + k) = Config.staleWord (s.draws + k) := by
  obtain ⟨m, e, ht, hv⟩ := State.drawStale_spec (s.len - n) n (s.setLen n)
  rw [Nat.add_sub_cancel' h] at ht
  exact ⟨m, e, ht, hv⟩

/-- The removal's first branch: out of range (R86). -/
theorem State.removeWords_noop (s : State) (start count : Nat) (h : start < 1 ∨ s.len < start ∨ count < 1) :
    s.removeWords start count = s := if_pos h

/-- The removal's second branch: truncation (R86). -/
theorem State.removeWords_truncate (s : State) (start count : Nat) (h1 : 1 ≤ start) (h2 : start ≤ s.len) (h3 : 1 ≤ count)
    (h : s.len < start + count) :
    ∃ m, s.removeWords start count =
        { s with mem := m, len := s.len - count, draws := s.draws + (s.len - (s.len - count)) } ∧
      s.mem.Touches m (s.len - count) s.len ∧
      ∀ k < s.len - (s.len - count), m.readWord (s.len - count + k) = Config.staleWord (s.draws + k) := by
  rw [State.removeWords, if_neg (by omega), if_pos (by omega)]
  exact State.shorten_spec s _ (by omega)

/-- The removal's third branch: the tail copied down over the gap (R86). -/
theorem State.removeWords_copy (s : State) (start count : Nat) (h1 : 1 ≤ start) (h3 : 1 ≤ count)
    (h : start + count ≤ s.len) :
    ∃ m, s.removeWords start count = { s with mem := m, len := s.len - count, draws := s.draws + count } ∧
      s.mem.Touches m (start - 1) s.len ∧
      m.words (start - 1) (s.len - count - (start - 1)) = s.mem.words (start + count - 1) (s.len - count - (start - 1)) ∧
      ∀ k < count, m.readWord (s.len - count + k) = Config.staleWord (s.draws + k) := by
  rw [State.removeWords, if_neg (by omega), if_neg (by omega)]
  obtain ⟨m, e, ht, hv⟩ := State.shorten_spec
    { s with mem := s.mem.copyDown (s.len - (start + count - 1)) (start + count - 1) (start - 1) } (s.len - count)
    (Nat.sub_le ..)
  have hc : s.len - (s.len - count) = count := by omega
  simp only [hc] at e hv ht
  have hn : s.len - (start + count - 1) = s.len - count - (start - 1) := by omega
  refine ⟨m, e, ?_, ?_, hv⟩
  · exact ((Memory.touches_copyDown _ _ _ s.mem).mono (Nat.le_refl _) (by omega)).trans
      (ht.mono (by omega) (Nat.le_refl _))
  · rw [ht.words (by omega), ← hn, Memory.words_copyDown _ _ _ _ (by omega)]

/-! ## The bit cursor -/

/-- The cursor's position in the storage read as one stream of bits. -/
def Cursor.position (c : Cursor) : Nat := 32 * c.word + c.bit

theorem Cursor.advance_position (c : Cursor) : c.advance.position = c.position + 1 := by
  simp only [Cursor.advance, Cursor.position]; split
  · dsimp only; omega
  · dsimp only; omega

theorem Cursor.advance_limit (c : Cursor) : c.advance.limit = c.limit := by
  simp only [Cursor.advance]; split <;> rfl

theorem Cursor.advance_bit (c : Cursor) (h : c.bit ≤ 31) : c.advance.bit ≤ 31 := by
  simp only [Cursor.advance]; (split <;> simp); omega

/-- A cursor with its bit offset in range is given by its position and its limit. -/
theorem Cursor.eq_of_position (c : Cursor) (h : c.bit ≤ 31) : c = ⟨c.position / 32, c.position % 32, c.limit⟩ := by
  obtain ⟨w, b, l⟩ := c
  simp only [Cursor.position] at h ⊢
  congr 1 <;> omega

theorem Memory.bitAt_eq_streamBit (m : Memory) (c : Cursor) (h : c.bit ≤ 31) : m.bitAt c = streamBit m c.position := by
  have e1 : c.position / 32 = c.word := by simp only [Cursor.position]; omega
  have e2 : c.position % 32 = c.bit := by simp only [Cursor.position]; omega
  rw [Memory.bitAt, streamBit, e1, e2]

/-- Everything a read that has room does: the bits of the stream enter from the right, and the cursor moves over them. -/
theorem readBitsFrom_enough (m : Memory) (n : Nat) (r : Word) (c : Cursor) (h : c.bit ≤ 31)
    (hroom : n = 0 ∨ c.position + n ≤ 32 * c.limit) :
    ∃ v, readBitsFrom m n r c = (some v, ⟨(c.position + n) / 32, (c.position + n) % 32, c.limit⟩) ∧
      ∀ k < 32, v.getLsbD k = if k < n then streamBit m (c.position + n - 1 - k) else r.getLsbD (k - n) := by
  induction n generalizing r c with
  | zero => exact ⟨r, by rw [readBitsFrom]; congr 1; exact Cursor.eq_of_position c h, fun k _ => by simp⟩
  | succ n ih =>
    have hw : ¬ c.word ≥ c.limit := by
      have : c.position = 32 * c.word + c.bit := rfl
      omega
    obtain ⟨v, e, hv⟩ := ih ((r <<< 1) ||| (BitVec.ofBool (m.bitAt c)).setWidth 32) c.advance (Cursor.advance_bit c h)
      (.inr (by rw [Cursor.advance_position, Cursor.advance_limit]; omega))
    refine ⟨v, ?_, fun k hk => ?_⟩
    · rw [readBitsFrom, if_neg hw, e, Cursor.advance_position, Cursor.advance_limit]
      congr 2 <;> omega
    · rw [hv k hk, Cursor.advance_position]
      by_cases h1 : k < n
      · rw [if_pos h1, if_pos (by omega)]
        congr 1; omega
      · rw [if_neg h1]
        by_cases h2 : k = n
        · subst h2
          rw [if_pos (by omega), Memory.bitAt_eq_streamBit m c h]
          simp
        · rw [if_neg (by omega)]
          have h4 : k - n < 32 := by omega
          have h5 : ¬ (k - n < 1) := by omega
          have h6 : k - n - 1 = k - (n + 1) := by omega
          have h7 : k - n ≠ 0 := by omega
          have h8 : k - (n + 1) < 32 := by omega
          simp [h4, h5, h6, h7, BitVec.getLsbD_ofBool, BitVec.getLsbD_eq_getElem h8]

/-- Everything a read with no room does: it fails, and the cursor stops at the limit if it was before it. -/
theorem readBitsFrom_overrun (m : Memory) (n : Nat) (r : Word) (c : Cursor) (h : c.bit ≤ 31) (hn : 1 ≤ n)
    (hroom : 32 * c.limit < c.position + n) :
    readBitsFrom m n r c = (none, if c.limit ≤ c.word then c else ⟨c.limit, 0, c.limit⟩) := by
  induction n generalizing r c with
  | zero => omega
  | succ n ih =>
    rw [readBitsFrom]
    by_cases hw : c.word ≥ c.limit
    · rw [if_pos hw, if_pos hw]
    · rw [if_neg hw, if_neg hw]
      have hp : c.position = 32 * c.word + c.bit := rfl
      have ha := Cursor.advance_position c
      have hl := Cursor.advance_limit c
      have hb := Cursor.advance_bit c h
      have hq : c.advance.position = 32 * c.advance.word + c.advance.bit := rfl
      rw [ih _ _ hb (by omega) (by rw [ha, hl]; omega), hl]
      by_cases hx : c.limit ≤ c.advance.word
      · rw [if_pos hx]
        congr 1
        rw [Cursor.eq_of_position c.advance hb, ha, hl]
        congr 1 <;> omega
      · rw [if_neg hx]

/-- The cursor after a read has the limit it had, a bit offset in range, and a word index no further than the limit. -/
theorem readBitsFrom_cursor (m : Memory) (n : Nat) (r : Word) (c : Cursor) (h : c.bit ≤ 31) :
    (readBitsFrom m n r c).2.limit = c.limit ∧ (readBitsFrom m n r c).2.bit ≤ 31 ∧
      (readBitsFrom m n r c).2.word ≤ max c.word c.limit := by
  induction n generalizing r c with
  | zero => exact ⟨rfl, h, Nat.le_max_left ..⟩
  | succ n ih =>
    rw [readBitsFrom]
    split
    · exact ⟨rfl, h, Nat.le_max_left ..⟩
    · next hw =>
      obtain ⟨h1, h2, h3⟩ := ih ((r <<< 1) ||| (BitVec.ofBool (m.bitAt c)).setWidth 32) c.advance (Cursor.advance_bit c h)
      rw [Cursor.advance_limit] at h1 h3
      refine ⟨h1, h2, h3.trans ?_⟩
      have : c.advance.word ≤ c.word + 1 := by simp only [Cursor.advance]; split <;> simp
      omega

/-- A read depends on no word at or beyond the limit. -/
theorem readBitsFrom_congr {m m' : Memory} (n : Nat) (r : Word) (c : Cursor)
    (h : ∀ i < c.limit, m'.readWord i = m.readWord i) : readBitsFrom m' n r c = readBitsFrom m n r c := by
  induction n generalizing r c with
  | zero => rfl
  | succ n ih =>
    rw [readBitsFrom, readBitsFrom]
    split
    · rfl
    · next hw =>
      have hb : m'.bitAt c = m.bitAt c := by rw [Memory.bitAt, Memory.bitAt, h _ (by omega)]
      rw [hb, ih _ _ (by rw [Cursor.advance_limit]; exact h)]

end Sys2Proof.Machine
end

