-- ==== Sys2Proof/Laws/Streams.lean ====
section
/-! SUPPORT. What the pair loops of the AR1/AR2 and GS3+ batches do, said over lists of pairs. -/

namespace Sys2Proof.Machine

/-! ## One pair in place -/

/-- Two words written, the pair they make read back. -/
theorem Memory.pair_writePair (m : Memory) (i : Nat) (a v : Word) :
    (((m.writeWord i a).writeWord (i + 1) v).readWord i, ((m.writeWord i a).writeWord (i + 1) v).readWord (i + 1)) =
      (a, v) := by
  rw [Memory.readWord_writeWord_same, Memory.readWord_writeWord_ne _ _ (by omega), Memory.readWord_writeWord_same]

theorem Memory.touches_writePair (m : Memory) {i hi : Nat} (a v : Word) (h : i + 2 ≤ hi) :
    m.Touches ((m.writeWord i a).writeWord (i + 1) v) i hi :=
  (Memory.touches_writeWord m a (Nat.le_refl i) (by omega)).trans
    (Memory.touches_writeWord _ v (by omega) (by omega))

theorem Memory.pairs_succ (m : Memory) (i n : Nat) :
    m.pairs i (n + 1) = (m.readWord i, m.readWord (i + 1)) :: m.pairs (i + 2) n := rfl

theorem Memory.Touches.pairs {m m' : Memory} {lo hi i n : Nat} (h : m.Touches m' lo hi) (hd : i + 2 * n ≤ lo ∨ hi ≤ i) :
    m'.pairs i n = m.pairs i n :=
  Memory.pairs_congr fun k h1 h2 => h.word (by omega)

/-- The pairs at and above a removed pair, one pair further down (R86, R101, R179). -/
theorem Memory.pairs_of_words_shift {m m' : Memory} {i n : Nat} (h : m'.words i (2 * n) = m.words (i + 2) (2 * n)) :
    m'.pairs i n = m.pairs (i + 2) n := by
  rw [← Memory.pairs_eq_pairsOf_words, h, Memory.pairs_eq_pairsOf_words]

/-- Everything the removal of the pair at word index `i` does, when it and `n` more pairs are the rest of the buffer. -/
theorem State.removePair_spec (s : State) (i n : Nat) (h : i + 2 * (n + 1) = s.len) :
    ∃ m, s.removeWords (i + 1) 2 = { s with mem := m, len := s.len - 2, draws := s.draws + 2 } ∧
      s.mem.Touches m i s.len ∧ m.pairs i n = s.mem.pairs (i + 2) n := by
  cases n with
  | zero =>
    obtain ⟨m, e, ht, -⟩ := State.removeWords_truncate s (i + 1) 2 (by omega) (by omega) (by omega) (by omega)
    have e1 : s.len - (s.len - 2) = 2 := by omega
    rw [e1] at e
    exact ⟨m, e, ht.mono (by omega) (Nat.le_refl _), rfl⟩
  | succ n =>
    obtain ⟨m, e, ht, hw, -⟩ := State.removeWords_copy s (i + 1) 2 (by omega) (by omega) (by omega)
    have e1 : s.len - 2 - i = 2 * (n + 1) := by omega
    simp only [Nat.add_sub_cancel, e1, show i + 1 + 2 - 1 = i + 2 by omega] at hw ht
    exact ⟨m, e, ht, Memory.pairs_of_words_shift hw⟩

/-! ## AR1/AR2 -/

theorem ar2Pair_eq (s : State) (d : Direction) (p : Pair) :
    s.ar2Pair d p = ((ar2PairAt d s.seed s.draws p).1, { s with draws := (ar2PairAt d s.seed s.draws p).2 }) := rfl

theorem ar2BatchDec_succ (n i : Nat) (s : State) (q : Pair × Nat)
    (hq : ar2PairAt .decrypt s.seed s.draws (s.mem.readWord i, s.mem.readWord (i + 1)) = q) :
    ar2BatchDec (n + 1) i s =
      if q.1.1 = Config.ar2.marker then
        ar2BatchDec n i ({ s with seed := q.1.2, draws := q.2 }.removeWords (i + 1) 2)
      else ar2BatchDec n (i + 2)
        { s with mem := (s.mem.writeWord i q.1.1).writeWord (i + 1) q.1.2, draws := q.2 } := by
  subst hq; rfl

theorem ar2DecStream_cons (p : Pair) (ps : List Pair) (seed : Word) (n : Nat) (q : Pair × Nat)
    (hq : ar2PairAt .decrypt seed n p = q) :
    ar2DecStream (p :: ps) seed n =
      if q.1.1 = Config.ar2.marker then ar2DecStream ps q.1.2 (q.2 + 2)
      else (q.1 :: (ar2DecStream ps seed q.2).1, (ar2DecStream ps seed q.2).2) := by
  subst hq; rfl

theorem State.ite_setSeed (p : Prop) [Decidable p] (s : State) (v : Word) :
    (if p then s.setSeed v else s) = { s with seed := if p then v else s.seed } := by
  split <;> rfl

theorem ar2BatchEnc_succ (n i : Nat) (s : State) (q : Pair × Nat)
    (hq : ar2PairAt .encrypt s.seed s.draws (s.mem.readWord i, s.mem.readWord (i + 1)) = q) :
    ar2BatchEnc (n + 1) i s = ar2BatchEnc n (i + 2)
      { s with
        mem := (s.mem.writeWord i q.1.1).writeWord (i + 1) q.1.2
        draws := q.2
        seed := if s.mem.readWord i = Config.ar2.marker then s.mem.readWord (i + 1) else s.seed } := by
  have h : s.ar2Pair .encrypt (s.memRead i, s.memRead (i + 1)) = (q.1, { s with draws := q.2 }) := by
    rw [← hq]; rfl
  rw [ar2BatchEnc]
  simp only [h]
  rw [State.ite_setSeed]
  rfl

/-- Everything `Ar2BatchDec` does to the last `n` pairs of the buffer (R101). -/
theorem ar2BatchDec_spec (n i : Nat) (s : State) (h : i + 2 * n = s.len) (r : List Pair × Word × Nat)
    (hr : ar2DecStream (s.mem.pairs i n) s.seed s.draws = r) :
    ∃ m, ar2BatchDec n i s = { s with mem := m, len := i + 2 * r.1.length, seed := r.2.1, draws := r.2.2 } ∧
      s.mem.Touches m i s.len ∧ m.pairs i r.1.length = r.1 := by
  induction n generalizing i s r with
  | zero =>
    subst hr
    have hi : i = s.len := by omega
    exact ⟨s.mem, by rw [hi]; rfl, .refl .., rfl⟩
  | succ n ih =>
    obtain ⟨q, hq⟩ : ∃ q, ar2PairAt .decrypt s.seed s.draws (s.mem.readWord i, s.mem.readWord (i + 1)) = q := ⟨_, rfl⟩
    rw [Memory.pairs_succ, ar2DecStream_cons _ _ _ _ q hq] at hr
    rw [ar2BatchDec_succ n i s q hq]
    by_cases hm : q.1.1 = Config.ar2.marker
    · rw [if_pos hm] at hr ⊢
      obtain ⟨m1, e1, ht1, hp1⟩ := State.removePair_spec { s with seed := q.1.2, draws := q.2 } i n h
      rw [e1]
      simp only at ht1 hp1
      obtain ⟨m, e, ht, hp⟩ := ih i { s with seed := q.1.2, mem := m1, len := s.len - 2, draws := q.2 + 2 }
        (by simp only; omega) r (by simp only [hp1]; exact hr)
      exact ⟨m, e, ht1.trans (ht.mono (Nat.le_refl _) (by simp only; omega)), hp⟩
    · rw [if_neg hm] at hr ⊢
      have hw : ((s.mem.writeWord i q.1.1).writeWord (i + 1) q.1.2).pairs (i + 2) n = s.mem.pairs (i + 2) n :=
        Memory.Touches.pairs (Memory.touches_writePair s.mem q.1.1 q.1.2 (Nat.le_refl (i + 2))) (.inr (Nat.le_refl _))
      obtain ⟨m, e, ht, hp⟩ := ih (i + 2)
        { s with mem := (s.mem.writeWord i q.1.1).writeWord (i + 1) q.1.2, draws := q.2 } (by simp only; omega) _
        (by simp only [hw]; exact rfl)
      subst hr
      refine ⟨m, ?_, ?_, ?_⟩
      · rw [e, List.length_cons, Nat.mul_succ, Nat.add_assoc, Nat.add_comm 2]
      · exact (Memory.touches_writePair s.mem q.1.1 q.1.2 (by omega)).trans (ht.mono (by omega) (Nat.le_refl _))
      · rw [List.length_cons, Memory.pairs_succ, hp, ht.word (i := i) (.inl (by omega)),
          ht.word (i := i + 1) (.inl (by omega)), Memory.pair_writePair]

/-- Everything `Ar2BatchEnc` does to the last `n` pairs of the buffer (R102). -/
theorem ar2BatchEnc_spec (n i : Nat) (s : State) (r : List Pair × Word × Nat)
    (hr : ar2EncStream (s.mem.pairs i n) s.seed s.draws = r) :
    ∃ m, ar2BatchEnc n i s = { s with mem := m, seed := r.2.1, draws := r.2.2 } ∧
      s.mem.Touches m i (i + 2 * n) ∧ m.pairs i n = r.1 := by
  induction n generalizing i s r with
  | zero => subst hr; exact ⟨s.mem, rfl, .refl .., rfl⟩
  | succ n ih =>
    obtain ⟨q, hq⟩ : ∃ q, ar2PairAt .encrypt s.seed s.draws (s.mem.readWord i, s.mem.readWord (i + 1)) = q := ⟨_, rfl⟩
    rw [ar2BatchEnc_succ n i s q hq]
    have hw : ((s.mem.writeWord i q.1.1).writeWord (i + 1) q.1.2).pairs (i + 2) n = s.mem.pairs (i + 2) n :=
      Memory.Touches.pairs (Memory.touches_writePair s.mem q.1.1 q.1.2 (Nat.le_refl (i + 2))) (.inr (Nat.le_refl _))
    obtain ⟨m, e, ht, hp⟩ := ih (i + 2)
      { s with
        mem := (s.mem.writeWord i q.1.1).writeWord (i + 1) q.1.2
        draws := q.2
        seed := if s.mem.readWord i = Config.ar2.marker then s.mem.readWord (i + 1) else s.seed } _
      (by simp only [hw]; exact rfl)
    rw [Memory.pairs_succ, ar2EncStream, hq] at hr
    subst hr
    refine ⟨m, e, ?_, ?_⟩
    · exact (Memory.touches_writePair s.mem q.1.1 q.1.2 (by omega)).trans (ht.mono (by omega) (by omega))
    · rw [Memory.pairs_succ, hp, ht.word (i := i) (.inl (by omega)),
          ht.word (i := i + 1) (.inl (by omega)), Memory.pair_writePair]

theorem ar2EncStream_length (ps : List Pair) (seed : Word) (n : Nat) : (ar2EncStream ps seed n).1.length = ps.length := by
  induction ps generalizing seed n with
  | nil => rfl
  | cons p ps ih => simp only [ar2EncStream, List.length_cons, ih]

theorem ar2DecStream_length (ps : List Pair) (seed : Word) (n : Nat) :
    (ar2DecStream ps seed n).1.length ≤ ps.length := by
  induction ps generalizing seed n with
  | nil => exact Nat.le_refl _
  | cons p ps ih =>
    simp only [ar2DecStream]
    split
    · exact (ih ..).trans (by simp)
    · simp only [List.length_cons]; exact Nat.succ_le_succ (ih ..)

/-! ## GS3+ -/

theorem gs3FirstLine_withGs3Of (f : BitVec 3 → Gs3Tables → Pair → Pair) (k : BitVec 3) (x : Pair) (s r : State) :
    gs3FirstLine f k x (s.withGs3Of r) = ((gs3FirstLine f k x r).1, s.withGs3Of (gs3FirstLine f k x r).2) := by
  rw [gs3FirstLine, gs3FirstLine]
  by_cases h1 : k = 1 ∨ k = 2
  · rw [if_pos h1, if_pos h1]; rfl
  · rw [if_neg h1, if_neg h1]
    by_cases h2 : k = 3 ∨ k = 4
    · rw [if_pos h2, if_pos h2]; rfl
    · rw [if_neg h2, if_neg h2]
      by_cases h3 : k = 7
      · rw [if_pos h3, if_pos h3]; rfl
      · rw [if_neg h3, if_neg h3]

/-- A pair operation reads and writes only the GS3+ state. -/
theorem gs3DecPair_withGs3Of (x : Pair) (s r : State) :
    gs3DecPair x (s.withGs3Of r) = ((gs3DecPair x r).1, s.withGs3Of (gs3DecPair x r).2) := by
  have e1 : (s.withGs3Of r).gs3l = r.gs3l := rfl
  rw [gs3DecPair, gs3DecPair, e1]
  cases r.gs3l with
  | true => rfl
  | false =>
    simp only [Bool.false_eq_true, if_false]
    exact gs3FirstLine_withGs3Of ..

theorem gs3EncPair_withGs3Of (key : BitVec 3) (x : Pair) (s r : State) :
    gs3EncPair key x (s.withGs3Of r) = ((gs3EncPair key x r).1, s.withGs3Of (gs3EncPair key x r).2) := by
  have e1 : (s.withGs3Of r).gs3l = r.gs3l := rfl
  rw [gs3EncPair, gs3EncPair, e1]
  cases r.gs3l with
  | true => rfl
  | false =>
    simp only [Bool.false_eq_true, if_false]
    exact gs3FirstLine_withGs3Of ..

theorem gs3DecPair_frame (x : Pair) (s : State) : (gs3DecPair x s).2 = s.withGs3Of (gs3DecPair x s).2 :=
  congrArg Prod.snd (gs3DecPair_withGs3Of x s s)

theorem gs3EncPair_frame (key : BitVec 3) (x : Pair) (s : State) :
    (gs3EncPair key x s).2 = s.withGs3Of (gs3EncPair key x s).2 :=
  congrArg Prod.snd (gs3EncPair_withGs3Of key x s s)

theorem gs3DecStream_withGs3Of (ps : List Pair) (s r : State) :
    gs3DecStream ps (s.withGs3Of r) = ((gs3DecStream ps r).1, s.withGs3Of (gs3DecStream ps r).2) := by
  induction ps generalizing r with
  | nil => rfl
  | cons p ps ih =>
    simp only [gs3DecStream, gs3DecPair_withGs3Of, ih]
    split <;> rfl

theorem gs3EncStream_withGs3Of (key : BitVec 3) (ps : List Pair) (s r : State) :
    gs3EncStream key ps (s.withGs3Of r) = ((gs3EncStream key ps r).1, s.withGs3Of (gs3EncStream key ps r).2) := by
  induction ps generalizing r with
  | nil => rfl
  | cons p ps ih => simp only [gs3EncStream, gs3EncPair_withGs3Of, ih]

theorem gs3EncStream_length (key : BitVec 3) (ps : List Pair) (s : State) :
    (gs3EncStream key ps s).1.length = ps.length := by
  induction ps generalizing s with
  | nil => rfl
  | cons p ps ih => simp only [gs3EncStream, List.length_cons, ih]

theorem gs3DecStream_length (ps : List Pair) (s : State) : (gs3DecStream ps s).1.length ≤ ps.length := by
  induction ps generalizing s with
  | nil => exact Nat.le_refl _
  | cons p ps ih =>
    simp only [gs3DecStream]
    split
    · exact (ih _).trans (by simp)
    · simp only [List.length_cons]; exact Nat.succ_le_succ (ih _)

theorem gs3DecPair_mem (x : Pair) (s : State) (m : Memory) (l d : Nat) :
    gs3DecPair x { s with mem := m, len := l, draws := d } =
      ((gs3DecPair x s).1, { (gs3DecPair x s).2 with mem := m, len := l, draws := d }) := by
  have h := gs3DecPair_withGs3Of x { s with mem := m, len := l, draws := d } s
  have h2 := gs3DecPair_frame x s
  rw [show ({ s with mem := m, len := l, draws := d } : State).withGs3Of s =
    { s with mem := m, len := l, draws := d } from rfl] at h
  rw [h, h2]; rfl

/-- The GS3+ state a stream ends in does not depend on the rest of the state. -/
theorem gs3DecStream_mem (ps : List Pair) (s : State) (m : Memory) (l d : Nat) :
    gs3DecStream ps { s with mem := m, len := l, draws := d } =
      ((gs3DecStream ps s).1, { s with mem := m, len := l, draws := d }.withGs3Of (gs3DecStream ps s).2) :=
  gs3DecStream_withGs3Of ps { s with mem := m, len := l, draws := d } s

theorem gs3BatchDec_succ (n i : Nat) (s : State) (r : Gs3Result) (s1 : State)
    (hq : gs3DecPair (s.mem.readWord i, s.mem.readWord (i + 1)) s = (r, s1)) :
    gs3BatchDec (n + 1) i s =
      if r.flags.getLsbD 0 then gs3BatchDec n i (s1.removeWords (i + 1) 2)
      else gs3BatchDec n (i + 2) { s1 with mem := (s1.mem.writeWord i r.pair.1).writeWord (i + 1) r.pair.2 } := by
  rw [gs3BatchDec]
  simp only [State.memRead, hq]
  rfl

theorem gs3BatchEnc_succ (key : BitVec 3) (n i : Nat) (s : State) (r : Gs3Result) (s1 : State)
    (hq : gs3EncPair key (s.mem.readWord i, s.mem.readWord (i + 1)) s = (r, s1)) :
    gs3BatchEnc key (n + 1) i s =
      gs3BatchEnc key n (i + 2) { s1 with mem := (s1.mem.writeWord i r.pair.1).writeWord (i + 1) r.pair.2 } := by
  rw [gs3BatchEnc]
  simp only [State.memRead, hq]
  rfl

/-- Everything `GS3_BDEC`'s loop does to the last `n` pairs of the buffer (R179). -/
theorem gs3BatchDec_spec (n i : Nat) (s : State) (h : i + 2 * n = s.len) (r : List Pair × State)
    (hr : gs3DecStream (s.mem.pairs i n) s = r) :
    ∃ m, gs3BatchDec n i s = { s.withGs3Of r.2 with
        mem := m, len := i + 2 * r.1.length, draws := s.draws + 2 * (n - r.1.length) } ∧
      s.mem.Touches m i s.len ∧ m.pairs i r.1.length = r.1 := by
  induction n generalizing i s r with
  | zero =>
    subst hr
    have hi : i = s.len := by omega
    exact ⟨s.mem, by rw [hi]; rfl, .refl .., rfl⟩
  | succ n ih =>
    obtain ⟨⟨q, s1⟩, hq⟩ : ∃ q, gs3DecPair (s.mem.readWord i, s.mem.readWord (i + 1)) s = q := ⟨_, rfl⟩
    have hf : s1 = s.withGs3Of s1 := by
      have := gs3DecPair_frame (s.mem.readWord i, s.mem.readWord (i + 1)) s
      rwa [hq] at this
    have hm : s1.mem = s.mem := by rw [hf]; rfl
    have hl : s1.len = s.len := by rw [hf]; rfl
    have hd : s1.draws = s.draws := by rw [hf]; rfl
    have hlen := gs3DecStream_length (s.mem.pairs (i + 2) n) s1
    rw [Memory.pairs_length] at hlen
    rw [Memory.pairs_succ, gs3DecStream, hq] at hr
    rw [gs3BatchDec_succ n i s q s1 hq]
    simp only at hr
    by_cases hb : q.flags.getLsbD 0 = true
    · rw [if_pos hb] at hr ⊢
      obtain ⟨m1, e1, ht1, hp1⟩ := State.removePair_spec s1 i n (by rw [hl]; exact h)
      rw [e1]
      rw [hm] at ht1 hp1
      obtain ⟨m, e, ht, hp⟩ := ih i { s1 with mem := m1, len := s1.len - 2, draws := s1.draws + 2 }
        (by simp only; omega) _ (by simp only [hp1]; exact gs3DecStream_mem ..)
      subst hr
      refine ⟨m, ?_, (ht1.mono (Nat.le_refl _) (by omega)).trans (ht.mono (Nat.le_refl _) (by simp only; omega)), hp⟩
      rw [e]
      have hx : s1.draws + 2 + 2 * (n - (gs3DecStream (s.mem.pairs (i + 2) n) s1).1.length) =
          s.draws + 2 * (n + 1 - (gs3DecStream (s.mem.pairs (i + 2) n) s1).1.length) := by omega
      simp only [hx]
      rw [hf]; rfl
    · rw [if_neg hb] at hr ⊢
      have hw : ((s1.mem.writeWord i q.pair.1).writeWord (i + 1) q.pair.2).pairs (i + 2) n = s.mem.pairs (i + 2) n := by
        rw [← hm]
        exact Memory.Touches.pairs (Memory.touches_writePair s1.mem q.pair.1 q.pair.2 (Nat.le_refl (i + 2)))
          (.inr (Nat.le_refl _))
      obtain ⟨m, e, ht, hp⟩ := ih (i + 2)
        { s1 with mem := (s1.mem.writeWord i q.pair.1).writeWord (i + 1) q.pair.2 } (by simp only; omega) _
        (by simp only [hw]; exact gs3DecStream_mem _ s1 _ s1.len s1.draws)
      subst hr
      refine ⟨m, ?_, ?_, ?_⟩
      · rw [e]
        have hx : s1.draws + 2 * (n - (gs3DecStream (s.mem.pairs (i + 2) n) s1).1.length) =
            s.draws + 2 * (n + 1 - ((gs3DecStream (s.mem.pairs (i + 2) n) s1).1.length + 1)) := by omega
        have hy : i + 2 + 2 * (gs3DecStream (s.mem.pairs (i + 2) n) s1).1.length =
            i + 2 * ((gs3DecStream (s.mem.pairs (i + 2) n) s1).1.length + 1) := by omega
        simp only [hx, hy, List.length_cons]
        rw [hf]; rfl
      · have := (Memory.touches_writePair s1.mem q.pair.1 q.pair.2 (i := i) (hi := s.len) (by omega)).trans
          (ht.mono (by omega) (by simp only; omega))
        rwa [hm] at this
      · simp only at hp ht
        rw [List.length_cons, Memory.pairs_succ, hp, ht.word (i := i) (.inl (by omega)),
          ht.word (i := i + 1) (.inl (by omega)), Memory.pair_writePair]

/-- Everything `GS3_BENC`'s loop does to `n` pairs (R180). -/
theorem gs3BatchEnc_spec (key : BitVec 3) (n i : Nat) (s : State) (r : List Pair × State)
    (hr : gs3EncStream key (s.mem.pairs i n) s = r) :
    ∃ m, gs3BatchEnc key n i s = { s.withGs3Of r.2 with mem := m } ∧
      s.mem.Touches m i (i + 2 * n) ∧ m.pairs i n = r.1 := by
  induction n generalizing i s r with
  | zero => subst hr; exact ⟨s.mem, rfl, .refl .., rfl⟩
  | succ n ih =>
    obtain ⟨⟨q, s1⟩, hq⟩ : ∃ q, gs3EncPair key (s.mem.readWord i, s.mem.readWord (i + 1)) s = q := ⟨_, rfl⟩
    have hf : s1 = s.withGs3Of s1 := by
      have := gs3EncPair_frame key (s.mem.readWord i, s.mem.readWord (i + 1)) s
      rwa [hq] at this
    have hm : s1.mem = s.mem := by rw [hf]; rfl
    rw [Memory.pairs_succ, gs3EncStream, hq] at hr
    rw [gs3BatchEnc_succ key n i s q s1 hq]
    simp only at hr
    have hw : ((s1.mem.writeWord i q.pair.1).writeWord (i + 1) q.pair.2).pairs (i + 2) n = s.mem.pairs (i + 2) n := by
      rw [← hm]
      exact Memory.Touches.pairs (Memory.touches_writePair s1.mem q.pair.1 q.pair.2 (Nat.le_refl (i + 2)))
        (.inr (Nat.le_refl _))
    obtain ⟨m, e, ht, hp⟩ := ih (i + 2)
      { s1 with mem := (s1.mem.writeWord i q.pair.1).writeWord (i + 1) q.pair.2 } _
      (by simp only [hw]; exact gs3EncStream_withGs3Of key _
            { s1 with mem := (s1.mem.writeWord i q.pair.1).writeWord (i + 1) q.pair.2 } s1)
    subst hr
    refine ⟨m, ?_, ?_, ?_⟩
    · rw [e, hf]; rfl
    · have := (Memory.touches_writePair s1.mem q.pair.1 q.pair.2 (i := i) (hi := i + 2 * (n + 1)) (by omega)).trans
        (ht.mono (by omega) (by omega))
      rwa [hm] at this
    · simp only at hp ht
      rw [Memory.pairs_succ, hp, ht.word (i := i) (.inl (by omega)), ht.word (i := i + 1) (.inl (by omega)),
        Memory.pair_writePair]

end Sys2Proof.Machine
end

