-- ==== Sys2Proof/Laws/Block.lean ====
section
/-! SUPPORT. What the ARMAX batch operations do to the buffer, said over the list of its words. -/

namespace Sys2Proof.Machine

/-- The pairs of a buffer; a last odd word is in none (R60). -/
theorem pairsOf_words (m : Memory) (i len : Nat) : pairsOf (m.words i len) = m.pairs i (len / 2) := by
  obtain ⟨k, h | h⟩ : ∃ k, len = 2 * k ∨ len = 2 * k + 1 := ⟨len / 2, by omega⟩
  · subst h
    rw [Memory.pairs_eq_pairsOf_words, Nat.mul_div_cancel_left _ (by omega)]
  · subst h
    rw [show (2 * k + 1) / 2 = k by omega]
    induction k generalizing i with
    | zero => rfl
    | succ k ih =>
      rw [show 2 * (k + 1) + 1 = (2 * k + 1) + 2 by omega]
      rw [Memory.words, Memory.words, pairsOf, Memory.pairs_succ]
      exact congrArg _ (ih (i + 2))

theorem wordsOf_pairsOf (ws : List Word) (h : ws.length % 2 = 0) : wordsOf (pairsOf ws) = ws := by
  match ws with
  | [] => rfl
  | [_] => simp at h
  | a :: v :: rest =>
    simp only [pairsOf, wordsOf]
    rw [wordsOf_pairsOf rest (by simp only [List.length_cons] at h; omega)]

theorem pairsOf_length (ws : List Word) : (pairsOf ws).length = ws.length / 2 := by
  match ws with
  | [] => rfl
  | [_] => simp [pairsOf]
  | a :: v :: rest =>
    simp only [pairsOf, List.length_cons]
    rw [pairsOf_length rest]; omega

theorem setFirstNibble_length (n : BitVec 4) (ws : List Word) : (setFirstNibble n ws).length = ws.length := by
  cases ws <;> rfl

theorem setFirstNibble_setFirstNibble (n n' : BitVec 4) (ws : List Word) :
    setFirstNibble n' (setFirstNibble n ws) = setFirstNibble n' ws := by
  cases ws with
  | nil => rfl
  | cons w ws => simp [setFirstNibble]

theorem cipherWords_length (S : Vector Word 32) (ws : List Word) (h : ws.length % 2 = 0) :
    (cipherWords S ws).length = ws.length := by
  rw [cipherWords, wordsOf_length, List.length_map, pairsOf_length]; omega

/-- Every pair of an even buffer put through a function. -/
theorem Memory.words_mapPairs (m : Memory) (f : Pair → Pair) (len : Nat) (h : len % 2 = 0) :
    (m.mapPairs f (len / 2) 0).words 0 len = wordsOf ((pairsOf (m.words 0 len)).map f) := by
  obtain ⟨k, rfl⟩ : ∃ k, len = 2 * k := ⟨len / 2, by omega⟩
  rw [pairsOf_words, ← Memory.pairs_mapPairs, Nat.mul_div_cancel_left _ (by omega), Memory.words_eq_wordsOf_pairs]

theorem Memory.touches_cipher (m : Memory) (f : Pair → Pair) (len : Nat) :
    m.Touches (m.mapPairs f (len / 2) 0) 0 len :=
  (Memory.touches_mapPairs f (len / 2) 0 m).mono (Nat.le_refl 0) (by omega)

/-- Everything `AxBlockEnc()` does (R136). -/
theorem axBlockEnc_spec (S : Vector Word 32) (m : Memory) (len : Nat) (h : len % 2 = 0) (h2 : 2 ≤ len) :
    (axBlockEnc Config.ax S m len).words 0 len = cipherWords S (withCrcNibble (m.words 0 len)) ∧
      m.Touches (axBlockEnc Config.ax S m len) 0 len := by
  refine ⟨?_, ?_⟩
  · rw [axBlockEnc, Memory.words_mapPairs _ _ _ h, Memory.words_setNibble, Memory.words_setNibble, setFirstNibble_setFirstNibble]
    rfl
  · exact (Memory.touches_setNibble m 0 (by omega)).trans
      ((Memory.touches_setNibble _ _ (by omega)).trans (Memory.touches_cipher _ _ len))

/-- Everything `AxBlockDec()` does (R135). -/
theorem axBlockDec_spec (S : Vector Word 32) (m : Memory) (len : Nat) (h : len % 2 = 0) (h2 : 2 ≤ len)
    (ws plain : List Word) (hws : ws = cipherWords S (m.words 0 len)) (hp : plain = setFirstNibble 0 ws) :
    (axBlockDec Config.ax S m len).1.words 0 len = plain ∧
      ((axBlockDec Config.ax S m len).2 = true ↔ foldNibble (crc16 Config.ax plain) = nibbleSlot (ws.headD 0)) ∧
      m.Touches (axBlockDec Config.ax S m len).1 0 len := by
  have e1 : (m.mapPairs (kernel Config.ax.sp S) (len / 2) 0).words 0 len = ws := by
    rw [Memory.words_mapPairs _ _ _ h, hws]; rfl
  have e2 : ((m.mapPairs (kernel Config.ax.sp S) (len / 2) 0).setNibble 0).words 0 len = plain := by
    rw [Memory.words_setNibble, e1, hp]
  have e3 : (m.mapPairs (kernel Config.ax.sp S) (len / 2) 0).readWord 0 = ws.headD 0 := by
    rw [← e1]
    obtain ⟨n, rfl⟩ : ∃ n, len = n + 1 := ⟨len - 1, by omega⟩
    rfl
  refine ⟨e2, ?_, ?_⟩
  · rw [axBlockDec]
    simp only [e2, e3, beq_iff_eq]
  · exact (Memory.touches_cipher m _ len).trans (Memory.touches_setNibble _ _ (by omega))

/-- The CRC of a sequence goes on from the CRC of its beginning (R131). -/
theorem crc16_append (P : AxParams) (ws vs : List Word) : crc16 P (ws ++ vs) = vs.foldl (crcWord P) (crc16 P ws) :=
  List.foldl_append

/-- The table indices of one CRC step, from `x = (byte ^ c) & 0xFF` (R131). -/
theorem crcByte_eq (P : AxParams) (c : Half) (w : Word) (b : Nat) (x : Half)
    (hx : x = ((w >>> (8 * b)).setWidth 16 ^^^ c) &&& 0xFF#16) :
    crcByte P c (byteOf w b) = P.crcT0 ((x >>> 4).setWidth 4) ^^^ P.crcT1 ((x &&& 0xF#16).setWidth 4) ^^^ (c >>> 8) := by
  have high : (byteOf w b ^^^ c.setWidth 8).extractLsb' 4 4 = (x >>> 4).setWidth 4 := by
    subst hx
    apply BitVec.eq_of_getLsbD_eq
    intro i hi
    interval_cases i <;> simp [byteOf]
  have low : (byteOf w b ^^^ c.setWidth 8).extractLsb' 0 4 = (x &&& 0xF#16).setWidth 4 := by
    subst hx
    apply BitVec.eq_of_getLsbD_eq
    intro i hi
    interval_cases i <;> simp [byteOf]
  simp only [crcByte, high, low]

/-- The CRC over a buffer with the slot read as 0 (R133, R134). -/
theorem slotFreeCrc_eq (m : Memory) (len : Nat) :
    slotFreeCrc Config.ax m len = crc16 Config.ax (setFirstNibble 0 (m.words 0 len)) := by
  rw [slotFreeCrc, Memory.words_setNibble]

/-- Everything the payload byte swap does (R139). -/
theorem swapPayload_spec (s : State) (p : Nat) (h : p ≤ s.len) :
    ∃ m, s.swapPayload p = { s with mem := m } ∧ s.mem.Touches m p s.len ∧
      m.words p (s.len - p) = (s.mem.words p (s.len - p)).map bswap32 := by
  refine ⟨_, rfl, ?_, Memory.words_mapWords ..⟩
  have := Memory.touches_mapWords bswap32 (s.len - p) p s.mem
  rwa [Nat.add_sub_cancel' h] at this

theorem masterBit_eq (m : Memory) (n i : Nat) : masterBit m n i = (m.pairs i n).any fun p => isMasterCode p.1 := by
  induction n generalizing i with
  | zero => rfl
  | succ n ih => rw [masterBit, ih, Memory.pairs_succ, List.any_cons]

/-- The words from index `p` on and those before it. -/
theorem Memory.words_drop (m : Memory) (p len : Nat) (h : p ≤ len) : (m.words 0 len).drop p = m.words p (len - p) := by
  obtain ⟨k, rfl⟩ : ∃ k, len = p + k := ⟨len - p, by omega⟩
  rw [Memory.words_append, Nat.add_sub_cancel_left, Nat.zero_add]
  rw [List.drop_append_of_le_length (by simp), List.drop_of_length_le (by simp), List.nil_append]

theorem Memory.words_take (m : Memory) (p len : Nat) (h : p ≤ len) : (m.words 0 len).take p = m.words 0 p := by
  obtain ⟨k, rfl⟩ : ∃ k, len = p + k := ⟨len - p, by omega⟩
  rw [Memory.words_append, List.take_append_of_le_length (by simp), List.take_of_length_le (by simp)]

end Sys2Proof.Machine
end

