-- ==== Sys2Proof/Laws/Generator.lean ====
section
/-! SUPPORT. What a run of draws, a swap, the shuffle's passes and a reseed do (R166, R169, R170). -/

namespace Sys2Proof.Machine

@[simp] theorem drawList_length (P : Gs3Params) (n : Nat) (r : Rng) : (drawList P n r).1.length = n := by
  induction n generalizing r with
  | zero => rfl
  | succ n ih => simp [drawList, ih]

/-- One swap, entry by entry (R169). -/
theorem swapEntries_getElem {n : Nat} (T : Vector (Fin n) n) (i j m : Fin n) :
    (swapEntries T i.val j.val)[m] = if m = i then T[j] else if m = j then T[i] else T[m] := by
  have hj : j.val = m.val ↔ m = j := by rw [Fin.ext_iff]; exact eq_comm
  have hi : i.val = m.val ↔ m = i := by rw [Fin.ext_iff]; exact eq_comm
  rw [swapEntries, dif_pos ⟨i.isLt, j.isLt⟩]
  simp only [Fin.getElem_fin, Vector.getElem_set, hi, hj]
  by_cases h1 : m = j
  · subst h1
    by_cases h2 : m = i
    · simp [h2]
    · simp [h2]
  · by_cases h2 : m = i
    · simp [h2]
      rintro rfl; rfl
    · simp [h1, h2]

/-- Passes `k` to `k + m + m' - 1` are the first `m` of them and then the others (R169). -/
theorem shufflePasses_add (P : Gs3Params) {n : Nat} (m m' k : Nat) (T : Vector (Fin n) n) (r : Rng) :
    shufflePasses P (m + m') k T r =
      shufflePasses P m' (k + m) (shufflePasses P m k T r).1 (shufflePasses P m k T r).2 := by
  induction m generalizing k T r with
  | zero => simp [shufflePasses]
  | succ m ih =>
    rw [show m + 1 + m' = (m + m') + 1 by omega, show k + (m + 1) = k + 1 + m by omega]
    exact ih ..

/-- The generator at the start of a later table (R170). -/
theorem reseed_eq (P : Gs3Params) (t : Fin 3) (s : Seeds) (r : Rng) :
    reseed P t s r = ((P.tblSeed t s).map P.rngSeed).getD r := by
  unfold reseed; split <;> simp [*]

end Sys2Proof.Machine
end

