-- ==== Sys2Proof/Laws/Kernel.lean ====
section
/-! SUPPORT. The parts of the ARMAX kernel undone one by one: masked swaps, the two networks and the rounds. -/

namespace Sys2Proof.Machine

/-! ## Masked swaps -/

/-- Exchanging the halves commutes with a masked swap. -/
theorem maskedSwap_swap (k a v : Word) : maskedSwap k (v, a) = ((maskedSwap k (a, v)).2, (maskedSwap k (a, v)).1) := by
  simp only [maskedSwap, BitVec.xor_comm v a]

theorem maskedSwap_maskedSwap (k : Word) (p : Word × Word) : maskedSwap k (maskedSwap k p) = p := by
  obtain ⟨a, v⟩ := p
  have e : (a ^^^ (a ^^^ v) &&& k) ^^^ (v ^^^ (a ^^^ v) &&& k) = a ^^^ v := by
    apply BitVec.eq_of_getLsbD_eq
    intro i hi
    simp only [BitVec.getLsbD_xor, BitVec.getLsbD_and]
    cases a.getLsbD i <;> cases v.getLsbD i <;> cases k.getLsbD i <;> rfl
  simp only [maskedSwap, e, BitVec.xor_assoc, BitVec.xor_self, BitVec.xor_zero]

/-- A masked swap undone with the halves exchanged in between. -/
theorem maskedSwap_undo (k a v : Word) :
    maskedSwap k ((maskedSwap k (a, v)).2, (maskedSwap k (a, v)).1) = (v, a) := by
  rw [← maskedSwap_swap, maskedSwap_maskedSwap]

/-! ## The two networks (R121) -/

theorem scramble_unscramble (a v : Word) : scramble (unscramble a v).2 (unscramble a v).1 = (v, a) := by
  simp only [unscramble, scramble]
  rw [rotl32_rotr32 _ 4 (by omega) (by omega), maskedSwap_undo, rotr32_rotl32 _ 20 (by omega) (by omega),
    maskedSwap_undo, rotr32_rotl32 _ 18 (by omega) (by omega), maskedSwap_undo, rotr32_rotl32 _ 6 (by omega) (by omega),
    maskedSwap_undo, rotl32_rotr32 _ 9 (by omega) (by omega), maskedSwap_undo, rotl32_rotr32 _ 1 (by omega) (by omega)]

theorem unscramble_scramble (a v : Word) : unscramble (scramble a v).2 (scramble a v).1 = (v, a) := by
  simp only [unscramble, scramble]
  rw [rotr32_rotl32 _ 1 (by omega) (by omega), maskedSwap_undo, rotr32_rotl32 _ 9 (by omega) (by omega),
    maskedSwap_undo, rotl32_rotr32 _ 6 (by omega) (by omega), maskedSwap_undo, rotl32_rotr32 _ 18 (by omega) (by omega),
    maskedSwap_undo, rotl32_rotr32 _ 20 (by omega) (by omega), maskedSwap_undo, rotr32_rotl32 _ 4 (by omega) (by omega)]

/-! ## The rounds (R121) -/

/-- Rounds over two lists, the first of even length. -/
theorem rounds_append (sp : Fin 8 → BitVec 6 → Word) : (n : Nat) → (ks ls : List (Word × Word)) → (av : Word × Word) →
    ks.length = 2 * n → rounds sp (ks ++ ls) av = rounds sp ls (rounds sp ks av)
  | 0, [], _, _, _ => rfl
  | 0, _ :: _, _, _, h => by simp at h
  | _ + 1, [], _, _, h => by simp at h
  | _ + 1, [_], _, _, h => by simp only [List.length_cons, List.length_nil] at h; omega
  | n + 1, _ :: _ :: ks, ls, _, h => by
    simp only [List.cons_append, rounds]
    exact rounds_append sp n ks ls _ (by simp only [List.length_cons] at h; omega)

/-- The rounds in the reverse order, with the halves exchanged, undo the rounds. -/
theorem rounds_reverse (sp : Fin 8 → BitVec 6 → Word) : (n : Nat) → (ks : List (Word × Word)) → (a v : Word) →
    ks.length = 2 * n →
    rounds sp ks.reverse ((rounds sp ks (a, v)).2, (rounds sp ks (a, v)).1) = (v, a)
  | 0, [], _, _, _ => rfl
  | 0, _ :: _, _, _, h => by simp at h
  | _ + 1, [], _, _, h => by simp at h
  | _ + 1, [_], _, _, h => by simp only [List.length_cons, List.length_nil] at h; omega
  | n + 1, k :: k' :: ks, a, v, h => by
    have hl : ks.length = 2 * n := by simp only [List.length_cons] at h; omega
    simp only [rounds, List.reverse_cons, List.append_assoc, List.singleton_append]
    rw [rounds_append sp n _ _ _ (by simpa using hl), rounds_reverse sp n ks _ _ hl]
    simp only [rounds, BitVec.xor_assoc, BitVec.xor_self, BitVec.xor_zero]

theorem schedulePairs_length (S : Vector Word 32) : (schedulePairs S).length = 16 := by
  simp [schedulePairs]

/-- Reversing a schedule's pairs reverses the list of its pairs (R119). -/
theorem schedulePairs_reversePairs (S : Vector Word 32) : schedulePairs (reversePairs S) = (schedulePairs S).reverse := by
  apply List.ext_getElem
  · simp [schedulePairs]
  · intro i h1 h2
    simp only [schedulePairs_length] at h1
    simp only [schedulePairs, List.getElem_map, List.getElem_reverse, List.getElem_finRange, List.length_map,
      List.length_finRange, reversePairs, tabulate_getElem, Fin.val_cast]
    congr 1
    · congr 1; omega
    · congr 1; omega

/-! ## Schedules -/

/-- Reversing the pairs twice gives the schedule back. -/
theorem reversePairs_reversePairs (S : Vector Word 32) : reversePairs (reversePairs S) = S := by
  apply Vector.ext
  intro i hi
  simp only [reversePairs, tabulate_getElem]
  congr 1; omega

/-- The bits a fold of guarded `|||` collects. -/
theorem getLsbD_foldl_or {n : Nat} (l : List (Fin n)) (c : Fin n → Bool) (f : Fin n → Byte) (acc : Byte) (b : Nat) :
    (l.foldl (fun acc m => if c m then acc ||| f m else acc) acc).getLsbD b = true ↔
      acc.getLsbD b = true ∨ ∃ m ∈ l, c m = true ∧ (f m).getLsbD b = true := by
  induction l generalizing acc with
  | nil => simp
  | cons x l ih =>
    rw [List.foldl_cons, ih]
    by_cases hx : c x = true
    · simp [hx, or_assoc]
    · simp [hx]

/-- A bit of a packed byte is set by one of its six flags through that flag's mask (R117). -/
theorem packedByte_getLsbD (P : AxParams) (i : Fin 16) (k : Fin 8) (b : Nat) :
    (packedByte P i k).getLsbD b = true ↔
      ∃ m : Fin 6, rotatedFlag P i (P.pc2 ⟨6 * k.val + m.val, by omega⟩) = true ∧
        (P.mask6 m).getLsbD (b + 2) = true := by
  rw [packedByte]
  refine (getLsbD_foldl_or (List.finRange 6) (fun m => rotatedFlag P i (P.pc2 ⟨6 * k.val + m.val, by omega⟩))
    (fun m => P.mask6 m >>> 2) 0 b).trans ?_
  simp [Nat.add_comm]

/-- The two words of output pair `i` in the encrypt schedule (R118). -/
theorem schedEncrypt_pair (P : AxParams) (i : Fin 16) :
    (schedEncrypt P)[2 * i.val] = (schedulePair P i).1 ∧ (schedEncrypt P)[2 * i.val + 1] = (schedulePair P i).2 := by
  have h : (2 * i.val + 1) / 2 = i.val := by omega
  constructor
  · simp [schedEncrypt, pairWord]
  · simp [schedEncrypt, pairWord, h]

end Sys2Proof.Machine
end

