-- ==== Sys2Proof/Laws/PerInstr.lean ====
section
/-! SUPPORT. Families of laws with one lemma per command: `OpcodeListed`, that a command's word carries an opcode the map
lists and no reserved bit. -/

namespace Sys2Proof.Laws.OpcodeListed

/-- R52, R54: the opcode field of the command's word is one the map lists, and `RSV` is 0. -/
def Statement (i : Instr) : Prop :=
  (opcodeMap.any fun r => r.opc == opcField (encode i)) = true ∧ rsvField (encode i) = 0

theorem of_commandWord {opc imm : Byte} (h : (opcodeMap.any fun r => r.opc == opc) = true) :
    (opcodeMap.any fun r => r.opc == opcField (commandWord opc imm)) = true ∧ rsvField (commandWord opc imm) = 0 := by
  have e1 : opcField (commandWord opc imm) = opc := by
    apply BitVec.eq_of_getLsbD_eq; intro k hk
    simp [opcField, commandWord, hk]
    intro h8; omega
  have e2 : rsvField (commandWord opc imm) = 0 := by
    apply BitVec.eq_of_getLsbD_eq; intro k hk
    simp [rsvField, commandWord, hk]
    exact ⟨fun _ => BitVec.getLsbD_of_ge _ _ (by omega), fun _ _ _ => BitVec.getLsbD_of_ge _ _ (by omega)⟩
  rw [e1]; exact ⟨h, e2⟩

theorem nop : Statement .nop := ⟨by decide, by decide⟩
theorem bufAppend : Statement .bufAppend := ⟨by decide, by decide⟩
theorem bufPrepend : Statement .bufPrepend := ⟨by decide, by decide⟩
theorem bufRemove : Statement .bufRemove := ⟨by decide, by decide⟩
theorem batchReset : Statement .batchReset := ⟨by decide, by decide⟩
theorem ar2SetSeed : Statement .ar2SetSeed := ⟨by decide, by decide⟩
theorem ar2GetSeed : Statement .ar2GetSeed := ⟨by decide, by decide⟩
theorem ar2DecW : Statement .ar2DecW := ⟨by decide, by decide⟩
theorem ar2EncW : Statement .ar2EncW := ⟨by decide, by decide⟩
theorem ar2BDec : Statement .ar2BDec := ⟨by decide, by decide⟩
theorem ar2BEnc : Statement .ar2BEnc := ⟨by decide, by decide⟩
theorem ar1BDec : Statement .ar1BDec := ⟨by decide, by decide⟩
theorem ar1BEnc : Statement .ar1BEnc := ⟨by decide, by decide⟩
theorem axDecB : Statement .axDecB := ⟨by decide, by decide⟩
theorem axEncB : Statement .axEncB := ⟨by decide, by decide⟩
theorem axCrc : Statement .axCrc := ⟨by decide, by decide⟩
theorem axBDec : Statement .axBDec := ⟨by decide, by decide⟩
theorem axBEnc : Statement .axBEnc := ⟨by decide, by decide⟩
theorem axRdVer : Statement .axRdVer := ⟨by decide, by decide⟩
theorem axMkVer : Statement .axMkVer := ⟨by decide, by decide⟩
theorem axLDec : Statement .axLDec := ⟨by decide, by decide⟩
theorem axLEnc : Statement .axLEnc := ⟨by decide, by decide⟩
theorem curSet : Statement .curSet := ⟨by decide, by decide⟩
theorem curRead (n : Byte) : Statement (.curRead n) := of_commandWord (by decide)
theorem gs3SetSeeds : Statement .gs3SetSeeds := ⟨by decide, by decide⟩
theorem gs3DecP : Statement .gs3DecP := ⟨by decide, by decide⟩
theorem gs3EncP (n : Byte) : Statement (.gs3EncP n) := of_commandWord (by decide)
theorem gs3BDec : Statement .gs3BDec := ⟨by decide, by decide⟩
theorem gs3BEnc (n : Byte) : Statement (.gs3BEnc n) := of_commandWord (by decide)
theorem gs3RngSeed : Statement .gs3RngSeed := ⟨by decide, by decide⟩
theorem gs3RngNext : Statement .gs3RngNext := ⟨by decide, by decide⟩

end Sys2Proof.Laws.OpcodeListed
end

