-- ==== Sys2Proof/Laws/Text.lean ====
section
/-! SUPPORT. The alphabet of the text format read both ways, and the packing of its symbols (R67, R155). -/

namespace Sys2Proof.Machine

@[simp] theorem charSymbol_symbolChar : ∀ v : BitVec 5, charSymbol (symbolChar v) = some v := by decide

/-- The character at the position found is the one looked for. -/
theorem positionOf_some {c : Char} {l : List Char} {n : Nat} (h : positionOf c l = some n) :
    n < l.length ∧ l.getD n '0' = c := by
  induction l generalizing n with
  | nil => simp [positionOf] at h
  | cons d ds ih =>
    simp only [positionOf] at h
    split at h
    · next e => cases h; simp [e]
    · obtain ⟨m, hm, rfl⟩ := Option.map_eq_some_iff.1 h
      simpa using ih hm

/-- A character has the value of no other symbol. -/
theorem symbolChar_of_charSymbol {c : Char} {v : BitVec 5} (h : charSymbol c = some v) : symbolChar v = c := by
  obtain ⟨n, hn, rfl⟩ := Option.map_eq_some_iff.1 h
  obtain ⟨h1, h2⟩ := positionOf_some hn
  have h3 : n < 32 := h1
  rw [symbolChar, BitVec.toNat_ofNat, Nat.mod_eq_of_lt h3, h2]

/-- Symbol `k` of the 65 bits as a number (R155). -/
theorem textSymbol_toNat (v : BitVec 65) (k : Nat) : (textSymbol v k).toNat = (v >>> (60 - 5 * k)).toNat % 32 := by
  simp [textSymbol, BitVec.extractLsb'_toNat]

/-- The parity of a line counts its bits (R155). -/
theorem lineParity_iff (x : BitVec 64) :
    lineParity x = true ↔ ((List.range 64).countP fun i => x.getLsbD i) % 2 = 1 := by
  have key : ∀ (l : List Nat) (p : Bool),
      l.foldl (fun p i => p ^^ x.getLsbD i) p = true ↔ (p.toNat + l.countP fun i => x.getLsbD i) % 2 = 1 := by
    intro l
    induction l with
    | nil => intro p; cases p <;> simp
    | cons a l ih =>
      intro p
      rw [List.foldl_cons, ih, List.countP_cons]
      cases p <;> cases x.getLsbD a <;> simp <;> omega
  simpa [lineParity] using key (List.range 64) false

end Sys2Proof.Machine
end

