-- ==== Sys2Proof/Laws/Verifier.lean ====
section
/-! SUPPORT. What the verifier reader does, said of the storage read as one stream of bits. -/

namespace Sys2Proof.Machine

theorem verifierWidth_pos (sel : BitVec 3) : 1 ≤ Config.verifierWidth sel := by
  revert sel; decide

theorem verifierWidth_le (sel : BitVec 3) : Config.verifierWidth sel ≤ 32 := by
  revert sel; decide

/-- A read of `n` bits at position `p` with room for them. -/
theorem readBits_at (m : Memory) (n p limit : Nat) (hroom : n = 0 ∨ p + n ≤ 32 * limit) :
    ∃ v, readBits m n ⟨p / 32, p % 32, limit⟩ = (some v, ⟨(p + n) / 32, (p + n) % 32, limit⟩) ∧
      ∀ k < 32, v.getLsbD k = if k < n then streamBit m (p + n - 1 - k) else false := by
  have hp : (⟨p / 32, p % 32, limit⟩ : Cursor).position = p := by simp only [Cursor.position]; omega
  obtain ⟨v, e, hv⟩ := readBitsFrom_enough m n 0 ⟨p / 32, p % 32, limit⟩ (by simp only; omega) (by rw [hp]; exact hroom)
  rw [hp] at e hv
  exact ⟨v, e, fun k hk => by rw [hv k hk]; simp⟩

/-- A read of `n` bits at position `p` with no room for them, from a cursor not past the limit. -/
theorem readBits_at_overrun (m : Memory) (n p limit : Nat) (hn : 1 ≤ n) (hp : p ≤ 32 * limit)
    (hroom : 32 * limit < p + n) : readBits m n ⟨p / 32, p % 32, limit⟩ = (none, ⟨limit, 0, limit⟩) := by
  have hpos : (⟨p / 32, p % 32, limit⟩ : Cursor).position = p := by simp only [Cursor.position]; omega
  rw [readBits, readBitsFrom_overrun m n 0 _ (by simp only; omega) hn (by rw [hpos]; exact hroom)]
  split
  · next h =>
    simp only at h
    have e : p = 32 * limit := by omega
    subst e
    simp
  · rfl

theorem readBits_bit (m : Memory) (p limit : Nat) (hroom : p + 1 ≤ 32 * limit) :
    ∃ v, readBits m 1 ⟨p / 32, p % 32, limit⟩ = (some v, ⟨(p + 1) / 32, (p + 1) % 32, limit⟩) ∧
      (v = 0 ↔ streamBit m p = false) := by
  obtain ⟨v, e, hv⟩ := readBits_at m 1 p limit (.inr hroom)
  refine ⟨v, e, ⟨fun h => ?_, fun h => ?_⟩⟩
  · have := hv 0 (by omega)
    subst h
    simpa using this.symm
  · apply BitVec.eq_of_getLsbD_eq
    intro k hk
    rw [hv k hk]
    by_cases h0 : k < 1
    · have : k = 0 := by omega
      subst this; simpa using h
    · simp [h0]

theorem readBits_selector (m : Memory) (p limit : Nat) (hroom : p + 3 ≤ 32 * limit) :
    ∃ v, readBits m 3 ⟨p / 32, p % 32, limit⟩ = (some v, ⟨(p + 3) / 32, (p + 3) % 32, limit⟩) ∧
      v.setWidth 3 = streamSelector m p := by
  obtain ⟨v, e, hv⟩ := readBits_at m 3 p limit (.inr hroom)
  refine ⟨v, e, ?_⟩
  apply BitVec.eq_of_getLsbD_eq
  intro k hk
  rw [BitVec.getLsbD_setWidth, hv k (by omega)]
  simp only [streamSelector, BitVec.getLsbD_append, BitVec.getLsbD_ofBool]
  interval_cases k <;> simp

theorem verifierBits_nil : verifierBits [] = 1 := rfl

theorem verifierBits_cons (sel : BitVec 3) (sels : List (BitVec 3)) :
    verifierBits (sel :: sels) = 4 + Config.verifierWidth sel + verifierBits sels := by
  simp only [verifierBits, List.map_cons, List.sum_cons]; omega

theorem verifierBits_pos (sels : List (BitVec 3)) : 1 ≤ verifierBits sels := Nat.le_add_right ..

/-- Everything the reader's loop does after a terminator of 0 at position `k`. -/
theorem expansionLoop_spec (m : Memory) (limit fuel k c : Nat) (hk : k + 1 ≤ 32 * limit)
    (hz : streamBit m k = false) (hfuel : 32 * limit < k + 1 + 5 * fuel) :
    (∃ sels, VerifierParses m k sels ∧ k + verifierBits sels ≤ 32 * limit ∧
      expansionLoop m fuel c ⟨(k + 1) / 32, (k + 1) % 32, limit⟩ =
        (some (c + verifierBits sels - 1), ⟨(k + verifierBits sels) / 32, (k + verifierBits sels) % 32, limit⟩)) ∨
    ((∀ sels, VerifierParses m k sels → 32 * limit < k + verifierBits sels) ∧
      expansionLoop m fuel c ⟨(k + 1) / 32, (k + 1) % 32, limit⟩ = (none, ⟨limit, 0, limit⟩)) := by
  induction fuel generalizing k c with
  | zero => omega
  | succ fuel ih =>
    rw [expansionLoop]
    by_cases h3 : k + 1 + 3 ≤ 32 * limit
    · obtain ⟨v, ev, hv⟩ := readBits_selector m (k + 1) limit h3
      rw [ev]
      simp only [hv]
      have hw := verifierWidth_pos (streamSelector m (k + 1))
      by_cases hp : k + 1 + 3 + Config.verifierWidth (streamSelector m (k + 1)) ≤ 32 * limit
      · obtain ⟨x, ex, -⟩ := readBits_at m (Config.verifierWidth (streamSelector m (k + 1))) (k + 1 + 3) limit (.inr hp)
        rw [ex]
        simp only
        have e4 : k + 1 + 3 + Config.verifierWidth (streamSelector m (k + 1)) =
          k + 4 + Config.verifierWidth (streamSelector m (k + 1)) := by omega
        rw [e4]
        by_cases ht : k + 4 + Config.verifierWidth (streamSelector m (k + 1)) + 1 ≤ 32 * limit
        · obtain ⟨t, et, hterm⟩ := readBits_bit m (k + 4 + Config.verifierWidth (streamSelector m (k + 1))) limit ht
          rw [et]
          simp only
          by_cases h0 : t = 0
          · rw [if_pos h0]
            rcases ih (k + 4 + Config.verifierWidth (streamSelector m (k + 1)))
              (c + 3 + Config.verifierWidth (streamSelector m (k + 1)) + 1) ht (hterm.1 h0) (by omega) with
              ⟨sels, hs, hb, e⟩ | ⟨hs, e⟩
            · refine .inl ⟨streamSelector m (k + 1) :: sels, ⟨hz, rfl, hs⟩, ?_, ?_⟩
              · rw [verifierBits_cons]; omega
              · have := verifierBits_pos sels
                have e5 : k + 4 + Config.verifierWidth (streamSelector m (k + 1)) + verifierBits sels =
                    k + verifierBits (streamSelector m (k + 1) :: sels) := by rw [verifierBits_cons]; omega
                have e6 : c + 3 + Config.verifierWidth (streamSelector m (k + 1)) + 1 + verifierBits sels - 1 =
                    c + verifierBits (streamSelector m (k + 1) :: sels) - 1 := by rw [verifierBits_cons]; omega
                rw [e, e5, e6]
            · refine .inr ⟨fun sels hp' => ?_, e⟩
              cases sels with
              | nil => simp [VerifierParses, hz] at hp'
              | cons sel sels =>
                obtain ⟨-, rfl, hp'⟩ := hp'
                have := hs sels hp'
                rw [verifierBits_cons]; omega
          · rw [if_neg h0]
            refine .inl ⟨[streamSelector m (k + 1)], ⟨hz, rfl, ?_⟩, ?_, ?_⟩
            · have : ¬ streamBit m (k + 4 + Config.verifierWidth (streamSelector m (k + 1))) = false := fun h => h0 (hterm.2 h)
              simpa [VerifierParses] using this
            · rw [verifierBits_cons, verifierBits_nil]; omega
            · have e5 : k + 4 + Config.verifierWidth (streamSelector m (k + 1)) + 1 =
                  k + verifierBits [streamSelector m (k + 1)] := by rw [verifierBits_cons, verifierBits_nil]; omega
              have e6 : c + 3 + Config.verifierWidth (streamSelector m (k + 1)) + 1 =
                  c + verifierBits [streamSelector m (k + 1)] - 1 := by rw [verifierBits_cons, verifierBits_nil]; omega
              rw [e5, e6]
        · rw [readBits_at_overrun m 1 _ limit (Nat.le_refl 1) (by omega) (by omega)]
          refine .inr ⟨fun sels hp' => ?_, rfl⟩
          cases sels with
          | nil => simp [VerifierParses, hz] at hp'
          | cons sel sels =>
            obtain ⟨-, rfl, -⟩ := hp'
            have := verifierBits_pos sels
            rw [verifierBits_cons]; omega
      · rw [readBits_at_overrun m _ _ limit hw (by omega) (by omega)]
        refine .inr ⟨fun sels hp' => ?_, rfl⟩
        cases sels with
        | nil => simp [VerifierParses, hz] at hp'
        | cons sel sels =>
          obtain ⟨-, rfl, -⟩ := hp'
          have := verifierBits_pos sels
          rw [verifierBits_cons]; omega
    · rw [readBits_at_overrun m 3 _ limit (by omega) (by omega) (by omega)]
      refine .inr ⟨fun sels hp' => ?_, rfl⟩
      cases sels with
      | nil => simp [VerifierParses, hz] at hp'
      | cons sel sels =>
        have := verifierWidth_pos sel
        rw [verifierBits_cons]; omega

/-- Everything the reader does: it succeeds exactly when the stream from bit 40 on parses within the buffer. -/
theorem readVerifier_spec (m : Memory) (len : Nat) :
    (∃ sels, VerifierParses m 40 sels ∧ 40 + verifierBits sels ≤ 32 * len ∧
      readVerifier m len = (some (verifierLines (verifierBits sels), verifierBits sels),
        ⟨(40 + verifierBits sels) / 32, (40 + verifierBits sels) % 32, len⟩)) ∨
    ((∀ sels, VerifierParses m 40 sels → 32 * len < 40 + verifierBits sels) ∧
      readVerifier m len = (none, if len < 2 then ⟨1, 8, len⟩ else ⟨len, 0, len⟩)) := by
  rw [readVerifier]
  by_cases hl : len < 2
  · have e : readBits m 1 ⟨1, 8, len⟩ = (none, ⟨1, 8, len⟩) := by
      rw [readBits, readBitsFrom, if_pos (by simp only; omega)]
    rw [e, if_pos hl]
    refine .inr ⟨fun sels _ => ?_, rfl⟩
    have := verifierBits_pos sels
    omega
  · obtain ⟨t, et, hterm⟩ := readBits_bit m 40 len (by omega)
    rw [show (⟨1, 8, len⟩ : Cursor) = ⟨40 / 32, 40 % 32, len⟩ from rfl, et, if_neg hl]
    simp only
    by_cases h0 : t = 0
    · rw [if_pos h0]
      rcases expansionLoop_spec m len (32 * len) 40 1 (by omega) (hterm.1 h0) (by omega) with ⟨sels, hs, hb, e⟩ | ⟨hs, e⟩
      · refine .inl ⟨sels, hs, hb, ?_⟩
        rw [e]
        simp
      · exact .inr ⟨hs, by rw [e]; rfl⟩
    · rw [if_neg h0]
      refine .inl ⟨[], ?_, by rw [verifierBits_nil]; omega, rfl⟩
      have : ¬ streamBit m 40 = false := fun h => h0 (hterm.2 h)
      simpa [VerifierParses] using this

/-- A stream parses in one way only. -/
theorem VerifierParses.unique {m : Memory} {k : Nat} {s1 s2 : List (BitVec 3)} (h1 : VerifierParses m k s1)
    (h2 : VerifierParses m k s2) : s1 = s2 := by
  induction s1 generalizing k s2 with
  | nil =>
    cases s2 with
    | nil => rfl
    | cons sel sels => simp only [VerifierParses] at h1 h2; simp [h1] at h2
  | cons sel sels ih =>
    cases s2 with
    | nil => simp only [VerifierParses] at h1 h2; simp [h2] at h1
    | cons sel2 sels2 =>
      obtain ⟨-, rfl, h1⟩ := h1
      obtain ⟨-, rfl, h2⟩ := h2
      rw [ih h1 h2]

/-- A stream parses the same way over any storage with the same bits up to its end. -/
theorem VerifierParses.congr {m m' : Memory} {k : Nat} {sels : List (BitVec 3)} (h : VerifierParses m k sels)
    (hb : ∀ j < k + verifierBits sels, streamBit m' j = streamBit m j) : VerifierParses m' k sels := by
  induction sels generalizing k with
  | nil =>
    simp only [VerifierParses] at h ⊢
    rw [hb k (by rw [verifierBits_nil]; omega), h]
  | cons sel sels ih =>
    obtain ⟨h1, h2, h3⟩ := h
    have hp := verifierBits_pos sels
    rw [verifierBits_cons] at hb
    refine ⟨by rw [hb k (by omega), h1], ?_, ih h3 fun j hj => hb j (by omega)⟩
    rw [← h2, streamSelector, streamSelector, hb _ (by omega), hb _ (by omega), hb _ (by omega)]

/-- The reader's answer where the stream parses within the buffer. -/
theorem readVerifier_of_parses {m : Memory} {len : Nat} {sels : List (BitVec 3)} (h : VerifierParses m 40 sels)
    (hb : 40 + verifierBits sels ≤ 32 * len) :
    readVerifier m len = (some (verifierLines (verifierBits sels), verifierBits sels),
      ⟨(40 + verifierBits sels) / 32, (40 + verifierBits sels) % 32, len⟩) := by
  rcases readVerifier_spec m len with ⟨sels', h', -, e⟩ | ⟨hn, -⟩
  · rw [h.unique h']; exact e
  · have := hn sels h; omega

/-- What the reader answers when it succeeds. -/
theorem readVerifier_some {m : Memory} {len lines c : Nat} {cur : Cursor}
    (h : readVerifier m len = (some (lines, c), cur)) :
    40 + c ≤ 32 * len ∧ 1 ≤ c ∧ lines = verifierLines c ∧ cur = ⟨(40 + c) / 32, (40 + c) % 32, len⟩ := by
  rcases readVerifier_spec m len with ⟨sels, -, hb, e⟩ | ⟨-, e⟩
  · rw [e] at h
    simp only [Prod.mk.injEq, Option.some.injEq] at h
    obtain ⟨⟨rfl, rfl⟩, rfl⟩ := h
    exact ⟨hb, verifierBits_pos sels, rfl, rfl⟩
  · rw [e] at h; simp at h

theorem verifierLines_bounds (c : Nat) (h : 1 ≤ c) :
    c + 40 ≤ 64 * verifierLines c ∧ 64 * (verifierLines c - 1) < c + 40 := by
  simp only [verifierLines, ceilDiv]; omega

theorem expansionLoop_congr {m m' : Memory} (fuel c : Nat) (cur : Cursor)
    (h : ∀ i < cur.limit, m'.readWord i = m.readWord i) (hb : cur.bit ≤ 31) :
    expansionLoop m' fuel c cur = expansionLoop m fuel c cur := by
  induction fuel generalizing c cur with
  | zero => rfl
  | succ fuel ih =>
    rw [expansionLoop, expansionLoop]
    have e1 : readBits m' 3 cur = readBits m 3 cur := readBitsFrom_congr 3 0 cur h
    have c1 := readBitsFrom_cursor m 3 0 cur hb
    rw [e1]
    rw [show readBitsFrom m 3 0 cur = readBits m 3 cur from rfl] at c1
    cases hr1 : readBits m 3 cur with
    | mk o1 cur1 =>
      rw [hr1] at c1
      cases o1 with
      | none => rfl
      | some sel =>
        simp only at c1 ⊢
        have h1 : ∀ i < cur1.limit, m'.readWord i = m.readWord i := by rw [c1.1]; exact h
        have e2 : readBits m' (Config.verifierWidth (sel.setWidth 3)) cur1 =
          readBits m (Config.verifierWidth (sel.setWidth 3)) cur1 := readBitsFrom_congr _ 0 cur1 h1
        have c2 := readBitsFrom_cursor m (Config.verifierWidth (sel.setWidth 3)) 0 cur1 c1.2.1
        rw [e2]
        rw [show readBitsFrom m (Config.verifierWidth (sel.setWidth 3)) 0 cur1 =
          readBits m (Config.verifierWidth (sel.setWidth 3)) cur1 from rfl] at c2
        cases hr2 : readBits m (Config.verifierWidth (sel.setWidth 3)) cur1 with
        | mk o2 cur2 =>
          rw [hr2] at c2
          cases o2 with
          | none => rfl
          | some x =>
            simp only at c2 ⊢
            have h2 : ∀ i < cur2.limit, m'.readWord i = m.readWord i := by rw [c2.1]; exact h1
            have e3 : readBits m' 1 cur2 = readBits m 1 cur2 := readBitsFrom_congr 1 0 cur2 h2
            have c3 := readBitsFrom_cursor m 1 0 cur2 c2.2.1
            rw [e3]
            rw [show readBitsFrom m 1 0 cur2 = readBits m 1 cur2 from rfl] at c3
            cases hr3 : readBits m 1 cur2 with
            | mk o3 cur3 =>
              rw [hr3] at c3
              cases o3 with
              | none => rfl
              | some t =>
                simp only at c3 ⊢
                rw [ih _ cur3 (by rw [c3.1]; exact h2) c3.2.1]

/-- The reader depends on no word at or beyond `LEN`. -/
theorem readVerifier_congr {m m' : Memory} {len : Nat} (h : ∀ i < len, m'.readWord i = m.readWord i) :
    readVerifier m' len = readVerifier m len := by
  rw [readVerifier, readVerifier]
  have e1 : readBits m' 1 ⟨1, 8, len⟩ = readBits m 1 ⟨1, 8, len⟩ := readBitsFrom_congr 1 0 _ h
  have c1 := readBitsFrom_cursor m 1 0 ⟨1, 8, len⟩ (by simp)
  rw [e1]
  rw [show readBitsFrom m 1 0 ⟨1, 8, len⟩ = readBits m 1 ⟨1, 8, len⟩ from rfl] at c1
  cases hr : readBits m 1 ⟨1, 8, len⟩ with
  | mk o cur =>
    rw [hr] at c1
    cases o with
    | none => rfl
    | some t =>
      simp only at c1 ⊢
      rw [expansionLoop_congr _ _ cur (by rw [c1.1]; exact h) c1.2.1]

/-- Whether the reader passes the end depends on the buffer's words alone. -/
theorem verifierOverruns_words (m : Memory) (len : Nat) :
    VerifierOverruns (m.words 0 len) ↔ (readVerifier m len).1 = none := by
  unfold VerifierOverruns
  rw [Memory.words_length]
  refine ⟨fun h => h m rfl, fun h m' hm => ?_⟩
  rw [readVerifier_congr (m := m) (m' := m') fun i hi => ?_]
  · exact h
  · have h1 := Memory.words_getElem m' 0 len i (by simpa using hi)
    have h2 := Memory.words_getElem m 0 len i (by simpa using hi)
    simp only [hm, h2, Nat.zero_add] at h1
    exact h1.symm

end Sys2Proof.Machine
end

