-- ==== Sys2Proof/Tests/Slice0.lean ====
section
/-! SUPPORT. Tests. The expected values are the spec's: the tables of 95_test_vectors.md (their section is named), the map of
R36 and the words of R54 written out. After them, for every statement of Obligations.lean that has hypotheses, a concrete
state and operands that meet them. -/

namespace Sys2Proof.Tests

set_option Elab.async false

open Sys2Proof Sys2Proof.Machine

/-! ## Small states -/

/-- The words stored from word index `i` on. -/
def storeWords (i : Nat) : List Word → Memory → Memory
  | [], m => m
  | w :: ws, m => storeWords (i + 1) ws (m.writeWord i w)

/-- The reset state with a buffer. -/
def bufState (ws : List Word) : State :=
  { State.reset with len := ws.length, mem := storeWords 0 ws ⟨0, []⟩ }

/-- The reset state with a buffer and operands. -/
def opState (ws : List Word) (a b c d : Word) : State := { bufState ws with op := ⟨a, b, c, d⟩ }

/-- The reset state with events to come. -/
def busState (es : List Event) : State := { State.reset with events := es }

/-- The state a command ends in. -/
def after (i : Instr) (s : State) : State :=
  match exec i s with
  | .next t => t
  | .fault _ => s
  | .refused _ => s

/-- `STATUS` after a host write of a word to `CMD`, right after reset. -/
def statusOf (c : Word) : Word :=
  match step (busState [commandWrite c]) with
  | .next t => t.status
  | .fault _ => 0xFFFFFFFF
  | .refused _ => 0xFFFFFFFF

theorem storeWords_below (ws : List Word) (i j : Nat) (m : Memory) (h : j < i) :
    (storeWords i ws m).readWord j = m.readWord j := by
  induction ws generalizing i m with
  | nil => rfl
  | cons w ws ih => rw [storeWords, ih _ _ (by omega), Memory.readWord_writeWord_ne _ _ (by omega)]

theorem storeWords_words (ws : List Word) (i : Nat) (m : Memory) : (storeWords i ws m).words i ws.length = ws := by
  induction ws generalizing i m with
  | nil => rfl
  | cons w ws ih =>
    rw [storeWords, List.length_cons, Memory.words, ih, storeWords_below _ _ _ _ (by omega),
      Memory.readWord_writeWord_same]

theorem bufState_buffer (ws : List Word) : (bufState ws).buffer = ws := storeWords_words ws 0 _

theorem two_le_nmax : 2 ≤ Config.nmax := Nat.le_add_left ..

theorem nmax_le : Config.nmax ≤ 2 ^ 20 := by
  have := Config.nmaxOffset.isLt
  unfold Config.nmax; omega

/-! ## Well-formedness: one ill-formed term for each check (R56) -/

theorem test_wf_curRead : (Instr.curRead 33).wf = false ∧ (Instr.curRead 32).wf = true := by decide
theorem test_wf_gs3EncP : (Instr.gs3EncP 8).wf = false ∧ (Instr.gs3EncP 7).wf = true := by decide
theorem test_wf_gs3BEnc : (Instr.gs3BEnc 8).wf = false ∧ (Instr.gs3BEnc 7).wf = true := by decide

/-! ## Decoding: every word of R54, the format I words with an IMM -/

theorem test_decode_buffer :
    decode 0x00000000 = .ok .nop ∧ decode 0x00000001 = .ok .bufAppend ∧ decode 0x00000002 = .ok .bufPrepend ∧
    decode 0x00000003 = .ok .bufRemove ∧ decode 0x0000000F = .ok .batchReset := by decide
theorem test_decode_ar2 :
    decode 0x00000010 = .ok .ar2SetSeed ∧ decode 0x00000011 = .ok .ar2GetSeed ∧ decode 0x00000012 = .ok .ar2DecW ∧
    decode 0x00000013 = .ok .ar2EncW ∧ decode 0x00000014 = .ok .ar2BDec ∧ decode 0x00000015 = .ok .ar2BEnc ∧
    decode 0x00000016 = .ok .ar1BDec ∧ decode 0x00000017 = .ok .ar1BEnc := by decide
theorem test_decode_armax :
    decode 0x00000020 = .ok .axDecB ∧ decode 0x00000021 = .ok .axEncB ∧ decode 0x00000022 = .ok .axCrc ∧
    decode 0x00000023 = .ok .axBDec ∧ decode 0x00000024 = .ok .axBEnc ∧ decode 0x00000025 = .ok .axRdVer ∧
    decode 0x00000026 = .ok .axMkVer ∧ decode 0x00000027 = .ok .axLDec ∧ decode 0x00000028 = .ok .axLEnc := by decide
theorem test_decode_cursor :
    decode 0x00000030 = .ok .curSet ∧ decode 0x00000D31 = .ok (.curRead 13) ∧ decode 0x00002131 = .ok (.curRead 33) := by
  decide
theorem test_decode_gs3 :
    decode 0x00000040 = .ok .gs3SetSeeds ∧ decode 0x00000041 = .ok .gs3DecP ∧ decode 0x00000742 = .ok (.gs3EncP 7) ∧
    decode 0x00000043 = .ok .gs3BDec ∧ decode 0x00000344 = .ok (.gs3BEnc 3) ∧ decode 0x00000045 = .ok .gs3RngSeed ∧
    decode 0x00000046 = .ok .gs3RngNext := by decide
theorem test_decode_refuses :
    decode 0x00000100 = .error (.immNotZero 0) ∧ decode 0x00010000 = .error .reservedBits ∧
    decode 0x000000FF = .error (.unknownOpcode 0xFF) := by decide
theorem test_decode_table_word : decodeTableWord 32 0x2031 = some (.curRead 32) ∧ decodeTableWord 32 0x10000 = none := by
  decide

/-! ## Status of command words (95_test_vectors.md 2.9) -/

theorem test_status_words :
    statusOf 0x00000000 = 0x000 ∧ statusOf 0x00000100 = 0x101 ∧ statusOf 0x00010000 = 0x101 ∧
    statusOf 0x00000004 = 0x101 ∧ statusOf 0x00002131 = 0x101 ∧ statusOf 0x00000842 = 0x101 := by decide +kernel

/-- After a failing command a successful one reads 0x100. -/
theorem test_sticky_stays : (after .nop (after .axCrc (bufState []))).status = 0x100 := by decide +kernel

/-! ## Buffer control (95_test_vectors.md 1.1, 2.1) -/

theorem test_remove_quirk : (after .bufRemove (opState [1, 2, 3, 4, 5] 3 4 0 0)).buffer = [1] := by decide +kernel
theorem test_remove_middle : (after .bufRemove (opState [1, 2, 3, 4, 5] 2 2 0 0)).buffer = [1, 4, 5] := by decide +kernel
theorem test_remove_all : (after .bufRemove (opState [1, 2, 3, 4, 5] 1 0xFFFFFFFF 0 0)).len = 0 := by decide +kernel

theorem test_append : (after .bufAppend (opState [] 0xA0 0 0 0)).buffer = [0xA0] := by
  have h : ¬ ((opState [] 0xA0 0 0 0).len = Config.nmax) := fun h => absurd (h ▸ two_le_nmax) (by decide)
  have e : exec .bufAppend (opState [] 0xA0 0 0 0) =
      .next (((opState [] 0xA0 0 0 0).memWrite 0 0xA0).setLen 1).finish := by
    rw [exec, execBufAppend, if_neg h]; rfl
  rw [after, e]
  decide +kernel

/-! ## AR1/AR2 (95_test_vectors.md 2.2) -/

/-- A word decrypted by every type 0..7 under the test instance. -/
def ar2Row (d : Direction) (s : Byte) : List Word :=
  (List.range 8).map fun t => ar2Transform testAr2 d 0 0x12345678 (BitVec.ofNat 8 t) s

theorem test_ar2_dec_odd : ar2Row .decrypt 0x05 =
    [0xD7B1137D, 0xE4C62082, 0xD7B99B7D, 0x4DAF1173, 0xDC7698C2, 0x486A9436, 0xDBBC9D7E, 0xE4C62082] := by decide +kernel
theorem test_ar2_enc_odd : ar2Row .encrypt 0x05 =
    [0xD7B1137D, 0x7D1B31D7, 0x4DAF1173, 0xD7B99B7D, 0xC8EA9436, 0xDC761842, 0x49AC0F72, 0x7D1B31D7] := by decide +kernel
theorem test_ar2_dec_even : ar2Row .decrypt 0x04 =
    [0xD6B0127C, 0xE5C72183, 0xD6B89A7C, 0x4EB01274, 0xDA7496C0, 0x4A749630, 0xDABB9C7D, 0xEDCBA987] := by decide +kernel
theorem test_ar2_enc_wrapped : ar2Row .encrypt 0x3F =
    [0xCDAB0967, 0xDCBA9076, 0x3395F759, 0xF1D3B597, 0x2CCAE806, 0xEC8A2846, 0x4FB21578, 0xDCBA9076] := by decide +kernel
theorem test_ar1_words :
    ar2Transform testAr2 .decrypt 0 0x12345678 5 0x10 = 0x52749638 ∧
    ar2Transform testAr2 .decrypt 0 0x9ABCDEF0 5 0x18 = 0xDAFC1E80 ∧
    ar2Transform testAr2 .encrypt 0 0x9ABCDEF0 5 0x18 = 0x5AFC9EC0 := by decide +kernel
theorem test_decw_low_bytes : (after .ar2DecW (opState [] 0x12345678 0x107 0x104 0)).res.r0 = 0xEDCBA987 := by decide +kernel
theorem test_encw : (after .ar2EncW (opState [] 0xEDCBA987 7 4 0)).res.r0 = 0x12345678 := by decide +kernel
theorem test_seed_bytes : (List.range 4).map (seedByte 0x01020304) = [0x01, 0x02, 0x03, 0x04] := by decide

/-! ## ARMAX (95_test_vectors.md 2.3, 2.4) -/

theorem test_scramble :
    scramble 0xFFFFFFFF 0x00000000 = (0x1E1E1E1E, 0x1E1E1E1E) ∧ scramble 0x00000000 0x00000001 = (0x00000100, 0) ∧
    scramble 0x00000001 0x00000000 = (0x00000010, 0) ∧ scramble 0x80000000 0 = (0, 0x02000000) := by decide +kernel
theorem test_kernel_no_substitution :
    kernel (fun _ _ => 0) (tabulate 32 fun _ => 0) (0x67452301, 0xEFCDAB89) = (0x9B8A1302, 0xDFCE5746) ∧
    kernel (fun _ _ => 0) (tabulate 32 fun _ => 0) (0x12345678, 0x9ABCDEF0) = (0x2138A9B4, 0x657CEDF0) := by decide +kernel
theorem test_schedule : (schedEncrypt (candidateAx testKey)).toList =
    [0x060B3F01, 0x302F0732, 0x1E3B3627, 0x1A193C25, 0x1532103E, 0x1F0A2C19, 0x1C373614, 0x2A16331D,
     0x1F303A0E, 0x0E073528, 0x1814142C, 0x3A3E072F, 0x3B123D22, 0x0837213C, 0x3D28302F, 0x383A133B] ++
    [0x382F3B1E, 0x0D2B1E01, 0x2C0D2E19, 0x1F07240F, 0x083F370E, 0x15132D06, 0x1D07251F, 0x17350629,
     0x25173E29, 0x3C112B01, 0x170E3C1C, 0x34372E3A, 0x2F060F3C, 0x390D130A, 0x3236031F, 0x330B2135] := by decide +kernel
theorem test_schedule_decrypt : (schedDecrypt (candidateAx testKey)).toList.take 4 =
    [0x3236031F, 0x330B2135, 0x2F060F3C, 0x390D130A] := by decide +kernel
theorem test_encrypt_block :
    kernel candidateSp (schedEncrypt (candidateAx testKey)) (0x67452301, 0xEFCDAB89) = (0x5413E885, 0x05B40A0F) := by
  decide +kernel
theorem test_zero_key : kernel candidateSp (schedEncrypt (candidateAx fun _ => 0)) (0, 0) = (0xE94DA68C, 0xA723B1C1) := by
  decide +kernel
theorem test_crc :
    crc16 (candidateAx testKey) [0x00000001] = 0x1CBB ∧ crc16 (candidateAx testKey) [0x12345678] = 0x08F6 ∧
    crc16 (candidateAx testKey) [0x091A5A5A, 0xAA800000, 0xC4000000, 0x00000001] = 0x685E := by decide +kernel
theorem test_fold : foldNibble 0x1234 = 4 ∧ foldNibble 0xFFFF = 0 ∧ foldNibble 0x8000 = 8 ∧ foldNibble 0x0F0F = 0 := by
  decide
theorem test_block_batch_enc :
    (axBlockEnc (candidateAx testKey) (schedEncrypt (candidateAx testKey))
      (storeWords 0 [0x091A5A5A, 0xAA800000, 0xA9CBEDDF, 0x00FFFFFF] ⟨0, []⟩) 4).words 0 4 =
    [0x54356D81, 0x8B3F3D66, 0x921CD833, 0x4136171C] := by decide +kernel
theorem test_block_batch_dec_fails :
    (axBlockDec (candidateAx testKey) (schedDecrypt (candidateAx testKey))
      (storeWords 0 [0x54356D81, 0x8B3F3D66, 0x921CD833, 0x4136171D] ⟨0, []⟩) 4).2 = false := by decide +kernel

/-! ## Verifier and cursor (95_test_vectors.md 1.2, 2.5, 2.6) -/

/-- The reader on a list of words. -/
def readerOn (ws : List Word) : Option (Nat × Nat) × Cursor := readVerifier (storeWords 0 ws ⟨0, []⟩) ws.length

theorem test_reader_none : readerOn [0x00000000, 0x00800000] = (some (1, 1), ⟨1, 9, 2⟩) := by decide +kernel
theorem test_reader_24 : readerOn [0x00000000, 0x003FFFFF] = (some (1, 24), ⟨2, 0, 2⟩) := by decide +kernel
theorem test_reader_25 : readerOn [0, 0x00000400, 0x80000000, 0] = (some (2, 25), ⟨2, 1, 4⟩) := by decide +kernel
theorem test_reader_88 : readerOn [0, 0x00100040, 0x0300000E, 1] = (some (2, 88), ⟨4, 0, 4⟩) := by decide +kernel
theorem test_reader_89 :
    readerOn [0, 0x00200070, 0x00000007, 0, 0x80000000, 0] = (some (3, 89), ⟨4, 1, 6⟩) := by decide +kernel
theorem test_reader_fails :
    readerOn [0x091A5A5A] = (none, ⟨1, 8, 1⟩) ∧ readerOn [0, 0x007DEADB] = (none, ⟨2, 0, 2⟩) := by decide +kernel

theorem test_mkver_master :
    (after .axMkVer (opState [0xC4000000, 0] 0x1234 2 0x5A5A 0xA)).res = ⟨0x091A5A5A, 0xAA800000, 0, 0⟩ := by decide +kernel
theorem test_mkver_odd_length :
    (after .axMkVer (opState [0xC5FFFFFF] 0x1234 2 0xFA5A 0x1A)).res = ⟨0x091A7A5A, 0xA2800000, 0, 0⟩ := by decide +kernel

/-- A cursor command on the words of 2.6 with the cursor given. -/
def cursorRead (n : Byte) (c : Cursor) : State := after (.curRead n) ((bufState [0x80000001, 0xF0000000]).setCursor c)

theorem test_cur_read_across :
    (cursorRead 8 ⟨0, 28, 2⟩).res.r0 = 0x1F ∧ (cursorRead 8 ⟨0, 28, 2⟩).cur = ⟨1, 4, 2⟩ := by decide +kernel
theorem test_cur_read_overrun :
    (cursorRead 4 ⟨1, 30, 2⟩).cur = ⟨2, 0, 2⟩ ∧ (cursorRead 4 ⟨1, 30, 2⟩).status = 0x102 ∧
    (cursorRead 1 ⟨5, 0, 2⟩).cur = ⟨5, 0, 2⟩ := by decide +kernel
theorem test_cur_set :
    (after .curSet (opState [1, 2] 5 0 2 0)).cur = ⟨5, 0, 2⟩ ∧ (after .curSet (opState [1, 2] 0 32 2 0)).status = 0x102 ∧
    (after .curSet (opState [1, 2] 0 0 3 0)).status = 0x102 := by decide +kernel

/-! ## Text format (95_test_vectors.md 2.7) -/

theorem test_text_encode :
    encodeText (0x12345678, 0x9ABCDEF0) = "28U5-CY4U-QKFF0".toList ∧
    encodeText (0xFFFFFFFF, 0xFFFFFFFF) = "ZZZZ-ZZZZ-ZZZZY".toList ∧
    encodeText (0x00000000, 0x00000001) = "0000-0000-00003".toList := by decide +kernel
theorem test_text_rejects :
    decodeText "0000-0000-00001".toList = none ∧ decodeText "0000-0000-0000".toList = none ∧
    decodeText "00000-000-00000".toList = none ∧ decodeText "28u5-CY4U-QKFF0".toList = none ∧
    decodeText "28U5-CY4U-QKFI0".toList = none := by decide +kernel

/-! ## GS3+ (95_test_vectors.md 2.8) -/

theorem test_mt19937 : (mtNext (mtSeed 5489)).1 = 0xD091BB5C ∧ (mtNext (mtNext (mtSeed 1)).2).1 = 0xFF4780EB := by
  decide +kernel
theorem test_decp_passes :
    (after .gs3DecP (opState [] 0x0A123456 1 0 0)).res = ⟨0x0A123456, 1, 0x14, 0⟩ ∧
    (after .gs3DecP (opState [] 0x0E000000 9 0 0)).res = ⟨0x0E000000, 9, 0x1D, 0⟩ := by decide +kernel
theorem test_decp_latch :
    gs3StatWord (after .gs3DecP (opState [] 0x06000000 9 0 0)).gs3l (after .gs3DecP (opState [] 0x06000000 9 0 0)).gs3k =
      7 ∧
    (after .gs3DecP (after .gs3DecP (opState [] 0x06000000 9 0 0))).res.r2 = 0x0E := by decide +kernel
theorem test_encp_keeps_key :
    (after (.gs3EncP 5) (opState [] 0x00123456 1 0 0)).res = ⟨0x00123456, 1, 0x14, 0⟩ := by decide +kernel
theorem test_gs3_bdec_removes :
    (after .gs3BDec (bufState [0x0E000000, 0x11112222, 0x00123456, 0x9ABCDEF0])).buffer = [0x00123456, 0x9ABCDEF0] := by
  decide +kernel
theorem test_gs3_benc_latch : (after (.gs3BEnc 3) (bufState [0, 0, 0, 0, 0, 0])).gs3l = true := by decide +kernel

/-! ## Host accesses and program text (R36, R37, R57) -/

theorem test_host_reads :
    hostRead (opState [5, 6] 0 0 0 9) 0x1C = 9 ∧ hostRead (bufState [5, 6]) 0x08 = 2 ∧
    hostRead (bufState [5, 6]) 0x40 = 0 := by decide +kernel
theorem test_parse :
    parseLine "CUR_READ 13 ; thirteen bits".toList = some (some (.issue (.curRead 13))) ∧
    parseLine "EXPECT MEM 0xC0, 10".toList = some (some (.expectMem [0xC0, 10])) ∧
    parseLine "RD RES0 == 0x1F".toList = some (some (.rd (.res 0) (some 0x1F))) ∧
    parseLine "BUF_APPEND 3".toList = none := by decide +kernel

/-! ## Witnesses: for each statement with hypotheses, a state and operands that meet them -/

theorem witness_DecodedWordEncodesBack : decode 0x00000D31 = .ok (.curRead 13) := by decide

theorem witness_IllegalWordOnlyReportsItself :
    illegalWord 0x00010000 ∧ illegalWord 0x00000004 ∧ illegalWord 0x00000100 ∧ illegalWord 0x00002131 ∧
    illegalWord 0x00000842 ∧ (busState [commandWrite 0x00010000]).events = commandWrite 0x00010000 :: [] := by
  refine ⟨.inl ?_, .inr (.inl ?_), .inr (.inr (.inl ?_)), .inr (.inr (.inr (.inl ?_))), .inr (.inr (.inr (.inr ?_))), rfl⟩ <;>
    decide

theorem witness_StepRunsDecodedCommand :
    (busState [commandWrite 0x742]).events = commandWrite 0x742 :: [] ∧ decode 0x742 = .ok (.gs3EncP 7) := ⟨rfl, by decide⟩

theorem witness_HostReadFollowsTheMap :
    0x1000 % 4 = 0 ∧ (busState [readEvent 0x1000]).events = readEvent 0x1000 :: [] := ⟨rfl, rfl⟩

/-- The two sides of the boundary `v = NMAX`. -/
theorem witness_HostWriteOfLen :
    (BitVec.ofNat 32 Config.nmax).toNat ≤ Config.nmax ∧ Config.nmax < (BitVec.ofNat 32 (Config.nmax + 1)).toNat ∧
    (busState [writeEvent 0x08 (BitVec.ofNat 32 Config.nmax)]).events =
      writeEvent 0x08 (BitVec.ofNat 32 Config.nmax) :: [] ∧
    (busState [writeEvent 0x08 (BitVec.ofNat 32 (Config.nmax + 1))]).events =
      writeEvent 0x08 (BitVec.ofNat 32 (Config.nmax + 1)) :: [] := by
  have h := nmax_le
  have e : (BitVec.ofNat 32 (Config.nmax + 1)).toNat = Config.nmax + 1 := by
    rw [BitVec.toNat_ofNat, Nat.mod_eq_of_lt (by omega)]
  exact ⟨Nat.mod_le .., by omega, rfl, rfl⟩

/-- An operand register at each end of its range, and the first and the last word of the buffer's window. -/
theorem witness_HostWriteReadsBack :
    (0x10 % 4 = 0 ∧ 0x10 ≤ 0x10) ∧ (0x1C % 4 = 0 ∧ 0x1C ≤ 0x1C) ∧
    (0x1000 % 4 = 0 ∧ 0x1000 < 0x1000 + 4 * Config.nmax) ∧
    ((0x1000 + 4 * (Config.nmax - 1)) % 4 = 0 ∧ 0x1000 + 4 * (Config.nmax - 1) < 0x1000 + 4 * Config.nmax) ∧
    (busState [writeEvent 0x1000 7, readEvent 0x1000]).events = writeEvent 0x1000 7 :: readEvent 0x1000 :: [] := by
  have h := two_le_nmax
  exact ⟨by omega, by omega, by omega, by omega, rfl⟩

theorem witness_UnlistedAndReadOnlyAccesses :
    unlistedOffset 0x40 ∧ unlistedOffset 0xFFC ∧ unlistedOffset (0x1000 + 4 * Config.nmax) ∧ 0x3C ∈ readOnlyOffsets ∧
    (busState [readEvent 0x40]).events = readEvent 0x40 :: [] ∧
    (busState [writeEvent 0x3C 1]).events = writeEvent 0x3C 1 :: [] := by
  refine ⟨⟨rfl, .inl (by omega)⟩, ⟨rfl, .inl (by omega)⟩, ⟨by omega, .inr (Nat.le_refl _)⟩, by decide, rfl, rfl⟩

theorem witness_RefusalsAreForeignAccesses :
    (busState [.bus ⟨.other, 32, 0, .read⟩]).events = .bus ⟨.other, 32, 0, .read⟩ :: [] ∧
    ¬ (⟨.other, 32, 0, .read⟩ : Transaction).Conforms ∧ ¬ (⟨.host, 16, 0, .read⟩ : Transaction).Conforms ∧
    ¬ (⟨.host, 32, 2, .read⟩ : Transaction).Conforms :=
  ⟨rfl, fun h => Agent.noConfusion h.1, fun h => absurd h.2.1 (by decide), fun h => absurd h.2.2 (by decide)⟩

theorem witness_BlockResetAndIdle : (busState [.blockReset]).events = .blockReset :: [] ∧ (busState []).events = [] :=
  ⟨rfl, rfl⟩

/-- The reset state with a command to come meets every invariant of a step, and the step answers. -/
theorem witness_StepKeeps :
    (busState [commandWrite 0x41]).StatusLegal ∧ (busState [commandWrite 0x41]).DerivedState ∧
    (busState [commandWrite 0x41]).BufferCanonical ∧ (busState [commandWrite 0x41]).CursorInRange ∧
    (busState [commandWrite 0x41]).LatchKeyLegal ∧ ∃ t, step (busState [commandWrite 0x41]) = .next t :=
  ⟨⟨by decide, by decide, fun h => absurd rfl h⟩, ⟨rfl, rfl, rfl⟩, ⟨rfl, fun _ h => absurd h List.not_mem_nil, Nat.zero_le _⟩,
    ⟨Nat.zero_le _, Nat.zero_le _, Nat.zero_le _, Nat.two_pow_pos 32⟩, Bool.noConfusion, _, rfl⟩

theorem witness_StickyClearedOnlyByReset :
    statusSticky ({ busState [.blockReset] with status := 0x101 } : State).status = true ∧
    ∃ t, step { busState [.blockReset] with status := 0x101 } = .next t := ⟨by decide, _, rfl⟩

theorem witness_CommandsWriteOnlyTheirColumn : ∃ t, exec .gs3DecP (opState [] 0x06000000 1 0 0) = .next t := ⟨_, rfl⟩

theorem witness_CommandsReadOnlyTheBuffer :
    (∀ n, Instr.ar2BDec ≠ .curRead n) ∧
    AgreeBelow (bufState [1, 2]).len (bufState [1, 2])
      { bufState [1, 2] with mem := (bufState [1, 2]).mem.writeWord 2 7 } ∧
    ∃ t, exec .ar2BDec (bufState [1, 2]) = .next t :=
  ⟨fun _ h => Instr.noConfusion h,
    ⟨rfl, fun j hj => Memory.readWord_writeWord_ne _ _ (by have : j < 2 := hj; omega)⟩, _, rfl⟩

theorem witness_NopOnlyReportsOk : (0x100 : Word).extractLsb' 0 8 = 0 ∧ (0x100 : Word) ≠ 0 := by decide

/-- A full buffer, and one with room. -/
theorem witness_AppendAddsLastWord :
    ({ State.reset with len := Config.nmax } : State).len = Config.nmax ∧ State.reset.len ≠ Config.nmax :=
  ⟨rfl, fun h => absurd (h ▸ two_le_nmax) (by decide)⟩

theorem witness_PrependAddsFirstWord :
    ({ State.reset with len := Config.nmax } : State).len = Config.nmax ∧
    ({ State.reset with len := Config.nmax - 1 } : State).len ≠ Config.nmax := by
  refine ⟨rfl, fun h => ?_⟩
  have h : Config.nmax - 1 = Config.nmax := h
  have := two_le_nmax
  omega

/-- The three branches where they meet: `start + count` at `LEN` and one above it, and `start` one above `LEN`. -/
theorem witness_RemoveBranches :
    (opState [1, 2, 3, 4, 5] 6 1 0 0).len < (opState [1, 2, 3, 4, 5] 6 1 0 0).op.r0.toNat ∧
    (1 ≤ (opState [1, 2, 3, 4, 5] 5 1 0 0).op.r0.toNat ∧
      (opState [1, 2, 3, 4, 5] 5 1 0 0).op.r0.toNat ≤ (opState [1, 2, 3, 4, 5] 5 1 0 0).len ∧
      1 ≤ (opState [1, 2, 3, 4, 5] 5 1 0 0).op.r1.toNat ∧
      (opState [1, 2, 3, 4, 5] 5 1 0 0).len <
        (opState [1, 2, 3, 4, 5] 5 1 0 0).op.r0.toNat + (opState [1, 2, 3, 4, 5] 5 1 0 0).op.r1.toNat) ∧
    (1 ≤ (opState [1, 2, 3, 4, 5] 4 1 0 0).op.r0.toNat ∧ 1 ≤ (opState [1, 2, 3, 4, 5] 4 1 0 0).op.r1.toNat ∧
      (opState [1, 2, 3, 4, 5] 4 1 0 0).op.r0.toNat + (opState [1, 2, 3, 4, 5] 4 1 0 0).op.r1.toNat ≤
        (opState [1, 2, 3, 4, 5] 4 1 0 0).len) := by decide +kernel

theorem witness_SeedRegisterCommands : ∃ t, exec .ar2SetSeed (opState [] 0x07000700 0 0 0) = .next t := ⟨_, rfl⟩

theorem witness_LaneFormulasByType : (5 : Fin 7).val < 6 ∧ 8 ≤ (8 : Byte).toNat := by decide
theorem witness_WordTransformsInvert : (7 : Byte).toNat < 8 := by decide

theorem witness_Ar2Batches : (bufState [1]).len % 2 = 1 ∧ (bufState [1, 2]).len % 2 = 0 := by decide +kernel
theorem witness_Ar1IsAr2UnderFixedSeed : (bufState [1, 2, 3]).len % 2 = 1 ∧ (bufState []).len % 2 = 0 := by decide +kernel

theorem knownTypes_seven : KnownTypes 0x07000700 ∧ KnownTypes 0x07020704 :=
  ⟨⟨by decide, by decide⟩, ⟨by decide, by decide⟩⟩

/-- A stream of two marker pairs, under a seed with known types: the second marker's value has a type above 7 and seeds no
pair. -/
theorem seedsKnown_markers :
    SeedsKnown 0x07000700 [(Config.ar2.marker, 0x07020704), (Config.ar2.marker, 0xFF00FF00)] := by
  simp only [SeedsKnown, if_true, and_true]
  exact knownTypes_seven

theorem witness_Ar2BatchRoundTrip_encrypt :
    let s := { bufState [Config.ar2.marker, 0x07020704, Config.ar2.marker, 0xFF00FF00] with seed := 0x07000700 }
    s.len % 2 = 0 ∧ SeedsKnown s.seed (pairsOf s.buffer) ∧ ¬ KnownTypes 0xFF00FF00 := by
  refine ⟨rfl, ?_, fun h => absurd h.1 (by decide)⟩
  show SeedsKnown _ (pairsOf (bufState [Config.ar2.marker, 0x07020704, Config.ar2.marker, 0xFF00FF00]).buffer)
  rw [bufState_buffer]
  exact seedsKnown_markers

/-- Under this seed the address word decrypts to its complement, which is not the marker: no pair is removed. -/
theorem witness_Ar2BatchRoundTrip_decrypt :
    let s := { bufState [Config.ar2.marker, 0] with seed := 0x07020704 }
    s.len % 2 = 0 ∧ (s.len ≠ 0 → KnownTypes s.seed) ∧ ∃ t, exec .ar2BDec s = .next t ∧ t.len = s.len := by
  refine ⟨rfl, fun _ => knownTypes_seven.2, _, rfl, ?_⟩
  have hm : (~~~Config.ar2.marker : Word) ≠ Config.ar2.marker := by
    intro h
    have h0 := congrArg (fun w : Word => w.getLsbD 0) h
    simp at h0
  have hb : (bufState [Config.ar2.marker, 0]).mem.pairs 0 1 = [(Config.ar2.marker, 0)] := by
    rw [← Memory.pairs_eq_pairsOf_words]
    exact congrArg pairsOf (bufState_buffer [Config.ar2.marker, 0])
  obtain ⟨m, e, -, -⟩ := ar2BatchDec_spec 1 0 { bufState [Config.ar2.marker, 0] with seed := 0x07020704 } rfl _ rfl
  show (ar2BatchDec 1 0 { bufState [Config.ar2.marker, 0] with seed := 0x07020704 }).len = 2
  rw [e]
  have hd : ar2DecStream [(Config.ar2.marker, 0)] 0x07020704 0 = ([(~~~Config.ar2.marker, 0xFFFFFFFF)], 0x07020704, 0) :=
    if_neg hm
  show 0 + 2 * (ar2DecStream ((bufState [Config.ar2.marker, 0]).mem.pairs 0 1) 0x07020704 0).1.length = 2
  rw [hb, hd]
  rfl

theorem witness_KernelInverseLaw :
    (opState [] 0x67452301 0xEFCDAB89 0 0).DerivedState ∧
    ∃ t u, exec .axEncB (opState [] 0x67452301 0xEFCDAB89 0 0) = .next t ∧
      exec .axDecB { t with op := { t.op with r0 := t.res.r0, r1 := t.res.r1 } } = .next u :=
  ⟨⟨rfl, rfl, rfl⟩, _, _, rfl, rfl⟩

theorem witness_CrcCommandResults : (bufState []).len = 0 ∧ (bufState [1]).len ≠ 0 := by decide +kernel

theorem witness_BlockBatches :
    (bufState [1, 2, 3]).len % 2 = 1 ∧ (bufState []).len < 2 ∧ (bufState [1, 2]).len % 2 = 0 ∧
    2 ≤ (bufState [1, 2]).len := by decide +kernel

theorem witness_BlockBatchRoundTrip :
    (bufState [1, 2]).DerivedState ∧ (bufState [1, 2]).len % 2 = 0 ∧ 2 ≤ (bufState [1, 2]).len :=
  ⟨⟨rfl, rfl, rfl⟩, rfl, Nat.le_refl 2⟩

/-! A buffer whose decipherment is a given plaintext, whatever the parameters. -/

/-- The schedules of the reset state undo each other on a word pair. -/
theorem reset_decipher (w : Pair) :
    kernel Config.ax.sp State.reset.schedD (kernel Config.ax.sp State.reset.schedE w) = w := by
  have e : schedulePairs State.reset.schedD = (schedulePairs State.reset.schedE).reverse :=
    schedulePairs_reversePairs State.reset.schedE
  have h := rounds_reverse Config.ax.sp 8 (schedulePairs State.reset.schedE) (scramble (bswap32 w.1) (bswap32 w.2)).1
    (scramble (bswap32 w.1) (bswap32 w.2)).2 (schedulePairs_length _)
  simp only [kernel, bswap32_bswap32, scramble_unscramble, e]
  rw [h, unscramble_scramble]
  simp

/-- The words that decipher to `ws`. -/
def enciphered (ws : List Word) : List Word := cipherWords State.reset.schedE ws

theorem decipher_enciphered (ws : List Word) (h : ws.length % 2 = 0) :
    cipherWords State.reset.schedD (bufState (enciphered ws)).buffer = ws := by
  rw [bufState_buffer, enciphered]
  simp only [cipherWords, pairsOf_wordsOf, List.map_map]
  rw [show kernel Config.ax.sp State.reset.schedD ∘ kernel Config.ax.sp State.reset.schedE = id from funext reset_decipher,
    List.map_id, wordsOf_pairsOf _ h]

/-- The nibble that belongs to a list of words. -/
def rightNibble (ws : List Word) : BitVec 4 := foldNibble (crc16 Config.ax (setFirstNibble 0 ws))

/-- A wrong stored nibble: `AX_BDEC` and `AX_LDEC` find a mismatch. -/
theorem witness_ListDecrypts_crc :
    let s := bufState (enciphered [withNibble 0 (rightNibble [0, 0] + 1), 0])
    let ws := cipherWords s.schedD s.buffer
    s.len % 2 = 0 ∧ 2 ≤ s.len ∧ (storeWords 0 [0, 0] ⟨0, []⟩).words 0 s.len = setFirstNibble 0 ws ∧
      foldNibble (crc16 Config.ax (setFirstNibble 0 ws)) ≠ (ws.headD 0).extractLsb' 28 4 := by
  have e := decipher_enciphered [withNibble 0 (rightNibble [0, 0] + 1), 0] rfl
  refine ⟨rfl, Nat.le_refl 2, ?_, ?_⟩
  · show _ = setFirstNibble 0 (cipherWords State.reset.schedD _)
    rw [e, setFirstNibble, withNibble_withNibble]
    exact storeWords_words [0, 0] 0 ⟨0, []⟩
  · show foldNibble (crc16 Config.ax (setFirstNibble 0 (cipherWords State.reset.schedD _))) ≠
      ((cipherWords State.reset.schedD _).headD 0).extractLsb' 28 4
    rw [e, setFirstNibble, withNibble_withNibble]
    show rightNibble [0, 0] ≠ nibbleSlot (withNibble 0 (rightNibble [0, 0] + 1))
    rw [nibbleSlot_withNibble]
    generalize rightNibble [0, 0] = n
    revert n; decide

/-- The right nibble: the verifier of the first list has no end, that of the second is one bit. -/
theorem witness_ListDecrypts_verifier (w1 : Word) (h : w1 = 0 ∨ w1 = 0x00800000) :
    let s := bufState (enciphered [withNibble 0 (rightNibble [0, w1]), w1])
    let ws := cipherWords s.schedD s.buffer
    s.len % 2 = 0 ∧ 2 ≤ s.len ∧ (storeWords 0 [0, w1] ⟨0, []⟩).words 0 s.len = setFirstNibble 0 ws ∧
      foldNibble (crc16 Config.ax (setFirstNibble 0 ws)) = (ws.headD 0).extractLsb' 28 4 ∧
      readVerifier (storeWords 0 [0, w1] ⟨0, []⟩) s.len =
        if w1 = 0 then (none, ⟨2, 0, 2⟩) else (some (1, 1), ⟨1, 9, 2⟩) := by
  have e := decipher_enciphered [withNibble 0 (rightNibble [0, w1]), w1] (by simp)
  refine ⟨show 2 % 2 = 0 from rfl, Nat.le_refl 2, ?_, ?_, ?_⟩
  · show _ = setFirstNibble 0 (cipherWords State.reset.schedD _)
    rw [e, setFirstNibble, withNibble_withNibble]
    exact storeWords_words [0, w1] 0 ⟨0, []⟩
  · show foldNibble (crc16 Config.ax (setFirstNibble 0 (cipherWords State.reset.schedD _))) =
      ((cipherWords State.reset.schedD _).headD 0).extractLsb' 28 4
    rw [e, setFirstNibble, withNibble_withNibble]
    show rightNibble [0, w1] = nibbleSlot (withNibble 0 (rightNibble [0, w1]))
    rw [nibbleSlot_withNibble]
  · show readVerifier (storeWords 0 [0, w1] ⟨0, []⟩) 2 = _
    rcases h with rfl | rfl <;> decide +kernel

/-- One state for each code but the two of `AX_LDEC`. -/
theorem witness_ErrorsOnlyAsListed :
    (Instr.curRead 33).wf = false ∧ structuralCause .ar2BDec (bufState [1]) ∧
    (after .axRdVer (bufState [])).status = errStatus 4 ∧ (after .axLEnc (bufState [0, 0])).status = errStatus 4 ∧
    (after .nop (bufState [])).status = okStatus 0 ∧ structuralCause (.curRead 1) (bufState []) := by
  refine ⟨by decide, rfl, by decide +kernel, by decide +kernel, by decide +kernel, ?_⟩
  show (readBits (bufState []).mem 1 ⟨0, 0, 0⟩).1 = none
  rfl

/-- A wrong nibble, and a right one before a verifier with no end: `AX_LDEC` finds the first cause in one state and the
second in the other. -/
theorem witness_ErrorsOnlyAsListed_list :
    let s := bufState (enciphered [withNibble 0 (rightNibble [0, 0] + 1), 0])
    let u := bufState (enciphered [withNibble 0 (rightNibble [0, 0]), 0])
    ¬ structuralCause .axLDec s ∧ CrcMismatch s ∧
      ¬ structuralCause .axLDec u ∧ ¬ CrcMismatch u ∧ VerifierOverruns (decipheredBuffer u) := by
  obtain ⟨h1, h2, -, h3⟩ := witness_ListDecrypts_crc
  obtain ⟨g1, g2, g3, g4, g5⟩ := witness_ListDecrypts_verifier 0 (.inl rfl)
  have e : decipheredBuffer (bufState (enciphered [withNibble 0 (rightNibble [0, 0]), 0])) = [0, 0] :=
    g3.symm.trans (storeWords_words [0, 0] 0 ⟨0, []⟩)
  refine ⟨fun h => ?_, h3, fun h => ?_, fun h => h g4, ?_⟩
  · rcases h with h | h <;> omega
  · rcases h with h | h <;> omega
  · rw [e, ← storeWords_words [0, 0] 0 ⟨0, []⟩]
    exact (verifierOverruns_words _ 2).2 (congrArg Prod.fst g5)

theorem witness_ListEncrypts :
    (bufState [0, 0]).len % 2 = 0 ∧ 2 ≤ (bufState [0, 0]).len ∧
    readVerifier (bufState [0, 0]).mem (bufState [0, 0]).len = (none, ⟨2, 0, 2⟩) ∧
    readVerifier (bufState [0, 0x00800000]).mem (bufState [0, 0x00800000]).len = (some (1, 1), ⟨1, 9, 2⟩) := by
  decide +kernel

theorem witness_PayloadStartsInBuffer :
    readVerifier (bufState [0, 0x00100040, 0x0300000E, 1]).mem 4 = (some (2, 88), ⟨4, 0, 4⟩) := by decide +kernel

/-- A one-bit verifier, and a payload of one marker pair, whose value seeds no pair. -/
theorem witness_ListRoundTrip :
    let s := { opState [0, 0x00800000, Config.ar2.marker, 0xFF00FF00] 0x07000700 0 0 0 with seed := 0 }
    s.DerivedState ∧ s.len % 2 = 0 ∧ (s.memRead 0).extractLsb' 28 4 = 0 ∧
      (readVerifier s.mem s.len).1 = some (1, 1) ∧ SeedsKnown s.op.r0 (pairsOf (s.buffer.drop (2 * 1))) := by
  refine ⟨⟨rfl, rfl, rfl⟩, rfl, by decide +kernel, by decide +kernel, ?_⟩
  show SeedsKnown _ (pairsOf ((bufState [0, 0x00800000, Config.ar2.marker, 0xFF00FF00]).buffer.drop (2 * 1)))
  rw [bufState_buffer]
  exact ⟨knownTypes_seven.1, trivial⟩

/-- `CURB` at 31 and 32, `CURLIM` at `LEN` and one above it. -/
theorem witness_CursorSetChecks :
    31 < (opState [1, 2] 0 32 2 0).op.r1.toNat ∧ (opState [1, 2] 0 0 3 0).len < (opState [1, 2] 0 0 3 0).op.r2.toNat ∧
    (opState [1, 2] 0 31 2 0).op.r1.toNat ≤ 31 ∧ (opState [1, 2] 0 31 2 0).op.r2.toNat ≤ (opState [1, 2] 0 31 2 0).len := by
  decide +kernel

/-- A cursor at bit 28 of a limit of two words: 36 bits are left, so `n` = 32 fits; at word 1, 5 of 4 bits do not; and
`n` = 33. -/
theorem witness_CursorReadTakesStreamBits :
    ((⟨0, 28, 2⟩ : Cursor).bit ≤ 31 ∧ (32 : Byte).toNat ≤ 32 ∧ 32 * 0 + 28 + (32 : Byte).toNat ≤ 32 * 2) ∧
    ((⟨1, 28, 2⟩ : Cursor).bit ≤ 31 ∧ 1 ≤ (5 : Byte).toNat ∧ (5 : Byte).toNat ≤ 32 ∧
      32 * 2 < 32 * 1 + 28 + (5 : Byte).toNat) ∧
    32 < (33 : Byte).toNat := by decide

/-- The stream of one type 7 expansion, and a buffer too short for any. -/
theorem witness_VerifierReadParsesStream :
    let s := bufState [0, 0x007DEADB, 0xEEF80000, 0]
    VerifierParses s.mem 40 [7] ∧ 40 + verifierBits [7] ≤ 32 * s.len ∧
    (∀ sels, VerifierParses (bufState [0]).mem 40 sels → 32 * (bufState [0]).len < 40 + verifierBits sels) := by
  refine ⟨⟨by decide +kernel, by decide +kernel, ?_⟩, by decide +kernel, fun sels _ => ?_⟩
  · show streamBit _ (40 + 4 + Config.verifierWidth 7) = true
    decide +kernel
  · show 32 * 1 < _
    omega

/-- The verifier that `AX_MKVER` makes, placed in a buffer. -/
theorem witness_MadeVerifierReadsBack :
    ∃ t, exec .axMkVer (opState [] 0x1234 2 0x5A5A 0xA) = .next t ∧ 2 ≤ (bufState [t.res.r0, t.res.r1]).len ∧
      (bufState [t.res.r0, t.res.r1]).memRead 0 = t.res.r0 ∧ (bufState [t.res.r0, t.res.r1]).memRead 1 = t.res.r1 := by
  refine ⟨_, rfl, Nat.le_refl 2, ?_, ?_⟩
  · show ((Memory.writeWord _ 0 _).writeWord 1 _).readWord 0 = _
    rw [Memory.readWord_writeWord_ne _ _ (by omega), Memory.readWord_writeWord_same]
  · show ((Memory.writeWord _ 0 _).writeWord 1 _).readWord 1 = _
    rw [Memory.readWord_writeWord_same]

theorem witness_TextFormatRoundTrip : decodeText "14D5-MPNA-G0000".toList = some (0x091A5A5A, 0xAA800000) := by
  decide +kernel

theorem witness_PairDecryptCases :
    (0x00000000 : Word).extractLsb' 25 3 = 0 ∧ (0x0A000000 : Word).extractLsb' 25 3 = 5 ∧
    (0x02000000 : Word).extractLsb' 25 3 = 1 ∧ (0x08000000 : Word).extractLsb' 25 3 = 4 ∧
    (0x0E000000 : Word).extractLsb' 25 3 = 7 ∧ (opState [] 0x0E000000 1 0 0).gs3l = false ∧
    (after .gs3DecP (opState [] 0x06000000 1 0 0)).gs3l = true := by decide +kernel

theorem witness_PairEncryptCases :
    7 < (8 : Byte).toNat ∧ (7 : Byte).toNat ≤ 7 ∧ (opState [] 1 2 0 0).gs3l = false ∧
    (after (.gs3EncP 3) (opState [] 1 2 0 0)).gs3l = true := by decide +kernel

theorem witness_Gs3BatchesAreStreams :
    7 < (8 : Byte).toNat ∧ (bufState [1]).len % 2 = 1 ∧ (bufState [1, 2]).len % 2 = 0 ∧ (7 : Byte).toNat ≤ 7 := by
  decide +kernel

/-- One pair under key 3: the batch leaves the latch set. -/
theorem witness_Gs3BatchRoundTrip :
    (3 : Byte).toNat ≤ 4 ∧ (bufState [0x00123456, 0x9ABCDEF0]).gs3l = false ∧
    (bufState [0x00123456, 0x9ABCDEF0]).len % 2 = 0 ∧
    (∀ p ∈ pairsOf (bufState [0x00123456, 0x9ABCDEF0]).buffer, p.1.extractLsb' 25 3 = 0) ∧
    (after (.gs3BEnc 3) (bufState [0x00123456, 0x9ABCDEF0])).gs3l = true := by
  have h : ∀ p ∈ pairsOf (bufState [0x00123456, 0x9ABCDEF0]).buffer, p.1.extractLsb' 25 3 = 0 := by
    rw [bufState_buffer]
    intro p hp
    simp only [pairsOf, List.mem_cons, List.not_mem_nil, or_false] at hp
    subst hp
    decide
  have hl : (after (.gs3BEnc 3) (bufState [0x00123456, 0x9ABCDEF0])).gs3l = true := by decide +kernel
  exact ⟨by decide, rfl, rfl, h, hl⟩

theorem witness_LoadLineFillsBuffer :
    [1, 2].length ≤ Config.nmax ∧
    (busState (programEvents [.load [1, 2]])).events = programEvents [.load [1, 2]] ++ [] :=
  ⟨two_le_nmax, (List.append_nil _).symm⟩

end Sys2Proof.Tests
end

section
/-! PROOF. Every step keeps `STATUS` legal (R9, R18, R191). Whatever a command does, it ends by `State.endWith`, which builds
`STATUS` anew from its two fields; so the word it leaves is legal from any state, and only the events that issue no command
need the invariant of the state before. -/

namespace Sys2Proof.Machine

/-! ## The fields of a built `STATUS` word (R18) -/

@[simp] theorem statusWord_reserved : ∀ b n, statusWord b n &&& 0xFFFFFEF0#32 = 0 := by decide

@[simp] theorem statusCode_statusWord : ∀ b n, statusCode (statusWord b n) = n := by decide

@[simp] theorem statusSticky_statusWord : ∀ b n, statusSticky (statusWord b n) = b := by decide

theorem Code.bits_le (c : Code) : c.bits.toNat ≤ 4 := by cases c <;> decide

/-- `CODE` 0 is `OK` and nothing else. -/
theorem Code.ne_ok_of_bits {c : Code} (h : c.bits ≠ 0) : c ≠ .ok := by
  rintro rfl
  exact h rfl

/-- `STATUS` is legal however a command ends, from any state. -/
theorem State.endWith_statusLegal (s : State) (c : Code) : (s.endWith c).StatusLegal := by
  refine ⟨statusWord_reserved .., ?_, fun hc => ?_⟩
  · rw [State.endWith_status, statusAfter, statusCode_statusWord]
    exact c.bits_le
  · rw [State.endWith_status, statusAfter, statusCode_statusWord] at hc
    simp [statusAfter, Code.ne_ok_of_bits hc]

/-- The invariant speaks of `STATUS` alone. -/
theorem State.StatusLegal.of_status_eq {s t : State} (hs : s.StatusLegal) (h : t.status = s.status) : t.StatusLegal := by
  unfold State.StatusLegal
  rw [h]
  exact hs

theorem State.reset_statusLegal : State.reset.StatusLegal := ⟨by decide, by decide, fun h => absurd rfl h⟩

/-! ## Every command ends by `endWith` (R9, R191, R198) -/

/-- The outcome is a next state in which a command has just ended, by `finish` or by `raise`. -/
def EndsCommand (o : Host.Outcome State Fault Refusal) : Prop := ∃ s c, o = .next (State.endWith s c)

theorem endsCommand_endWith (s : State) (c : Code) : EndsCommand (.next (s.endWith c)) := ⟨s, c, rfl⟩

/-- A command that checks a condition first ends on both sides of it. -/
theorem EndsCommand.ite {p : Prop} [Decidable p] {a b : Host.Outcome State Fault Refusal} (ha : EndsCommand a)
    (hb : EndsCommand b) : EndsCommand (if p then a else b) := by
  split
  · exact ha
  · exact hb

theorem execCurRead_endsCommand (n : Byte) (s : State) : EndsCommand (execCurRead n s) := by
  refine .ite (endsCommand_endWith ..) ?_
  split <;> exact endsCommand_endWith ..

theorem execAxRdVer_endsCommand (s : State) : EndsCommand (execAxRdVer s) := by
  unfold execAxRdVer
  split <;> exact endsCommand_endWith ..

theorem execAxBDec_endsCommand (s : State) : EndsCommand (execAxBDec s) := by
  refine .ite (endsCommand_endWith ..) ?_
  split <;> exact endsCommand_endWith ..

theorem execAxLDec_endsCommand (s : State) : EndsCommand (execAxLDec s) := by
  refine .ite (endsCommand_endWith ..) ?_
  split
  · exact endsCommand_endWith ..
  · split <;> exact endsCommand_endWith ..

theorem execAxLEnc_endsCommand (s : State) : EndsCommand (execAxLEnc s) := by
  refine .ite (endsCommand_endWith ..) ?_
  split <;> exact endsCommand_endWith ..

/-- Every command ends: its straight line, both sides of its check, or each outcome of its reader. -/
theorem exec_endsCommand (i : Instr) (s : State) : EndsCommand (exec i s) := by
  cases i with
  | nop | bufRemove | batchReset | ar2SetSeed | ar2GetSeed | ar2DecW | ar2EncW | axDecB | axEncB | axMkVer | gs3SetSeeds
  | gs3DecP | gs3RngSeed | gs3RngNext => exact endsCommand_endWith ..
  | bufAppend | bufPrepend | ar2BDec | ar2BEnc | ar1BDec | ar1BEnc | axCrc | axBEnc | curSet | gs3EncP | gs3BDec =>
    exact .ite (endsCommand_endWith ..) (endsCommand_endWith ..)
  | gs3BEnc => exact .ite (endsCommand_endWith ..) (.ite (endsCommand_endWith ..) (endsCommand_endWith ..))
  | curRead n => exact execCurRead_endsCommand n s
  | axRdVer => exact execAxRdVer_endsCommand s
  | axBDec => exact execAxBDec_endsCommand s
  | axLDec => exact execAxLDec_endsCommand s
  | axLEnc => exact execAxLEnc_endsCommand s

/-- So does every word written to `CMD`, an illegal one included (R56, R196). -/
theorem issue_endsCommand (s : State) (c : Word) : EndsCommand (issue s c) := by
  unfold issue
  split
  · exact exec_endsCommand ..
  · exact endsCommand_endWith ..

theorem EndsCommand.statusLegal {t : State} (h : EndsCommand (.next t)) : t.StatusLegal := by
  obtain ⟨s, c, ⟨⟩⟩ := h
  exact s.endWith_statusLegal c

/-! ## Host accesses and block reset -/

/-- A host write of `LEN` leaves `STATUS`, taken or ignored (R27). -/
@[simp] theorem writeLen_status (s : State) (v : Word) : (writeLen s v).status = s.status := by
  unfold writeLen
  split <;> rfl

/-- All a host write can do to `STATUS`: it ends a command, or leaves the register alone (R37). -/
theorem hostWrite_status {s t : State} {offset : Nat} {v : Word} (h : hostWrite s offset v = .next t) :
    EndsCommand (.next t) ∨ t.status = s.status := by
  unfold hostWrite at h
  split at h
  case h_1 => exact .inl (h ▸ issue_endsCommand s v)
  case h_2 => cases h; exact .inr (writeLen_status s v)
  all_goals cases h; exact .inr rfl

/-- All a bus transaction that is answered can do to `STATUS`; a read leaves it alone (R43). -/
theorem busAccess_status {s t : State} {x : Transaction} (h : busAccess s x = .next t) :
    EndsCommand (.next t) ∨ t.status = s.status := by
  unfold busAccess at h
  split_ifs at h
  split at h
  · cases h; exact .inr rfl
  · exact hostWrite_status h

theorem performEvent_keeps_statusLegal {s t : State} {e : Event} (hs : s.StatusLegal) (h : performEvent s e = .next t) :
    t.StatusLegal := by
  cases e with
  | bus x =>
    rcases busAccess_status h with hend | hsame
    · exact hend.statusLegal
    · exact hs.of_status_eq hsame
  | blockReset =>
    cases h
    exact State.reset_statusLegal.of_status_eq rfl

/-- Settles O16: an idle block keeps its state, and no event makes `STATUS` illegal. -/
theorem stepKeepsStatusLegal : Obligations.StepKeepsStatusLegal := by
  intro s t hs h
  unfold step at h
  split at h
  · cases h; exact hs
  · refine performEvent_keeps_statusLegal ?_ h
    exact hs.of_status_eq rfl

end Sys2Proof.Machine
end

section
/-! PROOF. What every access keeps (10_state.md): the schedules and tables are those of the key and the seeds, the storage is
canonical, the cursor is in range, and `STICKY` once set stays. Each command is a few of the operations of Ops.lean in a row, so
what it does to the state is put together from what each of them does (`Effect`), and how it ends is said once (`EndsAfter`). -/

namespace Sys2Proof.Machine

/-! ## Invariants and what can be composed -/

theorem nmax_le_two_pow : Config.nmax ≤ 2 ^ 20 := by
  have := Config.nmaxOffset.isLt
  unfold Config.nmax
  omega

/-- What holds of the state before holds of the state after, for the invariants of the derived state, the buffer and the
cursor, and for `STICKY`. -/
structure KeepsInvariants (s t : State) : Prop where
  derived : s.DerivedState → t.DerivedState
  canonical : s.BufferCanonical → t.BufferCanonical
  cursor : s.CursorInRange → t.CursorInRange
  sticky : statusSticky s.status = true → statusSticky t.status = true

theorem KeepsInvariants.refl (s : State) : KeepsInvariants s s := ⟨id, id, id, id⟩

theorem KeepsInvariants.trans {s t u : State} (h : KeepsInvariants s t) (h' : KeepsInvariants t u) : KeepsInvariants s u :=
  ⟨h'.derived ∘ h.derived, h'.canonical ∘ h.canonical, h'.cursor ∘ h.cursor, h'.sticky ∘ h.sticky⟩

/-- Writes inside the window of `MEM` keep the storage canonical (R26, R36). -/
theorem State.BufferCanonical.of_touches {s : State} {m : Memory} {l lo hi : Nat} (hs : s.BufferCanonical)
    (ht : s.mem.Touches m lo hi) (hhi : hi ≤ Config.nmax) (hl : l ≤ Config.nmax) :
    State.BufferCanonical { s with mem := m, len := l } := by
  obtain ⟨hwf, hcells, -⟩ := hs
  refine ⟨ht.wf hwf, fun x hx => ?_, hl⟩
  rcases ht.cells x hx with hin | hold
  · simp only [wordAddress] at hin ⊢
    omega
  · exact hcells x hold

theorem Component.Same.trans {c : Component} {s t u : State} (h : c.Same s t) (h' : c.Same t u) : c.Same s u := by
  cases c
  case mem => exact fun a => (h' a).trans (h a)
  case schedules => exact ⟨h'.1.trans h.1, h'.2.trans h.2⟩
  case latch => exact ⟨h'.1.trans h.1, h'.2.trans h.2⟩
  all_goals exact Eq.trans h' h

/-- `t` is `s` after a part of a command that writes no more than the components `cs` and does not end it. -/
structure Effect (cs : List Component) (s t : State) : Prop extends KeepsInvariants s t where
  same : ∀ c ∉ cs, c.Same s t
  status : t.status = s.status

namespace Effect

variable {cs ds : List Component} {s t u : State}

theorem refl (cs : List Component) (s : State) : Effect cs s s :=
  ⟨.refl s, fun c _ => by cases c <;> simp [Component.Same], rfl⟩

/-- One part of a command after another. -/
theorem trans (h : Effect cs s t) (h' : Effect ds t u) (hd : ds ⊆ cs) : Effect cs s u :=
  ⟨h.toKeepsInvariants.trans h'.toKeepsInvariants, fun c hc => (h.same c hc).trans (h'.same c fun hm => hc (hd hm)),
    h'.status.trans h.status⟩

/-- A component that is the same afterwards need not be counted. -/
theorem drop {c : Component} (h : Effect (c :: cs) s t) (hc : c.Same s t) : Effect cs s t := by
  refine ⟨h.toKeepsInvariants, fun d hd => ?_, h.status⟩
  by_cases e : d = c
  · exact e ▸ hc
  · exact h.same d (by simp [e, hd])

/-! ## The operations that write one register -/

theorem setRes0 (s : State) (v : Word) : Effect [.res0] s (s.setRes0 v) :=
  ⟨⟨id, id, id, id⟩, fun c hc => by cases c <;> simp_all [Component.Same], rfl⟩

theorem setRes1 (s : State) (v : Word) : Effect [.res1] s (s.setRes1 v) :=
  ⟨⟨id, id, id, id⟩, fun c hc => by cases c <;> simp_all [Component.Same], rfl⟩

theorem setRes2 (s : State) (v : Word) : Effect [.res2] s (s.setRes2 v) :=
  ⟨⟨id, id, id, id⟩, fun c hc => by cases c <;> simp_all [Component.Same], rfl⟩

theorem setSeed (s : State) (v : Word) : Effect [.seed] s (s.setSeed v) :=
  ⟨⟨id, id, id, id⟩, fun c hc => by cases c <;> simp_all [Component.Same], rfl⟩

theorem afterAr2 (s : State) (b : Byte) : Effect [.draws] s (s.afterAr2 b) :=
  ⟨⟨id, id, id, id⟩, fun c hc => by cases c <;> simp_all [Component.Same], rfl⟩

theorem setRng (s : State) (r : Rng) : Effect [.rng] s { s with rng := r } :=
  ⟨⟨id, id, id, id⟩, fun c hc => by cases c <;> simp_all [Component.Same], rfl⟩

theorem setLatch (s : State) (l : Bool) (k : BitVec 3) : Effect [.latch] s { s with gs3l := l, gs3k := k } :=
  ⟨⟨id, id, id, id⟩, fun c hc => by cases c <;> simp_all [Component.Same], rfl⟩

/-- Seeds are written with the tables they give (R21, R170). -/
theorem setGs3Seeds (s : State) (x : Seeds) : Effect [.gs3s, .tbl, .rng] s (s.setGs3Seeds x) :=
  ⟨⟨fun ⟨hE, hD, _⟩ => ⟨hE, hD, rfl⟩, id, id, id⟩, fun c hc => by cases c <;> simp_all [Component.Same], rfl⟩

theorem setCursor (s : State) (c : Cursor) (h : s.CursorInRange → (s.setCursor c).CursorInRange) :
    Effect [.cursor] s (s.setCursor c) :=
  ⟨⟨id, id, h, id⟩, fun c hc => by cases c <;> simp_all [Component.Same], rfl⟩

/-! ## The operations that write the buffer -/

/-- Words of the buffer written and the length changed, the words written lying below a bound that `NMAX` keeps. -/
theorem buffer_upTo (s : State) {m : Memory} {l lo hi : Nat} (d : Nat) (ht : s.mem.Touches m lo hi)
    (hhi : s.len ≤ Config.nmax → hi ≤ Config.nmax) (hl : s.len ≤ Config.nmax → l ≤ Config.nmax) :
    Effect [.draws, .len, .mem] s { s with mem := m, len := l, draws := d } where
  derived := id
  canonical := fun hs => hs.of_touches ht (hhi hs.2.2) (hl hs.2.2)
  cursor := fun ⟨hlen, hcur⟩ => ⟨hl hlen, hcur⟩
  sticky := id
  same := fun c hc => by cases c <;> simp_all [Component.Same]
  status := rfl

/-- Words of the buffer rewritten, and perhaps some taken away. -/
theorem buffer (s : State) {m : Memory} {l lo : Nat} (d : Nat) (ht : s.mem.Touches m lo s.len) (hl : l ≤ s.len) :
    Effect [.draws, .len, .mem] s { s with mem := m, len := l, draws := d } :=
  buffer_upTo s d ht id hl.trans

/-- Words of the buffer rewritten in place. -/
theorem setMem (s : State) {m : Memory} {lo : Nat} (ht : s.mem.Touches m lo s.len) : Effect [.mem] s { s with mem := m } :=
  ((buffer s s.draws ht (Nat.le_refl _)).drop (c := .draws) rfl).drop (c := .len) rfl

/-- The buffer one word longer, where there is room (R83, R84). -/
theorem grow (s : State) {m : Memory} (ht : s.mem.Touches m 0 (s.len + 1)) (hroom : s.len ≠ Config.nmax) :
    Effect [.mem, .len] s { s with mem := m, len := s.len + 1 } :=
  (refl _ s).trans ((buffer_upTo s s.draws ht (fun _ => by omega) fun _ => by omega).drop (c := .draws) rfl) (by simp)

theorem removeWords (s : State) (start count : Nat) : Effect [.mem, .len, .draws] s (s.removeWords start count) := by
  by_cases hno : start < 1 ∨ s.len < start ∨ count < 1
  · rw [State.removeWords_noop s start count hno]
    exact refl ..
  · refine (refl _ s).trans (ds := [.draws, .len, .mem]) ?_ (by simp)
    by_cases htrunc : s.len < start + count
    · obtain ⟨m, e, ht, -⟩ := State.removeWords_truncate s start count (by omega) (by omega) (by omega) htrunc
      exact e ▸ buffer s _ ht (Nat.sub_le ..)
    · obtain ⟨m, e, ht, -⟩ := State.removeWords_copy s start count (by omega) (by omega) (by omega)
      exact e ▸ buffer s _ ht (Nat.sub_le ..)

/-- The payload byte swap (R139). -/
theorem swapPayload (s : State) {p : Nat} (hp : p ≤ s.len) : Effect [.mem] s (s.swapPayload p) := by
  obtain ⟨m, e, ht, -⟩ := swapPayload_spec s p hp
  exact e ▸ setMem s ht

/-! ## The batches -/

/-- `Ar2BatchDec` over the rest of the buffer (R101). -/
theorem ar2BatchDec (s : State) {n i : Nat} (h : i + 2 * n = s.len) :
    Effect [.seed, .draws, .len, .mem] s (ar2BatchDec n i s) := by
  obtain ⟨m, e, ht, -⟩ := ar2BatchDec_spec n i s h _ rfl
  have hlen := ar2DecStream_length (s.mem.pairs i n) s.seed s.draws
  rw [Memory.pairs_length] at hlen
  rw [e]
  exact ((refl _ s).trans (buffer s _ ht (by omega)) (by simp)).trans (setSeed _ _) (by simp)

/-- `Ar2BatchEnc` over pairs of the buffer (R102). -/
theorem ar2BatchEnc (s : State) {n i : Nat} (h : i + 2 * n ≤ s.len) :
    Effect [.seed, .draws, .mem] s (ar2BatchEnc n i s) := by
  obtain ⟨m, e, ht, -⟩ := ar2BatchEnc_spec n i s _ rfl
  rw [e]
  refine drop (c := .len) ?_ rfl
  exact ((refl _ s).trans (buffer s (l := s.len) _ (ht.mono (Nat.le_refl _) h) (Nat.le_refl _)) (by simp)).trans
    (setSeed _ _) (by simp)

theorem gs3SecondLine (f : BitVec 3 → Gs3Tables → Pair → Pair) (x : Pair) (s : State) :
    Effect gs3Components s (gs3SecondLine f x s).2 :=
  (refl _ s).trans (setLatch s false s.gs3k) (by simp [gs3Components])

/-- A first line leaves the state, sets the latch, or writes the seeds of a refresh pair (R173, R177). -/
theorem gs3FirstLine (f : BitVec 3 → Gs3Tables → Pair → Pair) (k : BitVec 3) (x : Pair) (s : State) :
    Effect gs3Components s (gs3FirstLine f k x s).2 := by
  unfold Machine.gs3FirstLine
  split_ifs
  · exact refl ..
  · exact (refl _ s).trans (setLatch s true k) (by simp [gs3Components])
  · exact (refl _ s).trans (setGs3Seeds s _) (by simp [gs3Components])
  · exact refl ..

theorem gs3DecPair (x : Pair) (s : State) : Effect gs3Components s (gs3DecPair x s).2 := by
  unfold Machine.gs3DecPair
  split
  · exact gs3SecondLine ..
  · exact gs3FirstLine ..

theorem gs3EncPair (key : BitVec 3) (x : Pair) (s : State) : Effect gs3Components s (gs3EncPair key x s).2 := by
  unfold Machine.gs3EncPair
  split
  · exact gs3SecondLine ..
  · exact gs3FirstLine ..

theorem gs3DecStream (ps : List Pair) (s : State) : Effect gs3Components s (gs3DecStream ps s).2 := by
  induction ps generalizing s with
  | nil => exact refl ..
  | cons p ps ih =>
    have hps : Effect gs3Components s (Machine.gs3DecStream ps (Machine.gs3DecPair p s).2).2 :=
      (gs3DecPair p s).trans (ih _) (List.Subset.refl _)
    simp only [Machine.gs3DecStream]
    split <;> exact hps

theorem gs3EncStream (key : BitVec 3) (ps : List Pair) (s : State) : Effect gs3Components s (gs3EncStream key ps s).2 := by
  induction ps generalizing s with
  | nil => exact refl ..
  | cons p ps ih => exact (gs3EncPair key p s).trans (ih _) (List.Subset.refl _)

/-- `GS3_BDEC`'s loop over the rest of the buffer (R179). -/
theorem gs3BatchDec (s : State) {n i : Nat} (h : i + 2 * n = s.len) :
    Effect ([.mem, .len, .draws] ++ gs3Components) s (gs3BatchDec n i s) := by
  obtain ⟨m, e, ht, -⟩ := gs3BatchDec_spec n i s h _ rfl
  have hlen := gs3DecStream_length (s.mem.pairs i n) s
  rw [Memory.pairs_length] at hlen
  have hgs3 := gs3DecStream (s.mem.pairs i n) s
  rw [show (Machine.gs3DecStream (s.mem.pairs i n) s).2 = s.withGs3Of (Machine.gs3DecStream (s.mem.pairs i n) s).2 from
    congrArg Prod.snd (gs3DecStream_withGs3Of (s.mem.pairs i n) s s)] at hgs3
  rw [e]
  exact ((refl _ s).trans hgs3 (List.subset_append_right _ _)).trans
    (buffer _ _ ht (by simp only [State.withGs3Of]; omega)) (by simp)

/-- `GS3_BENC`'s loop over pairs of the buffer (R180). -/
theorem gs3BatchEnc (key : BitVec 3) (s : State) {n i : Nat} (h : i + 2 * n ≤ s.len) :
    Effect (.mem :: gs3Components) s (gs3BatchEnc key n i s) := by
  obtain ⟨m, e, ht, -⟩ := gs3BatchEnc_spec key n i s _ rfl
  have hgs3 := gs3EncStream key (s.mem.pairs i n) s
  rw [show (Machine.gs3EncStream key (s.mem.pairs i n) s).2 =
      s.withGs3Of (Machine.gs3EncStream key (s.mem.pairs i n) s).2 from
    congrArg Prod.snd (gs3EncStream_withGs3Of key (s.mem.pairs i n) s s)] at hgs3
  rw [e]
  exact ((refl _ s).trans hgs3 (by simp)).trans (setMem (s.withGs3Of _) (ht.mono (Nat.le_refl _) h)) (by simp)

end Effect
end Sys2Proof.Machine
end

section
/-! PROOF. How each command ends (R9, R54, R191): after operations that write no more than its "writes" column, by
`State.endWith`. -/

namespace Sys2Proof.Machine

/-! ## How each command ends -/

/-- The outcome is a next state in which a command that started from `s` has just ended, and wrote no more than `cs` before
it did. -/
def EndsAfter (cs : List Component) (s : State) (o : Host.Outcome State Fault Refusal) : Prop :=
  ∃ u c, o = .next (State.endWith u c) ∧ Effect cs s u

theorem Effect.endsAfter {cs : List Component} {s u : State} (h : Effect cs s u) (c : Code) :
    EndsAfter cs s (.next (u.endWith c)) := ⟨u, c, rfl, h⟩

/-- A command that finds an error before it has written anything. -/
theorem endsAfter_raise (cs : List Component) (s : State) (c : Code) : EndsAfter cs s (.next (s.endWith c)) :=
  (Effect.refl cs s).endsAfter c

/-- `CUR_SET` takes an offset and a limit it has checked, and any 32-bit word index (R147). -/
theorem execCurSet_endsAfter (s : State) : EndsAfter [.cursor] s (execCurSet s) := by
  unfold execCurSet
  split_ifs with hbad
  · exact endsAfter_raise ..
  · obtain ⟨hbit, hlimit⟩ : s.op.r1.toNat ≤ 31 ∧ s.op.r2.toNat ≤ s.len := by omega
    have hcur : s.CursorInRange → (s.setCursor ⟨s.op.r0.toNat, s.op.r1.toNat, s.op.r2.toNat⟩).CursorInRange :=
      fun ⟨hlen, _⟩ => ⟨hlen, hlimit.trans hlen, hbit, s.op.r0.isLt⟩
    exact (Effect.setCursor s _ hcur).endsAfter _

/-- A read from a cursor in range leaves it in range, whether it fails or not (R146). -/
theorem readBits_cursorInRange {s : State} {n : Nat} {o : Option Word} {cur : Cursor}
    (h : readBits s.mem n s.cur = (o, cur)) (hs : s.CursorInRange) : (s.setCursor cur).CursorInRange := by
  obtain ⟨hlen, hlimit, hbit, hword⟩ := hs
  obtain ⟨hl, hb, hw⟩ := readBitsFrom_cursor s.mem n 0 s.cur hbit
  rw [show readBitsFrom s.mem n 0 s.cur = (o, cur) from h] at hl hb hw
  have := nmax_le_two_pow
  simp only at hl hb hw
  refine ⟨hlen, ?_, hb, ?_⟩
  · simp only [State.setCursor_cur]
    omega
  · simp only [State.setCursor_cur]
    omega

theorem execCurRead_endsAfter (n : Byte) (s : State) : EndsAfter [.res0, .cursor] s (execCurRead n s) := by
  unfold execCurRead
  split_ifs
  · exact endsAfter_raise ..
  · split
    · next hr =>
      exact ((Effect.refl _ s).trans (.setCursor s _ (readBits_cursorInRange hr)) (by simp)).endsAfter _
    · next hr =>
      exact (((Effect.refl _ s).trans (.setCursor s _ (readBits_cursorInRange hr)) (by simp)).trans (.setRes0 ..)
        (by simp)).endsAfter _

/-- The verifier reader leaves the cursor within the buffer it read, or where it starts (R149). -/
theorem readVerifier_cursorInRange {s : State} {m : Memory} {o : Option (Nat × Nat)} {cur : Cursor}
    (h : readVerifier m s.len = (o, cur)) (hs : s.CursorInRange) : (s.setCursor cur).CursorInRange := by
  have hlen := hs.1
  have := nmax_le_two_pow
  have hcur : cur.limit = s.len ∧ cur.bit ≤ 31 ∧ cur.word ≤ s.len + 1 := by
    rcases readVerifier_spec m s.len with ⟨sels, -, hb, e⟩ | ⟨-, e⟩
    · obtain ⟨-, rfl⟩ := Prod.mk.inj (e.symm.trans h)
      refine ⟨rfl, ?_, ?_⟩ <;> dsimp only <;> omega
    · obtain ⟨-, rfl⟩ := Prod.mk.inj (e.symm.trans h)
      split_ifs <;> simp
  refine ⟨hlen, ?_, hcur.2.1, ?_⟩
  · simp only [State.setCursor_cur]
    omega
  · simp only [State.setCursor_cur]
    omega

theorem execAxRdVer_endsAfter (s : State) : EndsAfter [.res0, .res1, .cursor] s (execAxRdVer s) := by
  unfold execAxRdVer
  split
  · next hr =>
    exact ((Effect.refl _ s).trans (.setCursor s _ (readVerifier_cursorInRange hr)) (by simp)).endsAfter _
  · next hr =>
    exact ((((Effect.refl _ s).trans (.setCursor s _ (readVerifier_cursorInRange hr)) (by simp)).trans (.setRes0 ..)
      (by simp)).trans (.setRes1 ..) (by simp)).endsAfter _

theorem badAxLength_false {len : Nat} (h : ¬ badAxLength len = true) : len % 2 = 0 ∧ 2 ≤ len := by
  simp only [badAxLength, decide_eq_true_eq] at h
  omega

/-- The storage `AxBlockDec()` leaves (R135). -/
theorem Effect.axBlockDec {s : State} (hlen : ¬ badAxLength s.len = true) {m : Memory} {b : Bool}
    (h : Machine.axBlockDec Config.ax s.schedD s.mem s.len = (m, b)) : Effect [.mem] s { s with mem := m } := by
  obtain ⟨heven, htwo⟩ := badAxLength_false hlen
  obtain ⟨-, -, ht⟩ := axBlockDec_spec s.schedD s.mem s.len heven htwo _ _ rfl rfl
  rw [h] at ht
  exact setMem s ht

/-- The storage `AxBlockEnc()` leaves (R136). -/
theorem Effect.axBlockEnc (s : State) (hlen : ¬ badAxLength s.len = true) :
    Effect [.mem] s { s with mem := Machine.axBlockEnc Config.ax s.schedE s.mem s.len } := by
  obtain ⟨heven, htwo⟩ := badAxLength_false hlen
  exact setMem s (axBlockEnc_spec s.schedE s.mem s.len heven htwo).2

theorem execAxBDec_endsAfter (s : State) : EndsAfter [.mem] s (execAxBDec s) := by
  unfold execAxBDec
  split_ifs with hlen
  · exact endsAfter_raise ..
  · split
    · next hm => exact (Effect.axBlockDec hlen hm).endsAfter _
    · next hm => exact (Effect.axBlockDec hlen hm).endsAfter _

/-- The payload starts within an even buffer in which the reader found a verifier (R141). -/
theorem readVerifier_payload_le {m : Memory} {len lines c : Nat} {cur : Cursor} (heven : len % 2 = 0)
    (h : readVerifier m len = (some (lines, c), cur)) : 2 * lines ≤ len := by
  obtain ⟨hroom, hc, rfl, -⟩ := readVerifier_some h
  have := verifierLines_bounds c hc
  omega

/-- `AX_LDEC`: what the block decryption and the reader did stays on an error (R138, R197). -/
theorem execAxLDec_endsAfter (s : State) :
    EndsAfter [.mem, .len, .seed, .cursor, .res0, .draws] s (execAxLDec s) := by
  unfold execAxLDec
  split_ifs with hlen
  · exact endsAfter_raise ..
  · split
    · next hm => exact ((Effect.refl _ s).trans (.axBlockDec hlen hm) (by simp)).endsAfter _
    · next m hm =>
      have hdec := (Effect.refl [.mem, .len, .seed, .cursor, .res0, .draws] s).trans (.axBlockDec hlen hm) (by simp)
      split
      · next hr =>
        exact (hdec.trans (.setCursor { s with mem := m } _ (readVerifier_cursorInRange hr)) (by simp)).endsAfter _
      · next lines c cur hr =>
        obtain ⟨heven, -⟩ := badAxLength_false hlen
        have hp := readVerifier_payload_le heven hr
        have hcur := hdec.trans (.setCursor { s with mem := m } _ (readVerifier_cursorInRange hr)) (by simp)
        have hswap := hcur.trans (.swapPayload _ hp) (by simp)
        have hseed := hswap.trans (.setSeed _ s.op.r0) (by simp)
        have hbatch := hseed.trans (.ar2BatchDec _ (n := (s.len - 2 * lines) / 2) (i := 2 * lines) (by
          simp only [State.setSeed_len, State.swapPayload_len, State.setCursor_len]
          omega)) (by simp)
        exact (hbatch.trans (.setRes0 _ (BitVec.ofNat 32 lines)) (by simp)).endsAfter _

theorem ar2BatchEnc_len (n i : Nat) (s : State) : (ar2BatchEnc n i s).len = s.len := by
  obtain ⟨m, e, -⟩ := ar2BatchEnc_spec n i s _ rfl
  rw [e]

/-- `AX_LENC` (R140). -/
theorem execAxLEnc_endsAfter (s : State) :
    EndsAfter [.mem, .seed, .cursor, .res0, .draws] s (execAxLEnc s) := by
  unfold execAxLEnc
  split_ifs with hlen
  · exact endsAfter_raise ..
  · split
    · next hr =>
      exact ((Effect.refl _ s).trans (.setCursor s _ (readVerifier_cursorInRange hr)) (by simp)).endsAfter _
    · next lines c cur hr =>
      obtain ⟨heven, -⟩ := badAxLength_false hlen
      have hp := readVerifier_payload_le heven hr
      have hcur := (Effect.refl [.mem, .seed, .cursor, .res0, .draws] s).trans
        (.setCursor s _ (readVerifier_cursorInRange hr)) (by simp)
      have hseed := hcur.trans (.setSeed _ s.op.r0) (by simp)
      have hbatch := hseed.trans (.ar2BatchEnc _ (n := (s.len - 2 * lines) / 2) (i := 2 * lines) (by
        simp only [State.setSeed_len, State.setCursor_len]
        omega)) (by simp)
      have hl := ar2BatchEnc_len ((s.len - 2 * lines) / 2) (2 * lines) ((s.setCursor cur).setSeed s.op.r0)
      have hswap := hbatch.trans (.swapPayload _ (hp.trans_eq hl.symm)) (by simp)
      have hblock := hswap.trans (.axBlockEnc _ (by rwa [State.swapPayload_len, hl])) (by simp)
      exact (hblock.trans (.setRes0 _ (BitVec.ofNat 32 lines)) (by simp)).endsAfter _

/-- An even buffer is its pairs. -/
theorem two_mul_half {n : Nat} (h : ¬ n % 2 = 1) : 0 + 2 * (n / 2) = n := by omega

theorem execAr2BDec_endsAfter (s : State) : EndsAfter [.mem, .len, .seed, .draws] s (execAr2BDec s) := by
  unfold execAr2BDec
  split_ifs with hodd
  · exact endsAfter_raise ..
  · exact ((Effect.refl _ s).trans (.ar2BatchDec s (two_mul_half hodd)) (by simp)).endsAfter _

theorem execAr2BEnc_endsAfter (s : State) : EndsAfter [.mem, .seed, .draws] s (execAr2BEnc s) := by
  unfold execAr2BEnc
  split_ifs with hodd
  · exact endsAfter_raise ..
  · exact ((Effect.refl _ s).trans (.ar2BatchEnc s (two_mul_half hodd).le) (by simp)).endsAfter _

/-- `AR1_BDEC` forces the seed and puts it back, so it is not counted (R105). -/
theorem execAr1BDec_endsAfter (s : State) : EndsAfter [.mem, .len, .draws] s (execAr1BDec s) := by
  unfold execAr1BDec
  split_ifs with hodd
  · exact endsAfter_raise ..
  · have hforced := (Effect.refl [.seed, .mem, .len, .draws] s).trans (.setSeed s Config.ar2.ar1Seed) (by simp)
    have hbatch := hforced.trans (.ar2BatchDec _ (two_mul_half hodd)) (by simp)
    exact ((hbatch.trans (.setSeed _ s.seed) (by simp)).drop rfl).endsAfter _

theorem execAr1BEnc_endsAfter (s : State) : EndsAfter [.mem, .draws] s (execAr1BEnc s) := by
  unfold execAr1BEnc
  split_ifs with hodd
  · exact endsAfter_raise ..
  · have hforced := (Effect.refl [.seed, .mem, .draws] s).trans (.setSeed s Config.ar2.ar1Seed) (by simp)
    have hbatch := hforced.trans (.ar2BatchEnc _ (two_mul_half hodd).le) (by simp)
    exact ((hbatch.trans (.setSeed _ s.seed) (by simp)).drop rfl).endsAfter _

theorem execBufAppend_endsAfter (s : State) : EndsAfter [.mem, .len] s (execBufAppend s) := by
  unfold execBufAppend
  split_ifs with hfull
  · exact endsAfter_raise ..
  · exact (Effect.grow s (Memory.touches_writeWord s.mem s.op.r0 (Nat.zero_le _) (Nat.lt_succ_self _)) hfull).endsAfter _

theorem execBufPrepend_endsAfter (s : State) : EndsAfter [.mem, .len] s (execBufPrepend s) := by
  unfold execBufPrepend
  split_ifs with hfull
  · exact endsAfter_raise ..
  · have hshift := (Memory.touches_shiftUp s.len s.mem).mono (Nat.zero_le 1) (Nat.le_refl _)
    exact (Effect.grow s (hshift.trans (Memory.touches_writeWord _ s.op.r0 (Nat.le_refl 0) (Nat.succ_pos _)))
      hfull).endsAfter _

theorem State.setGs3Result_effect (s : State) (r : Gs3Result) : Effect [.res0, .res1, .res2] s (s.setGs3Result r) :=
  (((Effect.refl _ s).trans (.setRes0 ..) (by simp)).trans (.setRes1 ..) (by simp)).trans (.setRes2 ..) (by simp)

theorem execGs3DecP_endsAfter (s : State) : EndsAfter ([.res0, .res1, .res2] ++ gs3Components) s (execGs3DecP s) :=
  (((Effect.refl _ s).trans (.gs3DecPair (s.op.r0, s.op.r1) s) (List.subset_append_right _ _)).trans
    (State.setGs3Result_effect ..) (List.subset_append_left _ _)).endsAfter _

theorem execGs3EncP_endsAfter (key : Byte) (s : State) :
    EndsAfter ([.res0, .res1, .res2] ++ gs3Components) s (execGs3EncP key s) := by
  unfold execGs3EncP
  split_ifs
  · exact endsAfter_raise ..
  · exact (((Effect.refl _ s).trans (.gs3EncPair (key.setWidth 3) (s.op.r0, s.op.r1) s)
      (List.subset_append_right _ _)).trans (State.setGs3Result_effect ..) (List.subset_append_left _ _)).endsAfter _

theorem execGs3BDec_endsAfter (s : State) : EndsAfter ([.mem, .len, .draws] ++ gs3Components) s (execGs3BDec s) := by
  unfold execGs3BDec
  split_ifs with hodd
  · exact endsAfter_raise ..
  · exact (Effect.gs3BatchDec s (two_mul_half hodd)).endsAfter _

theorem execGs3BEnc_endsAfter (key : Byte) (s : State) :
    EndsAfter (.mem :: gs3Components) s (execGs3BEnc key s) := by
  unfold execGs3BEnc
  split_ifs with _ hodd
  · exact endsAfter_raise ..
  · exact endsAfter_raise ..
  · exact (Effect.gs3BatchEnc _ s (two_mul_half hodd).le).endsAfter _

theorem execBatchReset_endsAfter (s : State) : EndsAfter [.seed, .gs3s, .tbl, .latch, .rng] s (execBatchReset s) :=
  ((((Effect.refl _ s).trans (.setSeed s Config.ar2.seedReset) (by simp)).trans (.setGs3Seeds _ Config.gs3.seedsReset)
    (by simp)).trans (.setLatch _ false 0) (by simp)).endsAfter _

theorem execAxCrc_endsAfter (s : State) : EndsAfter [.res0, .res1, .res2] s (execAxCrc s) := by
  unfold execAxCrc
  split_ifs
  · exact endsAfter_raise ..
  · exact ((((Effect.refl _ s).trans (.setRes1 ..) (by simp)).trans (.setRes0 ..) (by simp)).trans (.setRes2 ..)
      (by simp)).endsAfter _

theorem execAxBEnc_endsAfter (s : State) : EndsAfter [.mem] s (execAxBEnc s) := by
  unfold execAxBEnc
  split_ifs with hlen
  · exact endsAfter_raise ..
  · exact (Effect.axBlockEnc s hlen).endsAfter _

/-- The two result words of a block command or of `AX_MKVER` (R122, R123, R152). -/
theorem setRes01_endsAfter (s : State) (a v : Word) : EndsAfter [.res0, .res1] s (.next ((s.setRes0 a).setRes1 v).finish) :=
  (((Effect.refl _ s).trans (.setRes0 ..) (by simp)).trans (.setRes1 ..) (by simp)).endsAfter _

/-- One AR2 transform of a word (R99, R100). -/
theorem setRes0_afterAr2_endsAfter (s : State) (v : Word) (b : Byte) :
    EndsAfter [.res0, .draws] s (.next ((s.setRes0 v).afterAr2 b).finish) :=
  (((Effect.refl _ s).trans (.setRes0 ..) (by simp)).trans (.afterAr2 ..) (by simp)).endsAfter _

theorem execGs3RngNext_endsAfter (s : State) : EndsAfter [.res0, .rng] s (execGs3RngNext s) :=
  (((Effect.refl _ s).trans (.setRng ..) (by simp)).trans (.setRes0 ..) (by simp)).endsAfter _

/-- Every command writes its column and ends (R54, R191). -/
theorem exec_endsAfter (i : Instr) (s : State) : EndsAfter (writesOf i) s (exec i s) := by
  cases i with
  | nop => exact endsAfter_raise ..
  | bufAppend => exact execBufAppend_endsAfter s
  | bufPrepend => exact execBufPrepend_endsAfter s
  | bufRemove => exact (Effect.removeWords s _ _).endsAfter _
  | batchReset => exact execBatchReset_endsAfter s
  | ar2SetSeed => exact (Effect.setSeed s _).endsAfter _
  | ar2GetSeed => exact (Effect.setRes0 s _).endsAfter _
  | ar2DecW | ar2EncW => exact setRes0_afterAr2_endsAfter ..
  | ar2BDec => exact execAr2BDec_endsAfter s
  | ar2BEnc => exact execAr2BEnc_endsAfter s
  | ar1BDec => exact execAr1BDec_endsAfter s
  | ar1BEnc => exact execAr1BEnc_endsAfter s
  | axDecB | axEncB | axMkVer => exact setRes01_endsAfter ..
  | axCrc => exact execAxCrc_endsAfter s
  | axBDec => exact execAxBDec_endsAfter s
  | axBEnc => exact execAxBEnc_endsAfter s
  | axRdVer => exact execAxRdVer_endsAfter s
  | axLDec => exact execAxLDec_endsAfter s
  | axLEnc => exact execAxLEnc_endsAfter s
  | curSet => exact execCurSet_endsAfter s
  | curRead n => exact execCurRead_endsAfter n s
  | gs3SetSeeds => exact (Effect.setGs3Seeds s _).endsAfter _
  | gs3DecP => exact execGs3DecP_endsAfter s
  | gs3EncP key => exact execGs3EncP_endsAfter key s
  | gs3BDec => exact execGs3BDec_endsAfter s
  | gs3BEnc key => exact execGs3BEnc_endsAfter key s
  | gs3RngSeed => exact (Effect.setRng s _).endsAfter _
  | gs3RngNext => exact execGs3RngNext_endsAfter s

end Sys2Proof.Machine
end

section
/-! PROOF. What every command, every access and every step keeps: the statements on the writes column, the derived state, the
buffer, the cursor and `STICKY`. -/

namespace Sys2Proof.Machine

/-! ## What the end of a command leaves -/

theorem EndsAfter.next_inv {cs : List Component} {s t : State} (h : EndsAfter cs s (.next t)) :
    ∃ u c, t = u.endWith c ∧ Effect cs s u := by
  obtain ⟨u, c, ⟨⟩, he⟩ := h
  exact ⟨u, c, rfl, he⟩

/-- The end of a command loses none of the invariants; `STICKY` is the old one or set (R18). -/
theorem State.endWith_keeps (s : State) (c : Code) : KeepsInvariants s (s.endWith c) :=
  ⟨id, id, id, fun h => by simp [statusAfter, h]⟩

theorem EndsAfter.keeps {cs : List Component} {s t : State} (h : EndsAfter cs s (.next t)) : KeepsInvariants s t := by
  obtain ⟨u, c, rfl, he⟩ := h.next_inv
  exact he.toKeepsInvariants.trans (u.endWith_keeps c)

/-- The end of a command writes `STATUS` only. -/
theorem Component.Same.endWith {c : Component} {s u : State} (h : c.Same s u) (e : Code) : c.Same s (u.endWith e) := by
  cases c <;> exact h

/-- The forms of `STATUS` a command can leave (R9, R18, R191). -/
theorem statusAfter_forms (st : Word) (c : Code) :
    statusAfter st c = okStatus st ∨ statusAfter st c = errStatus 1 ∨ statusAfter st c = errStatus 2 ∨
      statusAfter st c = errStatus 3 ∨ statusAfter st c = errStatus 4 := by
  cases c with
  | ok => exact .inl (statusAfter_ok st)
  | illegal => exact .inr (.inl (statusAfter_error st _ (by decide)))
  | structural => exact .inr (.inr (.inl (statusAfter_error st _ (by decide))))
  | crc => exact .inr (.inr (.inr (.inl (statusAfter_error st _ (by decide)))))
  | verifier => exact .inr (.inr (.inr (.inr (statusAfter_error st _ (by decide)))))

/-- Settles O22: a command is parts that write its column, and then its end, which writes `STATUS`. -/
theorem commandsWriteOnlyTheirColumn : Obligations.CommandsWriteOnlyTheirColumn := by
  intro i s t h
  obtain ⟨u, e, rfl, he⟩ := (h ▸ exec_endsAfter i s).next_inv
  refine ⟨fun c hc => (he.same c hc).endWith e, ?_⟩
  rw [State.endWith_status, he.status]
  exact statusAfter_forms ..

/-! ## Every access, and every step -/

/-- A word written to `CMD` ends a command, the one it encodes or none (R17, R56). -/
theorem issue_keeps {s t : State} {c : Word} (h : issue s c = .next t) : KeepsInvariants s t := by
  have hcmd : KeepsInvariants s { s with cmd := c } := ⟨id, id, id, id⟩
  refine hcmd.trans ?_
  unfold issue at h
  split at h
  · next i _ => exact (h ▸ exec_endsAfter i { s with cmd := c }).keeps
  · cases h
    exact State.endWith_keeps ..

/-- A host write to `LEN` leaves it at most `NMAX` (R27). -/
theorem writeLen_keeps (s : State) (v : Word) : KeepsInvariants s (writeLen s v) := by
  unfold writeLen
  split
  · next hv => exact ⟨id, fun ⟨hwf, hcells, _⟩ => ⟨hwf, hcells, hv⟩, fun ⟨_, hcur⟩ => ⟨hv, hcur⟩, id⟩
  · exact .refl s

/-- The map lists no buffer word beyond the window (R36). -/
theorem targetOf_mem_lt {offset i : Nat} (h : targetOf offset = some (.mem i)) : i < Config.nmax := by
  unfold targetOf at h
  split at h
  · next row hrow =>
    have hmem := List.mem_of_find?_eq_some hrow
    have hreg : ∀ r ∈ registerMap, ∀ j, r.2 ≠ .mem j := by simp [registerMap]
    exact absurd (Option.some.inj h) (hreg row hmem i)
  · split_ifs at h
    cases h
    omega

theorem hostWrite_keeps {s t : State} {offset : Nat} {v : Word} (h : hostWrite s offset v = .next t) :
    KeepsInvariants s t := by
  unfold hostWrite at h
  split at h
  case h_1 => exact issue_keeps h
  case h_2 => cases h; exact writeLen_keeps s v
  case h_4 i hi =>
    cases h
    have ht := Memory.touches_writeWord s.mem v (Nat.zero_le i) (targetOf_mem_lt hi)
    exact ⟨id, fun hs => hs.of_touches ht (Nat.le_refl _) hs.2.2, id, id⟩
  all_goals cases h; exact ⟨id, id, id, id⟩

theorem busAccess_keeps {s t : State} {x : Transaction} (h : busAccess s x = .next t) : KeepsInvariants s t := by
  unfold busAccess at h
  split_ifs at h
  split at h
  · cases h; exact ⟨id, id, id, id⟩
  · exact hostWrite_keeps h

/-- All a step can do to the invariants: it keeps them, or it is a block reset. -/
theorem step_keeps_or_resets {s t : State} (h : step s = .next t) :
    KeepsInvariants s t ∨ ∃ rest, s.events = .blockReset :: rest ∧ t = blockReset { s with events := rest } := by
  unfold step at h
  split at h
  · cases h; exact .inl (.refl s)
  · next e rest hev =>
    have htake : KeepsInvariants s { s with events := rest } := ⟨id, id, id, id⟩
    cases e with
    | bus x => exact .inl (htake.trans (busAccess_keeps h))
    | blockReset => cases h; exact .inr ⟨rest, hev, rfl⟩

/-! ## Block reset -/

theorem State.reset_derivedState : State.reset.DerivedState := ⟨rfl, rfl, rfl⟩

theorem State.reset_bufferCanonical : State.reset.BufferCanonical :=
  ⟨rfl, fun _ hx => absurd hx List.not_mem_nil, Nat.zero_le _⟩

theorem State.reset_cursorInRange : State.reset.CursorInRange :=
  ⟨Nat.zero_le _, Nat.zero_le _, Nat.zero_le _, Nat.two_pow_pos 32⟩

/-- Block reset leaves the reset state but for the epoch of `MEM` and the model's own fields, which no invariant sees. -/
theorem blockReset_derivedState (s : State) : (blockReset s).DerivedState := State.reset_derivedState

theorem blockReset_bufferCanonical (s : State) : (blockReset s).BufferCanonical := State.reset_bufferCanonical

theorem blockReset_cursorInRange (s : State) : (blockReset s).CursorInRange := State.reset_cursorInRange

/-! ## The invariants of every step -/

/-- Settles O17. -/
theorem stepKeepsDerivedState : Obligations.StepKeepsDerivedState := by
  intro s t hs h
  rcases step_keeps_or_resets h with hkeep | ⟨rest, -, rfl⟩
  · exact hkeep.derived hs
  · exact blockReset_derivedState _

/-- Settles O18. -/
theorem stepKeepsBufferCanonical : Obligations.StepKeepsBufferCanonical := by
  intro s t hs h
  rcases step_keeps_or_resets h with hkeep | ⟨rest, -, rfl⟩
  · exact hkeep.canonical hs
  · exact blockReset_bufferCanonical _

/-- Settles O19. -/
theorem stepKeepsCursorInRange : Obligations.StepKeepsCursorInRange := by
  intro s t hs h
  rcases step_keeps_or_resets h with hkeep | ⟨rest, -, rfl⟩
  · exact hkeep.cursor hs
  · exact blockReset_cursorInRange _

/-- Settles O21: what is no block reset keeps `STICKY`. -/
theorem stickyClearedOnlyByReset : Obligations.StickyClearedOnlyByReset := by
  intro s t h hs
  rcases step_keeps_or_resets h with hkeep | ⟨rest, hev, -⟩
  · exact .inl (hkeep.sticky hs)
  · exact .inr ⟨rest, hev⟩

end Sys2Proof.Machine
end

section
/-! PROOF. The accesses of the host to `CMD` and `LEN`, and block reset (R16, R17, R27, R33, R206). -/

namespace Sys2Proof.Machine

/-! ## A command word decodes to its command (R52, R54, R55) -/

theorem opcField_commandWord (opc imm : Byte) : opcField (commandWord opc imm) = opc := by
  apply BitVec.eq_of_getLsbD_eq
  intro i hi
  simp [opcField, commandWord, hi]
  omega

theorem immField_commandWord (opc imm : Byte) : immField (commandWord opc imm) = imm := by
  apply BitVec.eq_of_getLsbD_eq
  intro i hi
  have hword : 8 + i < 32 ∧ i < 32 := by omega
  simp [immField, commandWord, hi, hword]

/-- The low byte of the mask is all ones in both formats, so only the row of its opcode selects a word (R55). -/
theorem OpcodeRow.opc_eq_of_selects {c : Word} {r : OpcodeRow} (h : r.selects c = true) : r.opc = opcField c := by
  have hlow : ∀ f : Format, opcField (c &&& f.mask) = opcField c := by
    intro f
    apply BitVec.eq_of_getLsbD_eq
    intro i hi
    cases f <;> interval_cases i <;> simp [opcField, Format.mask]
  have hpat : opcField r.pattern = r.opc := by
    apply BitVec.eq_of_getLsbD_eq
    intro i hi
    simp [opcField, OpcodeRow.pattern, hi]
    omega
  rw [← hpat, ← hlow r.fmt, beq_iff_eq.mp h]

/-- In format `I` a row selects the word of its opcode whatever its `IMM` (R55). -/
theorem OpcodeRow.selects_commandWord (opc imm : Byte) (build : Byte → Instr) :
    OpcodeRow.selects (commandWord opc imm) ⟨opc, .i, build⟩ = true := by
  rw [OpcodeRow.selects, beq_iff_eq]
  apply BitVec.eq_of_getLsbD_eq
  intro i hi
  interval_cases i <;> simp [commandWord, Format.mask, OpcodeRow.pattern]

theorem find?_eq_some_of_imp {α : Type} {p q : α → Bool} {a : α} (l : List α) (himp : ∀ x, p x = true → q x = true)
    (ha : p a = true) (h : l.find? q = some a) : l.find? p = some a := by
  obtain ⟨-, as, bs, rfl, hbefore⟩ := List.find?_eq_some_iff_append.mp h
  refine List.find?_eq_some_iff_append.mpr ⟨ha, as, bs, rfl, fun x hx => ?_⟩
  rw [Bool.not_eq_true', Bool.eq_false_iff]
  exact fun hp => by simpa [himp x hp] using hbefore x hx

/-- A format `I` row of the map, with any `IMM`. -/
theorem decode_commandWord {opc : Byte} {build : Byte → Instr}
    (hrow : opcodeMap.find? (fun r => r.opc == opc) = some ⟨opc, .i, build⟩) (imm : Byte) :
    decode (commandWord opc imm) = .ok (build imm) := by
  have hfind : opcodeMap.find? (OpcodeRow.selects (commandWord opc imm)) = some ⟨opc, .i, build⟩ := by
    refine find?_eq_some_of_imp _ (fun r hr => ?_) (OpcodeRow.selects_commandWord ..) hrow
    rw [beq_iff_eq, OpcodeRow.opc_eq_of_selects hr, opcField_commandWord]
  simp only [decode, hfind, immField_commandWord]

theorem decode_encode (i : Instr) : decode (encode i) = .ok i := by
  cases i with
  | curRead n => exact decode_commandWord rfl n
  | gs3EncP key => exact decode_commandWord rfl key
  | gs3BEnc key => exact decode_commandWord rfl key
  | _ => decide

/-! ## The host's writes to `CMD` and `LEN` -/

/-- The step that takes the host's write to an offset (R35). -/
theorem step_writeEvent {s : State} {rest : List Event} {offset : Nat} {v : Word} (haligned : offset % 4 = 0)
    (h : s.events = writeEvent offset v :: rest) : step s = hostWrite { s with events := rest } offset v := by
  simp [step, h, writeEvent, performEvent, busAccess, haligned]

/-- The step that takes a command word (R17). -/
theorem step_commandWrite {s : State} {rest : List Event} {c : Word} {i : Instr} (h : s.events = commandWrite c :: rest)
    (hd : decode c = .ok i) : step s = exec i { s with events := rest, cmd := c } := by
  rw [step_writeEvent (offset := 0) rfl h]
  show issue { s with events := rest } c = _
  simp only [issue, hd]

/-- Settles O7. -/
theorem stepRunsDecodedCommand : Obligations.StepRunsDecodedCommand := by
  refine ⟨fun s rest c i => step_commandWrite, fun s i => ?_⟩
  have hword : BitVec.ofNat 32 ((encode i).toNat % 2 ^ 32) = encode i := by
    rw [Nat.mod_eq_of_lt (encode i).isLt, BitVec.ofNat_toNat, BitVec.setWidth_eq]
  rw [State.withFetchWord_eq, hword, step_commandWrite rfl (decode_encode i)]

/-- A host write to `LEN` (R27). -/
theorem step_writeLen {s : State} {rest : List Event} {v : Word} (h : s.events = writeEvent 0x08 v :: rest) :
    step s = .next (writeLen { s with events := rest } v) := step_writeEvent rfl h

/-- After reset every byte of `MEM` is free (R33, U3). -/
theorem reset_readByte (a : Nat) : State.reset.mem.readByte a = Config.unwrittenByte 0 a := rfl

/-- Settles O9. -/
theorem hostWriteOfLen : Obligations.HostWriteOfLen := by
  refine ⟨fun s rest v h => ⟨fun hle => ?_, fun hgt => ?_⟩, 0, reset_readByte⟩
  · rw [step_writeLen h, writeLen, if_pos hle]
    rfl
  · rw [step_writeLen h, writeLen, if_neg (by omega)]

/-! ## Block reset -/

/-- Settles O13: the rows of R33 are the fields of the reset state. -/
theorem resetTable : Obligations.ResetTable :=
  ⟨rfl, rfl, rfl, rfl, rfl, rfl, rfl, rfl, rfl, rfl, rfl, rfl, rfl, ⟨0, reset_readByte⟩, rfl, rfl, Nat.le_add_left ..,
    nmax_le_two_pow⟩

/-- Settles O14. -/
theorem blockResetAndIdle : Obligations.BlockResetAndIdle := by
  refine ⟨fun s rest h => ?_, fun s h => ?_⟩
  · simp only [step, h, performEvent, blockReset_eq]
  · simp only [step, h]

/-- Settles O15. -/
theorem resetMeetsInvariants : Obligations.ResetMeetsInvariants :=
  ⟨State.reset_statusLegal, State.reset_derivedState, State.reset_bufferCanonical, State.reset_cursorInRange,
    fun h => absurd h Bool.false_ne_true⟩

end Sys2Proof.Machine
end

section
/-! PROOF. The transactions of a `LOAD` line (R58, R59): one write to `MEM` after another, each leaving the words already
loaded, and then the write to `LEN`. -/

namespace Sys2Proof.Machine

/-- The map lists the buffer words at their offsets (R36). -/
theorem targetOf_wordAddress {i : Nat} (h : i < Config.nmax) : targetOf (wordAddress i) = some (.mem i) := by
  have hnone : registerMap.find? (fun row => row.1 == wordAddress i) = none := by
    rw [List.find?_eq_none]
    simp only [registerMap, wordAddress, List.forall_mem_cons, beq_iff_eq]
    simp
    omega
  have hwindow : wordAddress i % 4 = 0 ∧ 0x1000 ≤ wordAddress i ∧ wordAddress i < 0x1000 + 4 * Config.nmax := by
    simp only [wordAddress]
    omega
  rw [targetOf, hnone]
  simp only [if_pos hwindow]
  simp [wordAddress]

theorem step_writeMem {s : State} {rest : List Event} {i : Nat} {v : Word} (hi : i < Config.nmax)
    (h : s.events = (writeTo (.mem i) v).event :: rest) :
    step s = .next ({ s with events := rest }.memWrite i v) := by
  have hev : (writeTo (.mem i) v).event = writeEvent (wordAddress i) v := rfl
  rw [step_writeEvent (by simp only [wordAddress]; omega) (hev ▸ h), hostWrite, targetOf_wordAddress hi]

theorem core_run_succ {s t : State} (h : step s = .next t) (k : Nat) :
    Host.Core.run Sys2Proof.core (k + 1) s = Host.Core.run Sys2Proof.core k t := by
  simp only [Host.Core.run, show Sys2Proof.core.step s = .next t from h]

/-- The writes of a `LOAD` line to the words from `i` on. -/
theorem run_loadWords (vs : List Word) (i k : Nat) (s : State) (rest : List Event) (hroom : i + vs.length ≤ Config.nmax)
    (h : s.events = (indexed (fun i v => writeTo (.mem i) v) i vs).map Transfer.event ++ rest) :
    ∃ m, Host.Core.run Sys2Proof.core (vs.length + k) s = Host.Core.run Sys2Proof.core k { s with events := rest, mem := m } ∧
      s.mem.Touches m i (i + vs.length) ∧ m.words i vs.length = vs := by
  induction vs generalizing i s with
  | nil =>
    have hs : s = { s with events := rest } := by rw [← show s.events = rest from h]
    exact ⟨s.mem, by rw [List.length_nil, Nat.zero_add, ← hs], .refl .., rfl⟩
  | cons v vs ih =>
    rw [List.length_cons] at hroom
    have hstep := step_writeMem (by omega) h
    obtain ⟨m, hrun, ht, hw⟩ := ih (i + 1)
      ({ s with events := (indexed (fun i v => writeTo (.mem i) v) (i + 1) vs).map Transfer.event ++ rest }.memWrite i v)
      (by omega) rfl
    have hfirst := Memory.touches_writeWord s.mem v (Nat.le_refl i) (Nat.lt_add_of_pos_right (Nat.succ_pos vs.length))
    refine ⟨m, ?_, hfirst.trans (ht.mono (Nat.le_succ i) (by omega)), ?_⟩
    · rw [List.length_cons, Nat.add_right_comm]
      exact (core_run_succ hstep _).trans hrun
    · rw [List.length_cons, Memory.words, hw, ht.word (.inl (Nat.lt_succ_self i)), State.memWrite_mem,
        Memory.readWord_writeWord_same]

/-- Settles O60. -/
theorem loadLineFillsBuffer : Obligations.LoadLineFillsBuffer := by
  intro s vs rest hlen h
  have hv : (BitVec.ofNat 32 vs.length).toNat = vs.length := by
    have := nmax_le_two_pow
    rw [BitVec.toNat_ofNat, Nat.mod_eq_of_lt (by omega)]
  have hevents : s.events = (indexed (fun i v => writeTo (.mem i) v) 0 vs).map Transfer.event ++
      (writeEvent 0x08 (BitVec.ofNat 32 vs.length) :: rest) := by
    rw [h]
    simp [programEvents, Line.expand]
    rfl
  obtain ⟨m, hrun, ht, hw⟩ := run_loadWords vs 0 1 s _ (by omega) hevents
  rw [Nat.zero_add] at ht
  refine ⟨{ s with events := rest, mem := m, len := vs.length }, ?_, hw, rfl, ht.byte⟩
  have hstep := step_writeLen
    (s := { s with events := writeEvent 0x08 (BitVec.ofNat 32 vs.length) :: rest, mem := m }) rfl
  rw [writeLen, hv, if_pos hlen] at hstep
  exact hrun.trans (core_run_succ hstep 0)

end Sys2Proof.Machine
end

section
/-! PROOF. The table build and the pseudocode of R169 and R170 say the same. What the build returns is determined by what it
draws, pass by pass; each pass permutes the entries, so a shuffled table is a bijection, and the decrypt table is its
inverse. -/

namespace Sys2Proof.Machine

/-! ## Draws (R166) -/

theorem drawsGive_nil {P : Gs3Params} {r r' : Rng} : DrawsGive P r [] r' ↔ r = r' :=
  ⟨fun ⟨_, h0, _, hend⟩ => h0.symm.trans hend, fun h => ⟨fun _ => r, rfl, fun m => m.elim0, h⟩⟩

theorem drawsGive_cons {P : Gs3Params} {r r' : Rng} {w : Word} {ws : List Word} :
    DrawsGive P r (w :: ws) r' ↔ ∃ r1, P.rngNext r = (w, r1) ∧ DrawsGive P r1 ws r' := by
  constructor
  · rintro ⟨h, rfl, hnext, hend⟩
    exact ⟨h 1, hnext ⟨0, Nat.succ_pos _⟩, fun m => h (m + 1), rfl, fun m => hnext m.succ, hend⟩
  · rintro ⟨r1, hfirst, h, rfl, hnext, hend⟩
    exact ⟨fun m => m.casesOn r h, rfl, fun m => m.cases hfirst hnext, hend⟩

/-- The draws of R166 are those of the model. -/
theorem drawsGive_iff {P : Gs3Params} {r r' : Rng} {ws : List Word} :
    DrawsGive P r ws r' ↔ drawList P ws.length r = (ws, r') := by
  induction ws generalizing r with
  | nil => rw [drawsGive_nil, List.length_nil, drawList, Prod.mk.injEq, and_iff_right rfl]
  | cons w ws ih =>
    simp only [drawsGive_cons, ih, List.length_cons, drawList, Prod.mk.injEq, List.cons.injEq]
    constructor
    · rintro ⟨r1, hfirst, hrest⟩
      simp [hfirst, hrest]
    · rintro ⟨⟨hw, hws⟩, hr⟩
      exact ⟨(P.rngNext r).2, Prod.ext hw rfl, Prod.ext hws hr⟩

/-! ## One pass (R169) -/

/-- Pass `k` of the pseudocode takes the table `f` and the generator `r` to `f'` and `r'`. -/
def PassReturns (P : Gs3Params) {n : Nat} (k : Nat) (f : Fin n → Fin n) (r : Rng) (f' : Fin n → Fin n) (r' : Rng) : Prop :=
  ∃ (ws : List Word) (i j : Fin n),
    ws.length = P.shuffleDraws k n r ∧ DrawsGive P r ws r' ∧ P.shufflePick k n ws = (i.val, j.val) ∧
      ∀ m, f' m = if m = i then f j else if m = j then f i else f m

theorem shuffleReturns_iff {P : Gs3Params} {n : Nat} {r r' : Rng} {T : Vector (Fin n) n} :
    ShuffleReturns P r T r' ↔ ∃ (f : Nat → Fin n → Fin n) (g : Nat → Rng), (∀ i, f 0 i = i) ∧ g 0 = r ∧
      (∀ k < 2 * n, PassReturns P k (f k) (g k) (f (k + 1)) (g (k + 1))) ∧ (∀ i, T[i] = f (2 * n) i) ∧ r' = g (2 * n) :=
  Iff.rfl

/-- A pass swaps the two entries picked from its draws. -/
theorem shufflePasses_one {P : Gs3Params} {n k : Nat} {r r' : Rng} {ws : List Word} {i j : Nat} (T : Vector (Fin n) n)
    (hd : drawList P (P.shuffleDraws k n r) r = (ws, r')) (hp : P.shufflePick k n ws = (i, j)) :
    shufflePasses P 1 k T r = (swapEntries T i j, r') := by
  simp only [shufflePasses, shufflePass, hd, hp]

/-- A pass of the model, entry by entry, is a pass of the pseudocode, and there is no other. -/
theorem passReturns_iff {P : Gs3Params} {n k : Nat} (hn : 0 < n) {T : Vector (Fin n) n} {r r' : Rng} {f f' : Fin n → Fin n}
    (hf : ∀ m, f m = T[m]) :
    PassReturns P k f r f' r' ↔
      (shufflePasses P 1 k T r).2 = r' ∧ ∀ m : Fin n, (shufflePasses P 1 k T r).1[m] = f' m := by
  constructor
  · rintro ⟨ws, i, j, hlen, hd, hp, hf'⟩
    rw [drawsGive_iff, hlen] at hd
    rw [shufflePasses_one T hd hp]
    exact ⟨rfl, fun m => by rw [swapEntries_getElem, hf', hf, hf, hf]⟩
  · rintro ⟨hr, hT⟩
    obtain ⟨ws, hws⟩ : ∃ ws, (drawList P (P.shuffleDraws k n r) r).1 = ws := ⟨_, rfl⟩
    have hlen : ws.length = P.shuffleDraws k n r := hws ▸ drawList_length ..
    obtain ⟨hi, hj⟩ := P.shufflePick_lt k n ws hn
    have hd : drawList P (P.shuffleDraws k n r) r = (ws, (drawList P (P.shuffleDraws k n r) r).2) := Prod.ext hws rfl
    rw [shufflePasses_one T hd (i := (P.shufflePick k n ws).1) (j := (P.shufflePick k n ws).2) rfl] at hr hT
    refine ⟨ws, ⟨_, hi⟩, ⟨_, hj⟩, hlen, ?_, rfl, fun m => ?_⟩
    · rw [drawsGive_iff, hlen, hd]
      exact congrArg _ hr
    · rw [hf, hf, hf, ← hT m, ← swapEntries_getElem]

/-- A pass composes the table with an exchange, so it keeps a bijection one. -/
theorem PassReturns.bijective {P : Gs3Params} {n k : Nat} {f f' : Fin n → Fin n} {r r' : Rng}
    (h : PassReturns P k f r f' r') (hf : Function.Bijective f) : Function.Bijective f' := by
  obtain ⟨-, i, j, -, -, -, hf'⟩ := h
  have hcomp : f' = f ∘ Equiv.swap i j := by
    funext m
    rw [hf', Function.comp_apply, Equiv.swap_apply_def]
    split_ifs <;> rfl
  exact hcomp ▸ hf.comp (Equiv.bijective _)

/-! ## The shuffle (R169) -/

@[simp] theorem identityTable_getElem {n : Nat} (m : Fin n) : (identityTable n)[m] = m := by
  simp [identityTable]

/-- The model's shuffle is what the pseudocode returns, and it returns nothing else. -/
theorem shuffle_eq_iff {P : Gs3Params} {n : Nat} (hn : 0 < n) {r r' : Rng} {T : Vector (Fin n) n} :
    shuffle P n r = (T, r') ↔ ShuffleReturns P r T r' := by
  rw [shuffleReturns_iff]
  constructor
  · intro h
    refine ⟨fun k m => (shufflePasses P k 0 (identityTable n) r).1[m], fun k => (shufflePasses P k 0 (identityTable n) r).2,
      fun i => identityTable_getElem i, rfl, fun k _ => ?_, fun i => ?_, ?_⟩
    · rw [passReturns_iff hn fun _ => rfl]
      simp only [shufflePasses_add P k 1 0, Nat.zero_add, implies_true, and_self]
    · simp only [show shufflePasses P (2 * n) 0 (identityTable n) r = (T, r') from h]
    · simp only [show shufflePasses P (2 * n) 0 (identityTable n) r = (T, r') from h]
  · rintro ⟨f, g, hf0, hg0, hpass, hT, rfl⟩
    have hall : ∀ k ≤ 2 * n, (shufflePasses P k 0 (identityTable n) r).2 = g k ∧
        ∀ m : Fin n, (shufflePasses P k 0 (identityTable n) r).1[m] = f k m := by
      intro k
      induction k with
      | zero => exact fun _ => ⟨hg0.symm, fun m => (identityTable_getElem m).trans (hf0 m).symm⟩
      | succ k ih =>
        intro hk
        obtain ⟨hg, hf⟩ := ih (by omega)
        rw [shufflePasses_add P k 1 0, hg, Nat.zero_add]
        exact (passReturns_iff hn fun m => (hf m).symm).1 (hpass k hk)
    obtain ⟨hg, hf⟩ := hall (2 * n) (Nat.le_refl _)
    refine Prod.ext (Vector.ext fun m hm => ?_) hg
    exact (hf ⟨m, hm⟩).trans (hT ⟨m, hm⟩).symm

/-- A shuffled table is a permutation. -/
theorem ShuffleReturns.bijective {P : Gs3Params} {n : Nat} {r r' : Rng} {T : Vector (Fin n) n}
    (h : ShuffleReturns P r T r') : Function.Bijective fun i : Fin n => T[i] := by
  obtain ⟨f, g, hf0, -, hpass, hT, -⟩ := shuffleReturns_iff.1 h
  have hall : ∀ k ≤ 2 * n, Function.Bijective (f k) := by
    intro k
    induction k with
    | zero => exact fun _ => (funext hf0 : f 0 = id) ▸ Function.bijective_id
    | succ k ih => exact fun hk => (hpass k hk).bijective (ih (by omega))
  exact (funext hT : (fun i : Fin n => T[i]) = f (2 * n)) ▸ hall _ (Nat.le_refl _)

/-! ## The decrypt tables (R170) -/

/-- What writing `D[T[i]] <- i` for the `i` of a list leaves at `T[i]`. -/
theorem getElem_foldl_invert {n : Nat} {T : Vector (Fin n) n} (hT : Function.Injective fun i : Fin n => T[i]) (i : Fin n)
    (l : List (Fin n)) (D : Vector (Fin n) n) :
    (l.foldl (fun D i => D.set T[i].val i T[i].isLt) D)[T[i]] = if i ∈ l then i else D[T[i]] := by
  induction l generalizing D with
  | nil => simp
  | cons a l ih =>
    rw [List.foldl_cons, ih]
    by_cases hl : i ∈ l
    · simp [hl]
    · by_cases ha : a = i
      · subst ha
        simp
      · have hne : T[a].val ≠ T[i].val := fun h => ha (hT (Fin.ext h))
        have hia : i ≠ a := fun h => ha h.symm
        simpa [hl, hia] using Vector.getElem_set_ne T[a].isLt T[i].isLt hne

theorem eq_invertTable_iff {n : Nat} {T D : Vector (Fin n) n} (hT : Function.Bijective fun i : Fin n => T[i]) :
    D = invertTable T ↔ ∀ i : Fin n, D[T[i]] = i := by
  have hinv : ∀ i : Fin n, (invertTable T)[T[i]] = i := fun i => by
    rw [invertTable, getElem_foldl_invert hT.injective, if_pos (List.mem_finRange i)]
  refine ⟨fun h => h ▸ hinv, fun h => ?_⟩
  have hentry : ∀ j : Fin n, D[j] = (invertTable T)[j] := fun j => by
    obtain ⟨i, rfl⟩ := hT.surjective j
    exact (h i).trans (hinv i).symm
  exact Vector.ext fun j hj => hentry ⟨j, hj⟩

/-- A left inverse of a permutation is a right inverse. -/
theorem inverse_both {n : Nat} {T D : Vector (Fin n) n} (hT : Function.Bijective fun i : Fin n => T[i])
    (h : ∀ i : Fin n, D[T[i]] = i) (i : Fin n) : D[T[i]] = i ∧ T[D[i]] = i := by
  refine ⟨h i, ?_⟩
  obtain ⟨j, rfl⟩ := hT.surjective i
  exact congrArg (fun k : Fin n => T[k]) (h j)

/-! ## The build (R170) -/

/-- The build, shuffle after shuffle. -/
theorem buildTables_eq_iff {P : Gs3Params} {s : Seeds} {T : Gs3Tables} {r : Rng} :
    buildTables P s = (T, r) ↔ ∃ r0 r1 r2,
      shuffle P 0x19 (P.rngSeed (P.tblSeed0 s)) = (T.e.t0, r0) ∧ shuffle P 0x39 (reseed P 0 s r0) = (T.e.t1, r1) ∧
      shuffle P 0x40 (reseed P 1 s r1) = (T.e.t2, r2) ∧ shuffle P 0x100 (reseed P 2 s r2) = (T.e.t3, r) ∧
      T.d = TableSet.inverse T.e := by
  unfold buildTables
  constructor
  · intro h
    rcases h0 : shuffle P 0x19 (P.rngSeed (P.tblSeed0 s)) with ⟨t0, r0⟩
    rcases h1 : shuffle P 0x39 (reseed P 0 s r0) with ⟨t1, r1⟩
    rcases h2 : shuffle P 0x40 (reseed P 1 s r1) with ⟨t2, r2⟩
    rcases h3 : shuffle P 0x100 (reseed P 2 s r2) with ⟨t3, r3⟩
    simp only [h0, h1, h2, h3, Prod.mk.injEq] at h
    obtain ⟨rfl, rfl⟩ := h
    exact ⟨r0, r1, r2, rfl, h1, h2, h3, rfl⟩
  · rintro ⟨r0, r1, r2, h0, h1, h2, h3, hd⟩
    simp only [h0, h1, h2, h3, ← hd]

theorem TableSet.eq_inverse_iff {E D : TableSet} : D = TableSet.inverse E ↔
    D.t0 = invertTable E.t0 ∧ D.t1 = invertTable E.t1 ∧ D.t2 = invertTable E.t2 ∧ D.t3 = invertTable E.t3 := by
  cases D
  simp [TableSet.inverse]

theorem buildTables_iff_tablesBuilt {P : Gs3Params} {s : Seeds} {T : Gs3Tables} {r : Rng} :
    buildTables P s = (T, r) ↔ TablesBuilt P s T r := by
  simp only [buildTables_eq_iff, TablesBuilt, TableSet.eq_inverse_iff, reseed_eq, shuffle_eq_iff (Nat.succ_pos _)]
  refine exists_congr fun r0 => exists_congr fun r1 => exists_congr fun r2 =>
    and_congr_right fun h0 => and_congr_right fun h1 => and_congr_right fun h2 => and_congr_right fun h3 => ?_
  rw [eq_invertTable_iff h0.bijective, eq_invertTable_iff h1.bijective, eq_invertTable_iff h2.bijective,
    eq_invertTable_iff h3.bijective]

/-- Settles O55. -/
theorem tablesAreInversePermutations : Obligations.TablesAreInversePermutations := by
  refine ⟨fun P seeds T r => buildTables_iff_tablesBuilt, ?_⟩
  rintro P seeds T rfl
  obtain ⟨r0, r1, r2, h0, h1, h2, h3, hd0, hd1, hd2, hd3⟩ :=
    buildTables_iff_tablesBuilt.1 (rfl : buildTables P seeds = ((buildTables P seeds).1, (buildTables P seeds).2))
  exact ⟨inverse_both h0.bijective hd0, inverse_both h1.bijective hd1, inverse_both h2.bijective hd2,
    inverse_both h3.bijective hd3⟩

end Sys2Proof.Machine
end

section
/-! PROOF. No command but `CUR_READ` depends on a word of the storage at or beyond `LEN` (R26, R44): run on two states that
differ in such words only (`Twins`), each operation of a command takes them to two states that do so again. -/

namespace Sys2Proof.Machine

/-! ## Storages that agree in their first words -/

/-- The two storages hold the same words below index `n`. -/
structure Memory.AgreeBelow (n : Nat) (m m' : Memory) : Prop where
  word : ∀ j < n, m'.readWord j = m.readWord j

namespace Memory.AgreeBelow

variable {n : Nat} {m m' : Memory}

theorem mono {k : Nat} (h : m.AgreeBelow n m') (hk : k ≤ n) : m.AgreeBelow k m' :=
  ⟨fun j hj => h.word j (hj.trans_le hk)⟩

theorem writeWord (h : m.AgreeBelow n m') (i : Nat) (v : Word) : (m.writeWord i v).AgreeBelow n (m'.writeWord i v) := by
  refine ⟨fun j hj => ?_⟩
  rw [Memory.readWord_writeWord, Memory.readWord_writeWord, h.word j hj]

/-- A word written just past the words in agreement makes them one more. -/
theorem writeWord_succ (h : m.AgreeBelow n m') (v : Word) : (m.writeWord n v).AgreeBelow (n + 1) (m'.writeWord n v) := by
  refine ⟨fun j hj => ?_⟩
  rw [Memory.readWord_writeWord, Memory.readWord_writeWord]
  split_ifs
  · rfl
  · exact h.word j (by omega)

theorem words (h : m.AgreeBelow n m') {i k : Nat} (hk : i + k ≤ n) : m'.words i k = m.words i k :=
  Memory.words_congr fun _ _ _ => h.word _ (by omega)

theorem mapWords (h : m.AgreeBelow n m') (f : Word → Word) {i k : Nat} (hk : i + k ≤ n) :
    (m.mapWords f k i).AgreeBelow n (m'.mapWords f k i) := by
  induction k generalizing i m m' with
  | zero => exact h
  | succ k ih =>
    simp only [Memory.mapWords, h.word i (by omega)]
    exact ih (h.writeWord ..) (by omega)

theorem mapPairs (h : m.AgreeBelow n m') (f : Pair → Pair) {i k : Nat} (hk : i + 2 * k ≤ n) :
    (m.mapPairs f k i).AgreeBelow n (m'.mapPairs f k i) := by
  induction k generalizing i m m' with
  | zero => exact h
  | succ k ih =>
    simp only [Memory.mapPairs, h.word i (by omega), h.word (i + 1) (by omega)]
    exact ih ((h.writeWord ..).writeWord ..) (by omega)

theorem copyDown (h : m.AgreeBelow n m') {k src : Nat} (dst : Nat) (hk : src + k ≤ n) :
    (m.copyDown k src dst).AgreeBelow n (m'.copyDown k src dst) := by
  induction k generalizing src dst m m' with
  | zero => exact h
  | succ k ih =>
    simp only [Memory.copyDown, h.word src (by omega)]
    exact ih (h.writeWord ..) _ (by omega)

/-- The words moved up by one agree, and so does whatever is then written below them (R84). -/
theorem shiftUp_writeWord (h : m.AgreeBelow n m') (v : Word) :
    ((m.shiftUp n).writeWord 0 v).AgreeBelow (n + 1) ((m'.shiftUp n).writeWord 0 v) := by
  have hshift : ∀ (m : Memory) (j : Nat), j < n → (m.shiftUp n).readWord (j + 1) = m.readWord j := by
    intro m j hj
    have hmoved := congrArg (fun ws => ws[j]?) (Memory.words_shiftUp n m)
    simpa [hj, Memory.words_getElem, Nat.add_comm] using hmoved
  refine ⟨fun j hj => ?_⟩
  cases j with
  | zero => rw [Memory.readWord_writeWord_same, Memory.readWord_writeWord_same]
  | succ j =>
    rw [Memory.readWord_writeWord_ne _ _ (Nat.succ_ne_zero j), Memory.readWord_writeWord_ne _ _ (Nat.succ_ne_zero j),
      hshift m j (by omega), hshift m' j (by omega), h.word j (by omega)]

theorem setNibble (h : m.AgreeBelow n m') (hn : 0 < n) (x : BitVec 4) :
    (m.setNibble x).AgreeBelow n (m'.setNibble x) := by
  simp only [Memory.setNibble, h.word 0 hn]
  exact h.writeWord ..

theorem slotFreeCrc (h : m.AgreeBelow n m') (hn : 0 < n) (P : AxParams) : slotFreeCrc P m' n = slotFreeCrc P m n := by
  rw [Machine.slotFreeCrc, Machine.slotFreeCrc, (h.setNibble hn 0).words (Nat.zero_add n).le]

theorem masterBit (h : m.AgreeBelow n m') {i k : Nat} (hk : i + 2 * k ≤ n) : masterBit m' k i = masterBit m k i := by
  induction k generalizing i with
  | zero => rfl
  | succ k ih => rw [Machine.masterBit, Machine.masterBit, h.word i (by omega), ih (by omega)]

theorem axBlockDec (h : m.AgreeBelow n m') (hn : 0 < n) (P : AxParams) (S : Vector Word 32) :
    (axBlockDec P S m n).1.AgreeBelow n (axBlockDec P S m' n).1 ∧ (axBlockDec P S m' n).2 = (axBlockDec P S m n).2 := by
  have hpairs := h.mapPairs (kernel P.sp S) (i := 0) (k := n / 2) (by omega)
  have hslot := hpairs.setNibble hn 0
  refine ⟨hslot, ?_⟩
  simp only [Machine.axBlockDec, hpairs.word 0 hn, hslot.words (Nat.zero_add n).le]

theorem axBlockEnc (h : m.AgreeBelow n m') (hn : 0 < n) (P : AxParams) (S : Vector Word 32) :
    (axBlockEnc P S m n).AgreeBelow n (axBlockEnc P S m' n) := by
  have hslot := h.setNibble hn 0
  simp only [Machine.axBlockEnc, hslot.words (Nat.zero_add n).le]
  exact (hslot.setNibble hn _).mapPairs _ (by omega)

end Memory.AgreeBelow

/-! ## States that differ at most in later words -/

/-- The two states differ at most in the storage from word `n` on, and their buffer lies below. -/
structure Twins (n : Nat) (s t : State) : Prop where
  len_le : s.len ≤ n
  eq_setMem : t = { s with mem := t.mem }
  mem : s.mem.AgreeBelow n t.mem

theorem Twins.exists_mem {n : Nat} {s t : State} (h : Twins n s t) :
    ∃ m, t = { s with mem := m } ∧ s.mem.AgreeBelow n m := ⟨t.mem, h.eq_setMem, h.mem⟩

theorem Twins.agreeBelow {n k : Nat} {s t : State} (h : Twins n s t) (hk : k ≤ n) : AgreeBelow k s t :=
  ⟨h.eq_setMem, (h.mem.mono hk).word⟩

namespace Twins

variable {n : Nat} {s t : State}

theorem len_eq (h : Twins n s t) : t.len = s.len := by rw [h.eq_setMem]

theorem draws_eq (h : Twins n s t) : t.draws = s.draws := by rw [h.eq_setMem]

/-- An operation that neither reads nor writes the storage. -/
theorem map (h : Twins n s t) (f : State → State) (hblind : ∀ s m, f { s with mem := m } = { f s with mem := m })
    (hlen : (f s).len ≤ n) : Twins n (f s) (f t) := by
  obtain ⟨m, rfl, hm⟩ := h.exists_mem
  have hmem : (f s).mem = s.mem := (congrArg State.mem (hblind s s.mem) : (f s).mem = _)
  rw [hblind s m]
  exact ⟨hlen, rfl, by rwa [hmem]⟩

theorem setRes0 (h : Twins n s t) (v : Word) : Twins n (s.setRes0 v) (t.setRes0 v) :=
  h.map (·.setRes0 v) (fun _ _ => rfl) h.len_le

theorem setRes1 (h : Twins n s t) (v : Word) : Twins n (s.setRes1 v) (t.setRes1 v) :=
  h.map (·.setRes1 v) (fun _ _ => rfl) h.len_le

theorem setRes2 (h : Twins n s t) (v : Word) : Twins n (s.setRes2 v) (t.setRes2 v) :=
  h.map (·.setRes2 v) (fun _ _ => rfl) h.len_le

theorem setSeed (h : Twins n s t) (v : Word) : Twins n (s.setSeed v) (t.setSeed v) :=
  h.map (·.setSeed v) (fun _ _ => rfl) h.len_le

theorem setCursor (h : Twins n s t) (c : Cursor) : Twins n (s.setCursor c) (t.setCursor c) :=
  h.map (·.setCursor c) (fun _ _ => rfl) h.len_le

/-- The storages replaced by two that agree again. -/
theorem setMem (h : Twins n s t) {m m' : Memory} (hm : m.AgreeBelow n m') :
    Twins n { s with mem := m } { t with mem := m' } := by
  obtain ⟨m0, rfl, -⟩ := h.exists_mem
  exact ⟨h.len_le, rfl, hm⟩

theorem memWrite (h : Twins n s t) (i : Nat) (v : Word) : Twins n (s.memWrite i v) (t.memWrite i v) :=
  h.setMem (h.mem.writeWord i v)

theorem drawStale (h : Twins n s t) (k i : Nat) : Twins n (s.drawStale k i) (t.drawStale k i) := by
  induction k generalizing i s t with
  | zero => exact h
  | succ k ih =>
    have hwritten := (h.memWrite i (Config.staleWord s.draws)).map (fun u => { u with draws := s.draws + 1 })
      (fun _ _ => rfl) h.len_le
    rw [State.drawStale, State.drawStale, h.draws_eq]
    exact ih hwritten (i + 1)

theorem shorten (h : Twins n s t) {k : Nat} (hk : k ≤ n) : Twins n (s.shorten k) (t.shorten k) := by
  rw [State.shorten, State.shorten, h.len_eq]
  exact (h.map (·.setLen k) (fun _ _ => rfl) hk).drawStale _ _

/-- The removal copies words from below the old `LEN` only (R86). -/
theorem removeWords (h : Twins n s t) (start count : Nat) :
    Twins n (s.removeWords start count) (t.removeWords start count) := by
  have hlen := h.len_le
  obtain ⟨m, rfl, hm⟩ := h.exists_mem
  simp only [State.removeWords]
  split_ifs
  · exact h
  · exact h.shorten (by omega)
  · have hcopy := hm.copyDown (k := s.len - (start + count - 1)) (src := start + count - 1) (start - 1) (by omega)
    exact (h.setMem hcopy).shorten (by omega)

theorem swapPayload (h : Twins n s t) {p : Nat} (hp : p ≤ s.len) : Twins n (s.swapPayload p) (t.swapPayload p) := by
  have hlen := h.len_le
  obtain ⟨m, rfl, hm⟩ := h.exists_mem
  exact h.setMem (hm.mapWords bswap32 (i := p) (k := s.len - p) (by omega))

theorem axBlockEnc (h : Twins n s t) (hlen : s.len = n) (hn : 0 < n) :
    Twins n { s with mem := axBlockEnc Config.ax s.schedE s.mem s.len }
      { t with mem := axBlockEnc Config.ax t.schedE t.mem t.len } := by
  subst hlen
  obtain ⟨m, rfl, hm⟩ := h.exists_mem
  exact h.setMem (hm.axBlockEnc hn Config.ax s.schedE)

/-! ## The batches -/

theorem ar2BatchDec (h : Twins n s t) {k i : Nat} (hk : i + 2 * k ≤ n) :
    Twins n (ar2BatchDec k i s) (ar2BatchDec k i t) := by
  induction k generalizing i s t with
  | zero => exact h
  | succ k ih =>
    obtain ⟨m, rfl, hm⟩ := h.exists_mem
    obtain ⟨q, hq⟩ : ∃ q, ar2PairAt .decrypt s.seed s.draws (s.mem.readWord i, s.mem.readWord (i + 1)) = q := ⟨_, rfl⟩
    have hq' := hq
    rw [← hm.word i (by omega), ← hm.word (i + 1) (by omega)] at hq'
    rw [ar2BatchDec_succ k i s q hq, ar2BatchDec_succ k i { s with mem := m } q hq']
    have hpair : ∀ v, Twins n { s with seed := v, draws := q.2 } { s with seed := v, draws := q.2, mem := m } := fun v =>
      h.map (fun u => { u with seed := v, draws := q.2 }) (fun _ _ => rfl) h.len_le
    split_ifs
    · exact ih ((hpair q.1.2).removeWords _ _) (by omega)
    · exact ih (((hpair s.seed).memWrite i q.1.1).memWrite (i + 1) q.1.2) (by omega)

theorem ar2BatchEnc (h : Twins n s t) {k i : Nat} (hk : i + 2 * k ≤ n) :
    Twins n (ar2BatchEnc k i s) (ar2BatchEnc k i t) := by
  induction k generalizing i s t with
  | zero => exact h
  | succ k ih =>
    obtain ⟨m, rfl, hm⟩ := h.exists_mem
    obtain ⟨q, hq⟩ : ∃ q, ar2PairAt .encrypt s.seed s.draws (s.mem.readWord i, s.mem.readWord (i + 1)) = q := ⟨_, rfl⟩
    have hq' := hq
    rw [← hm.word i (by omega), ← hm.word (i + 1) (by omega)] at hq'
    rw [ar2BatchEnc_succ k i s q hq, ar2BatchEnc_succ k i { s with mem := m } q hq']
    simp only [hm.word i (by omega), hm.word (i + 1) (by omega)]
    have hpair : ∀ v, Twins n { s with seed := v, draws := q.2 } { s with seed := v, draws := q.2, mem := m } := fun v =>
      h.map (fun u => { u with seed := v, draws := q.2 }) (fun _ _ => rfl) h.len_le
    exact ih (((hpair _).memWrite i q.1.1).memWrite (i + 1) q.1.2) (by omega)

end Twins

/-- A pair operation does not see the storage (R175). -/
theorem gs3DecPair_setMem (x : Pair) (s : State) (m : Memory) :
    gs3DecPair x { s with mem := m } = ((gs3DecPair x s).1, { (gs3DecPair x s).2 with mem := m }) := by
  have h := gs3DecPair_withGs3Of x { s with mem := m } s
  rw [show ({ s with mem := m } : State).withGs3Of s = { s with mem := m } from rfl] at h
  rw [h, gs3DecPair_frame x s]
  rfl

theorem gs3EncPair_setMem (key : BitVec 3) (x : Pair) (s : State) (m : Memory) :
    gs3EncPair key x { s with mem := m } = ((gs3EncPair key x s).1, { (gs3EncPair key x s).2 with mem := m }) := by
  have h := gs3EncPair_withGs3Of key x { s with mem := m } s
  rw [show ({ s with mem := m } : State).withGs3Of s = { s with mem := m } from rfl] at h
  rw [h, gs3EncPair_frame key x s]
  rfl

namespace Twins

variable {n : Nat} {s t : State}

/-- A pair operation on twins: one result, and twins again. -/
theorem gs3DecPair (h : Twins n s t) (x : Pair) :
    ∃ r s1 t1, gs3DecPair x s = (r, s1) ∧ gs3DecPair x t = (r, t1) ∧ Twins n s1 t1 := by
  have hlen : (Machine.gs3DecPair x s).2.len = s.len := (Effect.gs3DecPair x s).same .len (by simp [gs3Components])
  have htwins := h.map (fun s => (Machine.gs3DecPair x s).2) (fun s m => congrArg Prod.snd (gs3DecPair_setMem x s m))
    (hlen.trans_le h.len_le)
  obtain ⟨m, rfl, -⟩ := h.exists_mem
  exact ⟨(Machine.gs3DecPair x s).1, (Machine.gs3DecPair x s).2, (Machine.gs3DecPair x { s with mem := m }).2, rfl,
    by rw [gs3DecPair_setMem], htwins⟩

theorem gs3EncPair (h : Twins n s t) (key : BitVec 3) (x : Pair) :
    ∃ r s1 t1, gs3EncPair key x s = (r, s1) ∧ gs3EncPair key x t = (r, t1) ∧ Twins n s1 t1 := by
  have hlen : (Machine.gs3EncPair key x s).2.len = s.len := (Effect.gs3EncPair key x s).same .len (by simp [gs3Components])
  have htwins := h.map (fun s => (Machine.gs3EncPair key x s).2)
    (fun s m => congrArg Prod.snd (gs3EncPair_setMem key x s m)) (hlen.trans_le h.len_le)
  obtain ⟨m, rfl, -⟩ := h.exists_mem
  exact ⟨(Machine.gs3EncPair key x s).1, (Machine.gs3EncPair key x s).2, (Machine.gs3EncPair key x { s with mem := m }).2,
    rfl, by rw [gs3EncPair_setMem], htwins⟩

theorem gs3BatchDec (h : Twins n s t) {k i : Nat} (hk : i + 2 * k ≤ n) :
    Twins n (gs3BatchDec k i s) (gs3BatchDec k i t) := by
  induction k generalizing i s t with
  | zero => exact h
  | succ k ih =>
    obtain ⟨r, s1, t1, hs, ht, h1⟩ := h.gs3DecPair (s.mem.readWord i, s.mem.readWord (i + 1))
    rw [← h.mem.word i (by omega), ← h.mem.word (i + 1) (by omega)] at ht
    rw [gs3BatchDec_succ k i s r s1 hs, gs3BatchDec_succ k i t r t1 ht]
    split_ifs
    · exact ih (h1.removeWords ..) (by omega)
    · exact ih ((h1.memWrite ..).memWrite ..) (by omega)

theorem gs3BatchEnc (h : Twins n s t) (key : BitVec 3) {k i : Nat} (hk : i + 2 * k ≤ n) :
    Twins n (gs3BatchEnc key k i s) (gs3BatchEnc key k i t) := by
  induction k generalizing i s t with
  | zero => exact h
  | succ k ih =>
    obtain ⟨r, s1, t1, hs, ht, h1⟩ := h.gs3EncPair key (s.mem.readWord i, s.mem.readWord (i + 1))
    rw [← h.mem.word i (by omega), ← h.mem.word (i + 1) (by omega)] at ht
    rw [gs3BatchEnc_succ key k i s r s1 hs, gs3BatchEnc_succ key k i t r t1 ht]
    exact ih ((h1.memWrite ..).memWrite ..) (by omega)

end Twins

end Sys2Proof.Machine
end

section
/-! PROOF. Every command but `CUR_READ` answers alike from two states that differ only in words at or beyond `LEN` (R26, R44).
`CUR_READ` is left out because its cursor may stand at such a word. -/

namespace Sys2Proof.Machine

theorem badAxLength_pos {len : Nat} (h : ¬ badAxLength len = true) : 0 < len :=
  lt_of_lt_of_le Nat.zero_lt_two (badAxLength_false h).2

/-- Both outcomes are next states, which agree in everything but the storage and in every word below the larger of `len`
and the new `LEN`. -/
def EndAlike (len : Nat) (o o' : Host.Outcome State Fault Refusal) : Prop :=
  ∃ t t', o = .next t ∧ o' = .next t' ∧ AgreeBelow (max len t.len) t t'

theorem Twins.endAlike {n len : Nat} {s t : State} (h : Twins n s t) (hn : len ≤ n) (c : Code) :
    EndAlike len (.next (s.endWith c)) (.next (t.endWith c)) := by
  have hend : Twins n (s.endWith c) (t.endWith c) := h.map (·.endWith c) (fun _ _ => rfl) h.len_le
  exact ⟨_, _, rfl, rfl, hend.agreeBelow (max_le hn hend.len_le)⟩

theorem EndAlike.ite {len : Nat} {p : Prop} [Decidable p] {a a' b b' : Host.Outcome State Fault Refusal}
    (ha : p → EndAlike len a a') (hb : ¬ p → EndAlike len b b') :
    EndAlike len (if p then a else b) (if p then a' else b') := by
  split
  · next hp => exact ha hp
  · next hp => exact hb hp

/-- The buffer one word longer (R83, R84). -/
theorem grow_endAlike {s : State} {m1 m2 : Memory} (h : m1.AgreeBelow (s.len + 1) m2) (c : Code) :
    EndAlike s.len (.next (({ s with mem := m1 }.setLen (s.len + 1)).endWith c))
      (.next (({ s with mem := m2 }.setLen (s.len + 1)).endWith c)) := by
  have hgrown : Twins (s.len + 1) ({ s with mem := m1 }.setLen (s.len + 1)) ({ s with mem := m2 }.setLen (s.len + 1)) :=
    ⟨Nat.le_refl _, rfl, h⟩
  exact hgrown.endAlike (Nat.le_succ _) c

section Commands

variable {s : State} {m : Memory} (hm : s.mem.AgreeBelow s.len m)
include hm

theorem twins_self : Twins s.len s { s with mem := m } := ⟨Nat.le_refl _, rfl, hm⟩

/-- A command that stops on an error it finds before it has written anything. -/
theorem raise_endAlike (c : Code) : EndAlike s.len (.next (s.endWith c)) (.next ({ s with mem := m }.endWith c)) :=
  (twins_self hm).endAlike (Nat.le_refl _) c

/-- A command made of operations that do not see the storage. -/
theorem blind_endAlike (f : State → State) (hblind : ∀ s m, f { s with mem := m } = { f s with mem := m })
    (hlen : (f s).len = s.len) (c : Code) :
    EndAlike s.len (.next ((f s).endWith c)) (.next ((f { s with mem := m }).endWith c)) :=
  ((twins_self hm).map f hblind hlen.le).endAlike (Nat.le_refl _) c

theorem execBufAppend_endAlike : EndAlike s.len (execBufAppend s) (execBufAppend { s with mem := m }) :=
  .ite (fun _ => raise_endAlike hm _) fun _ => grow_endAlike (hm.writeWord_succ s.op.r0) _

theorem execBufPrepend_endAlike : EndAlike s.len (execBufPrepend s) (execBufPrepend { s with mem := m }) :=
  .ite (fun _ => raise_endAlike hm _) fun _ => grow_endAlike (hm.shiftUp_writeWord s.op.r0) _

theorem execAr2BDec_endAlike : EndAlike s.len (execAr2BDec s) (execAr2BDec { s with mem := m }) :=
  .ite (fun _ => raise_endAlike hm _) fun hodd =>
    ((twins_self hm).ar2BatchDec (two_mul_half hodd).le).endAlike (Nat.le_refl _) _

theorem execAr2BEnc_endAlike : EndAlike s.len (execAr2BEnc s) (execAr2BEnc { s with mem := m }) :=
  .ite (fun _ => raise_endAlike hm _) fun hodd =>
    ((twins_self hm).ar2BatchEnc (two_mul_half hodd).le).endAlike (Nat.le_refl _) _

theorem execAr1BDec_endAlike : EndAlike s.len (execAr1BDec s) (execAr1BDec { s with mem := m }) :=
  .ite (fun _ => raise_endAlike hm _) fun hodd =>
    ((((twins_self hm).setSeed Config.ar2.ar1Seed).ar2BatchDec (two_mul_half hodd).le).setSeed s.seed).endAlike
      (Nat.le_refl _) _

theorem execAr1BEnc_endAlike : EndAlike s.len (execAr1BEnc s) (execAr1BEnc { s with mem := m }) :=
  .ite (fun _ => raise_endAlike hm _) fun hodd =>
    ((((twins_self hm).setSeed Config.ar2.ar1Seed).ar2BatchEnc (two_mul_half hodd).le).setSeed s.seed).endAlike
      (Nat.le_refl _) _

theorem execAxCrc_endAlike : EndAlike s.len (execAxCrc s) (execAxCrc { s with mem := m }) := by
  unfold execAxCrc
  refine .ite (fun _ => raise_endAlike hm _) fun hlen => ?_
  have hpos : 0 < s.len := by omega
  simp only [crcNibble, State.memRead, hm.slotFreeCrc hpos, hm.word 0 hpos]
  exact ((((twins_self hm).setRes1 _).setRes0 _).setRes2 _).endAlike (Nat.le_refl _) _

theorem execAxMkVer_endAlike : EndAlike s.len (execAxMkVer s) (execAxMkVer { s with mem := m }) := by
  unfold execAxMkVer
  simp only [hm.masterBit (i := 0) (k := s.len / 2) (by omega)]
  exact (((twins_self hm).setRes0 _).setRes1 _).endAlike (Nat.le_refl _) _

theorem execAxBEnc_endAlike : EndAlike s.len (execAxBEnc s) (execAxBEnc { s with mem := m }) :=
  .ite (fun _ => raise_endAlike hm _) fun hlen =>
    ((twins_self hm).axBlockEnc rfl (badAxLength_pos hlen)).endAlike (Nat.le_refl _) _

theorem execAxRdVer_endAlike : EndAlike s.len (execAxRdVer s) (execAxRdVer { s with mem := m }) := by
  unfold execAxRdVer
  simp only [readVerifier_congr hm.word]
  split
  · exact ((twins_self hm).setCursor _).endAlike (Nat.le_refl _) _
  · exact ((((twins_self hm).setCursor _).setRes0 _).setRes1 _).endAlike (Nat.le_refl _) _

/-- The block decryption finds the same nibble in both storages and leaves two that agree (R135). -/
theorem axBlockDec_alike (hlen : ¬ badAxLength s.len = true) :
    ∃ d d' b, axBlockDec Config.ax s.schedD s.mem s.len = (d, b) ∧ axBlockDec Config.ax s.schedD m s.len = (d', b) ∧
      d.AgreeBelow s.len d' := by
  obtain ⟨hmem, hok⟩ := hm.axBlockDec (badAxLength_pos hlen) Config.ax s.schedD
  exact ⟨_, _, _, rfl, Prod.ext rfl hok, hmem⟩

theorem execAxBDec_endAlike : EndAlike s.len (execAxBDec s) (execAxBDec { s with mem := m }) := by
  unfold execAxBDec
  refine .ite (fun _ => raise_endAlike hm _) fun hlen => ?_
  obtain ⟨d, d', b, hd, hd', hmem⟩ := axBlockDec_alike hm hlen
  simp only [hd, hd']
  have hdec := (twins_self hm).setMem hmem
  cases b <;> exact hdec.endAlike (Nat.le_refl _) _

theorem execAxLDec_endAlike : EndAlike s.len (execAxLDec s) (execAxLDec { s with mem := m }) := by
  unfold execAxLDec
  refine .ite (fun _ => raise_endAlike hm _) fun hlen => ?_
  obtain ⟨d, d', b, hd, hd', hmem⟩ := axBlockDec_alike hm hlen
  simp only [hd, hd']
  have hdec := (twins_self hm).setMem hmem
  cases b with
  | false => exact hdec.endAlike (Nat.le_refl _) _
  | true =>
    simp only [readVerifier_congr hmem.word]
    split
    · exact (hdec.setCursor _).endAlike (Nat.le_refl _) _
    · next lines c cur hr =>
      have hp := readVerifier_payload_le (badAxLength_false hlen).1 hr
      have hbatch := (((hdec.setCursor cur).swapPayload (p := 2 * lines) hp).setSeed s.op.r0).ar2BatchDec
        (k := (s.len - 2 * lines) / 2) (i := 2 * lines) (by omega)
      exact (hbatch.setRes0 _).endAlike (Nat.le_refl _) _

theorem execAxLEnc_endAlike : EndAlike s.len (execAxLEnc s) (execAxLEnc { s with mem := m }) := by
  unfold execAxLEnc
  refine .ite (fun _ => raise_endAlike hm _) fun hlen => ?_
  simp only [readVerifier_congr hm.word]
  split
  · exact ((twins_self hm).setCursor _).endAlike (Nat.le_refl _) _
  · next lines c cur hr =>
    have hp := readVerifier_payload_le (badAxLength_false hlen).1 hr
    have hbatch := (((twins_self hm).setCursor cur).setSeed s.op.r0).ar2BatchEnc
      (k := (s.len - 2 * lines) / 2) (i := 2 * lines) (by omega)
    have hkept := ar2BatchEnc_len ((s.len - 2 * lines) / 2) (2 * lines) ((s.setCursor cur).setSeed s.op.r0)
    have hswap := hbatch.swapPayload (p := 2 * lines) (hp.trans_eq hkept.symm)
    exact ((hswap.axBlockEnc hkept (badAxLength_pos hlen)).setRes0 _).endAlike (Nat.le_refl _) _

theorem execCurSet_endAlike : EndAlike s.len (execCurSet s) (execCurSet { s with mem := m }) :=
  .ite (fun _ => raise_endAlike hm _) fun _ => ((twins_self hm).setCursor _).endAlike (Nat.le_refl _) _

theorem execGs3DecP_endAlike : EndAlike s.len (execGs3DecP s) (execGs3DecP { s with mem := m }) := by
  obtain ⟨r, s1, t1, hs, ht, h1⟩ := (twins_self hm).gs3DecPair (s.op.r0, s.op.r1)
  simp only [execGs3DecP, hs, ht]
  exact (((h1.setRes0 _).setRes1 _).setRes2 _).endAlike (Nat.le_refl _) _

theorem execGs3EncP_endAlike (key : Byte) : EndAlike s.len (execGs3EncP key s) (execGs3EncP key { s with mem := m }) := by
  unfold execGs3EncP
  refine .ite (fun _ => raise_endAlike hm _) fun _ => ?_
  obtain ⟨r, s1, t1, hs, ht, h1⟩ := (twins_self hm).gs3EncPair (key.setWidth 3) (s.op.r0, s.op.r1)
  simp only [hs, ht]
  exact (((h1.setRes0 _).setRes1 _).setRes2 _).endAlike (Nat.le_refl _) _

theorem execGs3BDec_endAlike : EndAlike s.len (execGs3BDec s) (execGs3BDec { s with mem := m }) :=
  .ite (fun _ => raise_endAlike hm _) fun hodd =>
    ((twins_self hm).gs3BatchDec (two_mul_half hodd).le).endAlike (Nat.le_refl _) _

theorem execGs3BEnc_endAlike (key : Byte) : EndAlike s.len (execGs3BEnc key s) (execGs3BEnc key { s with mem := m }) :=
  .ite (fun _ => raise_endAlike hm _) fun _ => .ite (fun _ => raise_endAlike hm _) fun hodd =>
    ((twins_self hm).gs3BatchEnc _ (two_mul_half hodd).le).endAlike (Nat.le_refl _) _

/-- Every command but `CUR_READ`, whose cursor may stand beyond `LEN`. -/
theorem exec_endAlike (i : Instr) (hi : ∀ n, i ≠ .curRead n) : EndAlike s.len (exec i s) (exec i { s with mem := m }) := by
  cases i with
  | curRead n => exact absurd rfl (hi n)
  | nop => exact raise_endAlike hm _
  | bufAppend => exact execBufAppend_endAlike hm
  | bufPrepend => exact execBufPrepend_endAlike hm
  | bufRemove => exact ((twins_self hm).removeWords _ _).endAlike (Nat.le_refl _) _
  | batchReset => exact blind_endAlike hm State.batchReset (fun _ _ => rfl) rfl _
  | ar2SetSeed => exact ((twins_self hm).setSeed _).endAlike (Nat.le_refl _) _
  | ar2GetSeed => exact ((twins_self hm).setRes0 _).endAlike (Nat.le_refl _) _
  | ar2DecW =>
    exact blind_endAlike hm (fun s =>
      (s.setRes0 (s.ar2Word .decrypt s.op.r0 (lowByte s.op.r1) (lowByte s.op.r2))).afterAr2 (lowByte s.op.r1))
      (fun _ _ => rfl) rfl _
  | ar2EncW =>
    exact blind_endAlike hm (fun s =>
      (s.setRes0 (s.ar2Word .encrypt s.op.r0 (lowByte s.op.r1) (lowByte s.op.r2))).afterAr2 (lowByte s.op.r1))
      (fun _ _ => rfl) rfl _
  | ar2BDec => exact execAr2BDec_endAlike hm
  | ar2BEnc => exact execAr2BEnc_endAlike hm
  | ar1BDec => exact execAr1BDec_endAlike hm
  | ar1BEnc => exact execAr1BEnc_endAlike hm
  | axDecB | axEncB => exact (((twins_self hm).setRes0 _).setRes1 _).endAlike (Nat.le_refl _) _
  | axCrc => exact execAxCrc_endAlike hm
  | axBDec => exact execAxBDec_endAlike hm
  | axBEnc => exact execAxBEnc_endAlike hm
  | axRdVer => exact execAxRdVer_endAlike hm
  | axMkVer => exact execAxMkVer_endAlike hm
  | axLDec => exact execAxLDec_endAlike hm
  | axLEnc => exact execAxLEnc_endAlike hm
  | curSet => exact execCurSet_endAlike hm
  | gs3SetSeeds => exact blind_endAlike hm (·.setGs3Seeds _) (fun _ _ => rfl) rfl _
  | gs3DecP => exact execGs3DecP_endAlike hm
  | gs3EncP key => exact execGs3EncP_endAlike hm key
  | gs3BDec => exact execGs3BDec_endAlike hm
  | gs3BEnc key => exact execGs3BEnc_endAlike hm key
  | gs3RngSeed => exact blind_endAlike hm (fun s => { s with rng := Config.gs3.rngSeed s.op.r0 }) (fun _ _ => rfl) rfl _
  | gs3RngNext =>
    exact blind_endAlike hm (fun s => { s with rng := (Config.gs3.rngNext s.rng).2 }.setRes0 (Config.gs3.rngNext s.rng).1)
      (fun _ _ => rfl) rfl _

end Commands

/-- Settles O24. -/
theorem commandsReadOnlyTheBuffer : Obligations.CommandsReadOnlyTheBuffer := by
  rintro i s1 s2 t1 hi ⟨hs2, hwords⟩ h1
  rw [hs2]
  obtain ⟨u1, t2, hu1, h2, hagree⟩ := exec_endAlike ⟨hwords⟩ i hi
  obtain rfl : t1 = u1 := Host.Outcome.next.inj (h1.symm.trans hu1)
  exact ⟨t2, h2, hagree⟩

end Sys2Proof.Machine
end

section
/-! PROOF. What the register map lists, and the host's reads and writes through it (R34 to R43). A target the map lists is found
at its own offset and nowhere else, so reads and writes are followed target by target. -/

namespace Sys2Proof.Machine

/-! ## The targets of the map (R36, R37) -/

/-- The map lists every register, and the buffer words of the window (R36). -/
def HostReg.Listed : HostReg → Prop
  | .mem i => i < Config.nmax
  | _ => True

theorem HostReg.Listed.offset_range {r : HostReg} (h : r.Listed) :
    r.offset < 0x40 ∨ (0x1000 ≤ r.offset ∧ r.offset < 0x1000 + 4 * Config.nmax) := by
  cases r with
  | mem i => exact .inr ⟨Nat.le_add_right .., Nat.add_lt_add_left (Nat.mul_lt_mul_of_pos_left h (by decide)) _⟩
  | op i | res i => left; simp only [HostReg.offset]; omega
  | _ => exact .inl (by decide)

theorem targetOf_offset {r : HostReg} (h : r.Listed) : targetOf r.offset = some r := by
  cases r with
  | mem i => exact targetOf_wordAddress h
  | op i | res i => fin_cases i <;> rfl
  | _ => rfl

/-- A target found is listed, at the offset searched. -/
theorem targetOf_eq_some_iff {offset : Nat} {r : HostReg} : targetOf offset = some r ↔ r.Listed ∧ r.offset = offset := by
  refine ⟨fun h => ⟨?_, ?_⟩, fun ⟨hr, ho⟩ => ho ▸ targetOf_offset hr⟩
  · cases r with
    | mem i => exact targetOf_mem_lt h
    | _ => trivial
  · have hrows : ∀ row ∈ registerMap, row.2.offset = row.1 := by decide
    unfold targetOf at h
    split at h
    · next row hrow =>
      cases h
      exact (hrows row (List.mem_of_find?_eq_some hrow)).trans (by simpa using List.find?_some hrow)
    · split_ifs at h
      cases h
      simp only [HostReg.offset]
      omega

theorem targetOf_register : ∀ k < 16, (targetOf (4 * k)).isSome = true := by decide

/-- An aligned offset at which the map lists nothing is one of those R37 names. -/
theorem targetOf_eq_none_iff {offset : Nat} (haligned : offset % 4 = 0) :
    targetOf offset = none ↔ unlistedOffset offset := by
  constructor
  · intro hnone
    have hregister : 0x40 ≤ offset := by
      by_contra hlt
      have hsome := targetOf_register (offset / 4) (by omega)
      rw [show 4 * (offset / 4) = offset by omega, hnone] at hsome
      exact Bool.false_ne_true hsome
    have hwindow : ¬ (0x1000 ≤ offset ∧ offset < 0x1000 + 4 * Config.nmax) := by
      intro hw
      have hsome := targetOf_wordAddress (i := (offset - 0x1000) / 4) (by omega)
      rw [show wordAddress ((offset - 0x1000) / 4) = offset by simp only [wordAddress]; omega, hnone] at hsome
      exact Option.some_ne_none _ hsome.symm
    exact ⟨haligned, by omega⟩
  · rintro ⟨-, hrange⟩
    rw [Option.eq_none_iff_forall_ne_some]
    intro r hr
    obtain ⟨hlisted, rfl⟩ := targetOf_eq_some_iff.mp hr
    have := hlisted.offset_range
    omega

/-! ## The value a read returns (R36, R37) -/

/-- The latch register's bits are the latch and its key, one above the other (R28). -/
theorem gs3StatWord_eq_append : ∀ l k, gs3StatWord l k = (k ++ BitVec.ofBool l).setWidth 32 := by decide

/-- Past the register rows the map holds the buffer words only. -/
theorem mappedValue_past_registers (s : State) {offset : Nat} (h : 0x40 ≤ offset) :
    mappedValue s offset =
      if 0x1000 ≤ offset ∧ offset < 0x1000 + 4 * Config.nmax then s.memRead ((offset - 0x1000) / 4) else 0 := by
  unfold mappedValue
  iterate 16 rw [if_neg (by omega)]

theorem mappedValue_unlisted (s : State) {offset : Nat} (h : unlistedOffset offset) : mappedValue s offset = 0 := by
  obtain ⟨-, hrange⟩ := h
  rw [mappedValue_past_registers s (by omega), if_neg (by omega)]

theorem mappedValue_offset (s : State) {r : HostReg} (h : r.Listed) : mappedValue s r.offset = readTarget s r := by
  cases r with
  | mem i =>
    have hi : i < Config.nmax := h
    simp only [HostReg.offset, readTarget]
    rw [mappedValue_past_registers s (by omega), if_pos (by omega)]
    congr 1
    omega
  | op i | res i => fin_cases i <;> rfl
  | gs3stat => exact (gs3StatWord_eq_append ..).symm
  | _ => rfl

/-- The machine's read and the map's row agree, whether the offset is listed or not. -/
theorem hostRead_eq_mappedValue (s : State) {offset : Nat} (haligned : offset % 4 = 0) :
    hostRead s offset = mappedValue s offset := by
  unfold hostRead
  split
  · next r hr =>
    obtain ⟨hlisted, rfl⟩ := targetOf_eq_some_iff.mp hr
    exact (mappedValue_offset s hlisted).symm
  · next hnone => exact (mappedValue_unlisted s ((targetOf_eq_none_iff haligned).mp hnone)).symm

/-- The step that takes the host's read of an offset (R35, R43). -/
theorem step_readEvent {s : State} {rest : List Event} {offset : Nat} (haligned : offset % 4 = 0)
    (h : s.events = readEvent offset :: rest) :
    step s = .next { s with events := rest, replies := mappedValue s offset :: s.replies } := by
  have hread : hostRead { s with events := rest } offset = mappedValue s offset := hostRead_eq_mappedValue _ haligned
  simp [step, h, readEvent, performEvent, busAccess, haligned, hread]

/-- Settles O8. -/
theorem hostReadFollowsTheMap : Obligations.HostReadFollowsTheMap :=
  fun _ _ _ haligned h => step_readEvent haligned h

/-! ## Writes that are ignored (R37) -/

theorem hostWrite_unlisted (s : State) {offset : Nat} (v : Word) (h : unlistedOffset offset) :
    hostWrite s offset v = .next s := by
  rw [hostWrite, (targetOf_eq_none_iff h.1).mpr h]

/-- At each read-only row of the map a write finds a register it does not write. -/
theorem hostWrite_readOnly (s : State) {offset : Nat} (v : Word) (h : offset ∈ readOnlyOffsets) :
    hostWrite s offset v = .next s := by
  fin_cases h <;> rfl

theorem readOnlyOffsets_aligned : ∀ offset ∈ readOnlyOffsets, offset % 4 = 0 := by decide

/-- Settles O11: a read gives the map's 0, and a write finds no target or one the host cannot write. -/
theorem unlistedAndReadOnlyAccesses : Obligations.UnlistedAndReadOnlyAccesses := by
  refine ⟨fun s rest offset hun h => ?_, fun s rest offset v hoff h => ?_⟩
  · rw [step_readEvent hun.1 h, mappedValue_unlisted s hun]
  · rcases hoff with hun | hro
    · rw [step_writeEvent hun.1 h, hostWrite_unlisted _ v hun]
    · rw [step_writeEvent (readOnlyOffsets_aligned offset hro) h, hostWrite_readOnly _ v hro]

/-! ## Writes to `OP` and `MEM` (R36, R39, R46) -/

@[simp] theorem Quad.get_set (q : Quad) (i j : Fin 4) (v : Word) : (q.set i v).get j = if j = i then v else q.get j := by
  fin_cases i <;> fin_cases j <;> rfl

/-- In `t` the host reads `v` from the target `r`, and from every other what it reads in `s`. -/
def ReadsAfterWrite (s t : State) (r : HostReg) (v : Word) : Prop :=
  ∀ r', readTarget t r' = if r' = r then v else readTarget s r'

theorem readsAfterWrite_op (s : State) (i : Fin 4) (v : Word) :
    ReadsAfterWrite s { s with op := s.op.set i v } (.op i) v := by
  intro r'
  cases r' with
  | op j => simp [readTarget]
  | _ => rfl

theorem readsAfterWrite_mem (s : State) (i : Nat) (v : Word) : ReadsAfterWrite s (s.memWrite i v) (.mem i) v := by
  intro r'
  cases r' with
  | mem j => simp [readTarget, State.memRead, Memory.readWord_writeWord]
  | _ => rfl

/-- What the map gives after a write of one target: the word at its offset, and elsewhere what it gave before. -/
theorem ReadsAfterWrite.mappedValue_eq {s t : State} {r : HostReg} {v : Word} (h : ReadsAfterWrite s t r v)
    (hr : r.Listed) {offset : Nat} (haligned : offset % 4 = 0) :
    mappedValue t offset = if offset = r.offset then v else mappedValue s offset := by
  cases htarget : targetOf offset with
  | none =>
    have hne : offset ≠ r.offset := by
      rintro rfl
      exact Option.some_ne_none r ((targetOf_offset hr).symm.trans htarget)
    have hun := (targetOf_eq_none_iff haligned).mp htarget
    rw [if_neg hne, mappedValue_unlisted t hun, mappedValue_unlisted s hun]
  | some r' =>
    obtain ⟨hr', rfl⟩ := targetOf_eq_some_iff.mp htarget
    have hsame : r'.offset = r.offset ↔ r' = r :=
      ⟨fun ho => Option.some_inj.mp (htarget.symm.trans (ho ▸ targetOf_offset hr)), congrArg _⟩
    simp only [mappedValue_offset _ hr', h r', hsame]

theorem hostWrite_op (s : State) (i : Fin 4) (v : Word) :
    hostWrite s (HostReg.op i).offset v = .next { s with op := s.op.set i v } := by
  rw [hostWrite, targetOf_offset (r := .op i) trivial]

theorem hostWrite_mem (s : State) {i : Nat} (v : Word) (h : i < Config.nmax) :
    hostWrite s (HostReg.mem i).offset v = .next (s.memWrite i v) := by
  rw [hostWrite, targetOf_offset (r := .mem i) h]

/-- Settles O10: the write is that of an operand register or of a word in the window, and each is read back through the map. -/
theorem hostWriteReadsBack : Obligations.HostWriteReadsBack := by
  intro s rest off off' v haligned haligned' hoff h
  have hwrite := step_writeEvent haligned h
  rcases hoff with hop | hmem
  · obtain ⟨i, rfl⟩ : ∃ i : Fin 4, off = (HostReg.op i).offset :=
      ⟨⟨(off - 0x10) / 4, by omega⟩, by simp only [HostReg.offset]; omega⟩
    refine ⟨_, hwrite.trans (hostWrite_op _ i v), rfl, fun _ _ => rfl, fun hge => absurd hge (by omega), ?_⟩
    rw [step_readEvent haligned' rfl, (readsAfterWrite_op _ i v).mappedValue_eq trivial haligned']
    rfl
  · obtain ⟨i, hi, rfl⟩ : ∃ i < Config.nmax, off = (HostReg.mem i).offset :=
      ⟨(off - 0x1000) / 4, by omega, by simp only [HostReg.offset]; omega⟩
    refine ⟨_, hwrite.trans (hostWrite_mem _ v hi), rfl, Memory.readByte_writeWord s.mem i v, fun _ => rfl, ?_⟩
    rw [step_readEvent haligned' rfl, (readsAfterWrite_mem _ i v).mappedValue_eq hi haligned']
    rfl

/-! ## Refusals (R34, R35, R41) -/

theorem EndsCommand.answers {o : Host.Outcome State Fault Refusal} (h : EndsCommand o) : ∃ t, o = .next t := by
  obtain ⟨u, c, rfl⟩ := h
  exact ⟨_, rfl⟩

theorem hostWrite_answers (s : State) (offset : Nat) (v : Word) : ∃ t, hostWrite s offset v = .next t := by
  unfold hostWrite
  split
  case h_1 => exact (issue_endsCommand s v).answers
  all_goals exact ⟨_, rfl⟩

theorem busAccess_answers (s : State) {x : Transaction} (h : x.Conforms) : ∃ t, busAccess s x = .next t := by
  obtain ⟨hagent, hwidth, haligned⟩ := h
  rw [busAccess, if_neg (not_not.mpr hagent), if_neg (not_not.mpr hwidth), if_neg (not_not.mpr haligned)]
  split
  · exact ⟨_, rfl⟩
  · exact hostWrite_answers ..

theorem busAccess_refuses (s : State) {x : Transaction} (h : ¬ x.Conforms) : ∃ r, busAccess s x = .refused r := by
  unfold busAccess
  split_ifs with hagent hwidth haligned
  · exact ⟨_, rfl⟩
  · exact ⟨_, rfl⟩
  · exact ⟨_, rfl⟩
  · exact absurd ⟨not_not.mp hagent, not_not.mp hwidth, not_not.mp haligned⟩ h

/-- The idle block and block reset are never refused, so a refusal is a transaction's (R206, R207). -/
theorem step_refused_iff (s : State) :
    (∃ r, step s = .refused r) ↔ ∃ x rest, s.events = .bus x :: rest ∧ ¬ x.Conforms := by
  constructor
  · rintro ⟨r, h⟩
    unfold step at h
    split at h
    · cases h
    · next e rest hev =>
      cases e with
      | blockReset => cases h
      | bus x =>
        refine ⟨x, rest, hev, fun hx => ?_⟩
        obtain ⟨t, ht⟩ := busAccess_answers { s with events := rest } hx
        cases ht.symm.trans h
  · rintro ⟨x, rest, hev, hx⟩
    simp only [step, hev, performEvent]
    exact busAccess_refuses _ hx

/-- Settles O12. -/
theorem refusalsAreForeignAccesses : Obligations.RefusalsAreForeignAccesses :=
  ⟨step_refused_iff, fun i s => (exec_endsCommand i s).answers⟩

end Sys2Proof.Machine
end

section
/-! PROOF. `BUF_REMOVE` (R85, R86), from what `RemoveWords` does to the storage in each of its branches. -/

namespace Sys2Proof.Machine

theorem Memory.words_split (m : Memory) {p len : Nat} (h : p ≤ len) :
    m.words 0 len = m.words 0 p ++ m.words p (len - p) := by
  rw [← m.words_take p len h, ← m.words_drop p len h, List.take_append_drop]

/-- The command is the removal and its end with `OK` (R85). -/
theorem exec_bufRemove {s u : State} {start count : Nat} (hstart : start = s.op.r0.toNat) (hcount : count = s.op.r1.toNat)
    (h : s.removeWords start count = u) : exec .bufRemove s = .next { u with status := okStatus u.status } := by
  rw [← State.endWith_ok, ← h, hstart, hcount]
  rfl

/-- Settles O29: no word of the buffer that stays is written but by the copy, and the copy is the third branch's only. -/
theorem removeBranches : Obligations.RemoveBranches := by
  intro s start count hstart hcount
  refine ⟨fun hno => exec_bufRemove hstart hcount (s.removeWords_noop _ _ hno), fun h1 h2 h3 h => ?_, fun h1 h3 h => ?_⟩
  · obtain ⟨m, e, ht, hfree⟩ := s.removeWords_truncate start count h1 h2 h3 h
    refine ⟨_, exec_bufRemove hstart hcount e, rfl, ?_, ht.byte, hfree⟩
    exact (ht.words (by simp)).trans (s.mem.words_take _ _ (Nat.sub_le ..)).symm
  · obtain ⟨m, e, ht, hcopied, hfree⟩ := s.removeWords_copy start count h1 h3 h
    refine ⟨_, exec_bufRemove hstart hcount e, rfl, ?_, ht.byte, hfree⟩
    calc m.words 0 (s.len - count)
        = m.words 0 (start - 1) ++ m.words (start - 1) (s.len - count - (start - 1)) := m.words_split (by omega)
      _ = s.mem.words 0 (start - 1) ++ s.mem.words (start + count - 1) (s.len - (start + count - 1)) := by
          rw [ht.words (by simp), hcopied, show s.len - count - (start - 1) = s.len - (start + count - 1) by omega]
      _ = s.buffer.take (start - 1) ++ s.buffer.drop (start + count - 1) := by
          rw [State.buffer, Memory.words_take _ _ _ (by omega), Memory.words_drop _ _ _ (by omega)]

end Sys2Proof.Machine
end

section
/-! PROOF. Command words (R52 to R56). A row of the opcode map selects exactly the words of its commands, so decoding and
encoding are inverse, and the words that are not illegal are those of the well-formed commands. -/

namespace Sys2Proof.Machine

/-! ## Which row selects a word (R55) -/

/-- Settles O2. -/
theorem encodedCommandDecodesBack : Obligations.EncodedCommandDecodesBack := decode_encode

/-- The rows of the map have different opcodes (R54). -/
theorem opcodeMap_opc_nodup : (opcodeMap.map OpcodeRow.opc).Nodup := by decide

/-- No two rows of the map select one word. -/
theorem OpcodeRow.eq_of_selects {c : Word} {r r' : OpcodeRow} (hr : r ∈ opcodeMap) (hr' : r' ∈ opcodeMap)
    (h : r.selects c = true) (h' : r'.selects c = true) : r = r' :=
  List.inj_on_of_nodup_map opcodeMap_opc_nodup hr hr' ((opc_eq_of_selects h).trans (opc_eq_of_selects h').symm)

/-- What the decoder answers: the command of the row that selects the word. -/
theorem decode_eq_ok_iff_selects {c : Word} {i : Instr} :
    decode c = .ok i ↔ ∃ r ∈ opcodeMap, i = r.build (immField c) ∧ r.selects c = true := by
  unfold decode
  cases hfind : opcodeMap.find? (OpcodeRow.selects c) with
  | none =>
    have hnone : ∀ r ∈ opcodeMap, ¬ r.selects c = true := List.find?_eq_none.mp hfind
    refine ⟨fun h => ?_, fun ⟨r, hr, _, hsel⟩ => absurd hsel (hnone r hr)⟩
    dsimp only at h
    split_ifs at h
  | some r =>
    have hr := List.mem_of_find?_eq_some hfind
    have hsel := List.find?_some hfind
    constructor
    · intro h
      exact ⟨r, hr, (Except.ok.inj h).symm, hsel⟩
    · rintro ⟨r', hr', rfl, hsel'⟩
      rw [OpcodeRow.eq_of_selects hr' hr hsel' hsel]

/-- Settles O4: the mask is that of the row's format. -/
theorem selectionIsMaskAndMatch : Obligations.SelectionIsMaskAndMatch := by
  intro c i
  rw [decode_eq_ok_iff_selects]
  refine exists_congr fun r => and_congr_right fun _ => and_congr_right fun _ => ?_
  obtain ⟨opc, fmt, build⟩ := r
  cases fmt <;> simp [OpcodeRow.selects, OpcodeRow.pattern, Format.mask]

/-! ## A word is the encoding of what it decodes to (R54, R55) -/

/-- The word of a row's command: the opcode, in format `I` with the `IMM` the command carries. -/
theorem encode_build : ∀ r ∈ opcodeMap, ∀ imm : Byte,
    encode (r.build imm) = if r.fmt = .n then r.pattern else commandWord r.opc imm := by
  intro r hr imm
  fin_cases hr <;> rfl

/-- A word without reserved bits is its opcode and its `IMM` (R52). -/
theorem eq_commandWord_of_rsvField {c : Word} (h : rsvField c = 0) : c = commandWord (opcField c) (immField c) := by
  apply BitVec.eq_of_getLsbD_eq
  intro i hi
  have hrsv : 16 ≤ i → c.getLsbD i = false := fun hge => by
    have hbit := congrArg (·.getLsbD (i - 16)) h
    simpa [rsvField, show i - 16 < 16 by omega, show 16 + (i - 16) = i by omega] using hbit
  simp only [commandWord, opcField, immField, BitVec.getLsbD_or, BitVec.getLsbD_setWidth, BitVec.getLsbD_shiftLeft,
    BitVec.getLsbD_extractLsb']
  by_cases hlow : i < 8
  · simp [hlow, hi]
  · by_cases himm : i < 16
    · simp [hlow, hi, show i - 8 < 8 by omega, show i - 8 < 32 by omega, show 8 + (i - 8) = i by omega]
    · simp [hlow, show ¬ i - 8 < 8 by omega, hrsv (by omega)]

theorem rsvField_commandWord (opc imm : Byte) : rsvField (commandWord opc imm) = 0 := by
  apply BitVec.eq_of_getLsbD_eq
  intro i hi
  have hopc : opc.getLsbD (16 + i) = false := BitVec.getLsbD_of_ge _ _ (by omega)
  have himm : imm.getLsbD (16 + i - 8) = false := BitVec.getLsbD_of_ge _ _ (by omega)
  simp [rsvField, commandWord, hi, hopc, himm]

/-- The match of a row is its opcode with `IMM` 0 (R55). -/
theorem OpcodeRow.pattern_eq (r : OpcodeRow) : r.pattern = commandWord r.opc 0 := by
  simp [OpcodeRow.pattern, commandWord]

/-- The high half of the mask is all ones in both formats (R55). -/
theorem OpcodeRow.rsvField_of_selects {c : Word} {r : OpcodeRow} (h : r.selects c = true) : rsvField c = 0 := by
  have hmask : ∀ f : Format, rsvField (c &&& f.mask) = rsvField c := by
    intro f
    apply BitVec.eq_of_getLsbD_eq
    intro i hi
    cases f <;> interval_cases i <;> simp [rsvField, Format.mask]
  rw [← hmask r.fmt, beq_iff_eq.mp h, OpcodeRow.pattern_eq, rsvField_commandWord]

theorem encode_of_decode {c : Word} {i : Instr} (h : decode c = .ok i) : encode i = c := by
  obtain ⟨r, hr, rfl, hsel⟩ := decode_eq_ok_iff_selects.mp h
  rw [encode_build r hr]
  split_ifs with hf
  · have hmask := beq_iff_eq.mp hsel
    rw [hf] at hmask
    exact hmask.symm.trans BitVec.and_allOnes
  · rw [OpcodeRow.opc_eq_of_selects hsel]
    exact (eq_commandWord_of_rsvField (OpcodeRow.rsvField_of_selects hsel)).symm

theorem decode_eq_ok_iff {c : Word} {i : Instr} : decode c = .ok i ↔ encode i = c :=
  ⟨encode_of_decode, fun h => h ▸ decode_encode i⟩

/-- Settles O3. -/
theorem decodedWordEncodesBack : Obligations.DecodedWordEncodesBack := fun _ _ => encode_of_decode

/-! ## Illegal words (R56) -/

/-- An opcode of format `N` with `IMM` 0 is the word of a command, which has no field to be out of range. -/
theorem exists_wf_of_mem_opcodesN : ∀ opc ∈ opcodesN, ∃ i : Instr, i.wf = true ∧ encode i = commandWord opc 0 := by
  intro opc h
  obtain ⟨r, hr, rfl, hf⟩ : ∃ r ∈ opcodeMap, r.opc = opc ∧ r.fmt = .n := by
    revert opc
    decide
  refine ⟨r.build 0, ?_, ?_⟩
  · fin_cases hr <;> rfl
  · rw [encode_build r hr, if_pos hf]
    exact OpcodeRow.pattern_eq r

theorem exists_wf_of_not_illegalWord {c : Word} (h : ¬ illegalWord c) : ∃ i : Instr, i.wf = true ∧ encode i = c := by
  simp only [illegalWord, not_or, not_and, not_not] at h
  obtain ⟨hrsv, hknown, himm, hread, hkey⟩ := h
  rw [eq_commandWord_of_rsvField hrsv]
  by_cases hN : opcField c ∈ opcodesN
  · rw [show immField c = 0 from himm hN]
    exact exists_wf_of_mem_opcodesN _ hN
  · have hI : opcField c ∈ opcodesI := hknown hN
    simp only [opcodesI, List.mem_cons, List.not_mem_nil, or_false] at hI
    rcases hI with h31 | h42 | h44
    · exact ⟨.curRead (immField c), decide_eq_true (not_lt.mp (hread h31)), by rw [h31]; rfl⟩
    · exact ⟨.gs3EncP (immField c), decide_eq_true (not_lt.mp (hkey (.inl h42))), by rw [h42]; rfl⟩
    · exact ⟨.gs3BEnc (immField c), decide_eq_true (not_lt.mp (hkey (.inr h44))), by rw [h44]; rfl⟩

theorem illegalWord_commandWord_iff (opc imm : Byte) : illegalWord (commandWord opc imm) ↔
    (opc ∉ opcodesN ∧ opc ∉ opcodesI) ∨ (opc ∈ opcodesN ∧ imm ≠ 0) ∨ (opc = 0x31 ∧ 32 < imm.toNat) ∨
      ((opc = 0x42 ∨ opc = 0x44) ∧ 7 < imm.toNat) := by
  have hopc : (commandWord opc imm).extractLsb' 0 8 = opc := opcField_commandWord ..
  have himm : (commandWord opc imm).extractLsb' 8 8 = imm := immField_commandWord ..
  have hrsv : (commandWord opc imm).extractLsb' 16 16 = 0 := rsvField_commandWord ..
  simp [illegalWord, hopc, himm, hrsv]

theorem not_illegalWord_encode {i : Instr} (h : i.wf = true) : ¬ illegalWord (encode i) := by
  cases i with
  | curRead n =>
    have hn : n.toNat ≤ 32 := of_decide_eq_true h
    simpa [encode, illegalWord_commandWord_iff, opcodesN, opcodesI] using hn
  | gs3EncP key | gs3BEnc key =>
    have hkey : key.toNat ≤ 7 := of_decide_eq_true h
    simpa [encode, illegalWord_commandWord_iff, opcodesN, opcodesI] using hkey
  | _ =>
    unfold illegalWord
    decide

/-- Settles O6. -/
theorem legalWordsAreWellFormedCommands : Obligations.LegalWordsAreWellFormedCommands := by
  intro c
  simp only [decode_eq_ok_iff]
  refine ⟨exists_wf_of_not_illegalWord, ?_⟩
  rintro ⟨i, hwf, rfl⟩
  exact not_illegalWord_encode hwf

/-- A command whose `IMM` is out of range reports it and does nothing else (R56). -/
theorem exec_of_not_wf {i : Instr} (h : i.wf = false) (s : State) : exec i s = .next (s.endWith .illegal) := by
  cases i with
  | curRead n => exact if_pos (by simpa [Instr.wf] using h)
  | gs3EncP key | gs3BEnc key => exact if_pos (by simpa [Instr.wf] using h)
  | _ => cases h

/-- Whether the decoder or the command finds the word illegal, it reports that (R55, R56; log 9). -/
theorem issue_illegalWord {c : Word} (h : illegalWord c) (s : State) :
    issue s c = .next ({ s with cmd := c }.endWith .illegal) := by
  unfold issue
  split
  · next i hd =>
    refine exec_of_not_wf ?_ _
    rw [← Bool.not_eq_true]
    intro hwf
    exact not_illegalWord_encode hwf (encode_of_decode hd ▸ h)
  · rfl

/-- Settles O5. -/
theorem illegalWordOnlyReportsItself : Obligations.IllegalWordOnlyReportsItself := by
  intro s rest c h hev
  rw [step_writeEvent (offset := 0) rfl hev]
  exact (issue_illegalWord h _).trans (congrArg _ (State.endWith_illegal _))

/-- Settles O1. -/
theorem exampleWordsDecode : Obligations.ExampleWordsDecode := by
  unfold Obligations.ExampleWordsDecode
  decide

end Sys2Proof.Machine
end

section
/-! PROOF. The single-word AR2 commands (R99, R100) and the GS3+ batches (R179, R180): an error found before anything is written,
or what the operation or loop does and the end with `OK`. -/

namespace Sys2Proof.Machine

/-- Settles O31: each command writes `RES[0]` and the draw count as stated, and then ends with `OK`. -/
theorem singleWordTransforms : Obligations.SingleWordTransforms :=
  fun _ => ⟨congrArg _ (State.endWith_ok _), congrArg _ (State.endWith_ok _)⟩

/-! ## The GS3+ batches -/

theorem exec_gs3BEnc_illegal {s : State} {key : Byte} (h : 7 < key.toNat) :
    exec (.gs3BEnc key) s = .next { s with status := errStatus 1 } := by
  rw [← State.endWith_illegal]
  exact exec_of_not_wf (i := .gs3BEnc key) (decide_eq_false (not_le.mpr h)) s

theorem exec_gs3BDec_odd {s : State} (h : s.len % 2 = 1) : exec .gs3BDec s = .next { s with status := errStatus 2 } := by
  rw [← State.endWith_structural]
  exact if_pos h

theorem exec_gs3BEnc_odd {s : State} {key : Byte} (hkey : key.toNat ≤ 7) (h : s.len % 2 = 1) :
    exec (.gs3BEnc key) s = .next { s with status := errStatus 2 } := by
  rw [← State.endWith_structural]
  exact (if_neg (not_lt.mpr hkey)).trans (if_pos h)

/-- The loop runs over the whole of an even buffer (R179). -/
theorem exec_gs3BDec_even {s : State} (h : s.len % 2 = 0) :
    exec .gs3BDec s = .next ((gs3BatchDec (s.len / 2) 0 s).endWith .ok) :=
  if_neg (by omega)

theorem exec_gs3BEnc_even {s : State} {key : Byte} (hkey : key.toNat ≤ 7) (h : s.len % 2 = 0) :
    exec (.gs3BEnc key) s = .next ((gs3BatchEnc (key.setWidth 3) (s.len / 2) 0 s).endWith .ok) :=
  (if_neg (not_lt.mpr hkey)).trans (if_neg (by omega))

theorem pairsOf_buffer (s : State) : pairsOf s.buffer = s.mem.pairs 0 (s.len / 2) := pairsOf_words ..

/-- `GS3_BDEC` on an even buffer is the decrypted stream of its pairs (R179). -/
theorem gs3BDec_isStream {s : State} (h : s.len % 2 = 0) {r : List Pair × State}
    (hr : gs3DecStream (pairsOf s.buffer) s = r) : ∃ t, exec .gs3BDec s = .next t ∧
      t = { s.withGs3Of r.2 with
        mem := t.mem, len := 2 * r.1.length, draws := s.draws + (s.len - 2 * r.1.length)
        status := okStatus s.status } ∧
      t.buffer = wordsOf r.1 ∧ SameBytesOutside s t 0 s.len := by
  rw [pairsOf_buffer] at hr
  obtain ⟨m, e, ht, hp⟩ := gs3BatchDec_spec (s.len / 2) 0 s (by omega) r hr
  have hlen : 0 + 2 * r.1.length = 2 * r.1.length := Nat.zero_add _
  have hdraws : 2 * (s.len / 2 - r.1.length) = s.len - 2 * r.1.length := by omega
  rw [hlen, hdraws] at e
  rw [exec_gs3BDec_even h, e, State.endWith_ok]
  exact ⟨_, rfl, rfl, (m.words_eq_wordsOf_pairs 0 _).trans (congrArg wordsOf hp), ht.byte⟩

/-- `GS3_BENC` on an even buffer is the encrypted stream of its pairs (R180). -/
theorem gs3BEnc_isStream {s : State} {key : Byte} (hkey : key.toNat ≤ 7) (h : s.len % 2 = 0) {r : List Pair × State}
    (hr : gs3EncStream (key.setWidth 3) (pairsOf s.buffer) s = r) : ∃ t, exec (.gs3BEnc key) s = .next t ∧
      t = { s.withGs3Of r.2 with mem := t.mem, status := okStatus s.status } ∧
      t.buffer = wordsOf r.1 ∧ SameBytesOutside s t 0 s.len := by
  rw [pairsOf_buffer] at hr
  obtain ⟨m, e, ht, hp⟩ := gs3BatchEnc_spec (key.setWidth 3) (s.len / 2) 0 s r hr
  have hlen : 2 * (s.len / 2) = s.len := by omega
  rw [Nat.zero_add, hlen] at ht
  rw [exec_gs3BEnc_even hkey h, e, State.endWith_ok]
  refine ⟨_, rfl, rfl, ?_, ht.byte⟩
  calc m.words 0 s.len
      = m.words 0 (2 * (s.len / 2)) := congrArg (m.words 0) hlen.symm
    _ = wordsOf r.1 := by rw [Memory.words_eq_wordsOf_pairs, hp]

/-- Settles O58. -/
theorem gs3BatchesAreStreams : Obligations.Gs3BatchesAreStreams := by
  intro s key
  refine ⟨exec_gs3BEnc_illegal, fun hodd => ⟨exec_gs3BDec_odd hodd, fun hkey => exec_gs3BEnc_odd hkey hodd⟩, fun heven => ?_,
    fun heven hkey => ?_⟩
  · obtain ⟨t, hexec, ht⟩ := gs3BDec_isStream heven rfl
    exact ⟨t, hexec, fun r hr => hr ▸ ht⟩
  · obtain ⟨t, hexec, ht⟩ := gs3BEnc_isStream hkey heven rfl
    exact ⟨t, hexec, fun r hr => hr ▸ ht⟩

end Sys2Proof.Machine
end

section
/-! PROOF. The text of a line (R67, R155 to R157). Both the rules and the model go through the 65 bits a text spells: the text
determines the bits and the bits the text, and the bits are those of a line exactly when the lowest is its parity. -/

namespace Sys2Proof.Machine

/-! ## The text of 65 bits (R67, R156) -/

/-- The 15 characters that spell 65 bits, in the layout of R156. -/
def spelling (v : BitVec 65) : List Char :=
  let sym := fun k => symbolChar (textSymbol v k)
  [sym 0, sym 1, sym 2, sym 3, '-', sym 4, sym 5, sym 6, sym 7, '-', sym 8, sym 9, sym 10, sym 11, sym 12]

theorem encodeText_eq_spelling (x : Pair) : encodeText x = spelling (textBits x) := rfl

theorem alphabet_getElem? : ∀ s : BitVec 5,
    "0123456789ABCDEFGHJKMNPQRTUVWXYZ".toList[s.toNat]? = some (symbolChar s) := by decide

theorem alphabet_symbol (v : BitVec 65) (k : Nat) :
    "0123456789ABCDEFGHJKMNPQRTUVWXYZ".toList[(v >>> (60 - 5 * k)).toNat % 32]? = some (symbolChar (textSymbol v k)) := by
  rw [← textSymbol_toNat, alphabet_getElem?]

theorem textSpells_spelling (v : BitVec 65) : TextSpells v (spelling v) := by
  refine ⟨rfl, rfl, rfl, fun k hk => ?_, fun k hk => ?_, fun k hk => ?_⟩ <;>
  · dsimp only
    rw [alphabet_symbol]
    interval_cases k <;> rfl

/-- The rules leave no position of the text open. -/
theorem TextSpells.unique {v : BitVec 65} {cs cs' : List Char} (h : TextSpells v cs) (h' : TextSpells v cs') : cs = cs' := by
  obtain ⟨hlen, h4, h9, hfirst, hsecond, hthird⟩ := h
  obtain ⟨hlen', h4', h9', hfirst', hsecond', hthird'⟩ := h'
  refine List.ext_getElem? fun k => ?_
  have hgroups : k < 4 ∨ k = 4 ∨ (∃ j < 4, k = 5 + j) ∨ k = 9 ∨ (∃ j < 5, k = 10 + j) ∨ 15 ≤ k := by
    by_cases hj : k - 5 < 4 ∧ 5 ≤ k
    · exact .inr (.inr (.inl ⟨k - 5, hj.1, by omega⟩))
    · by_cases hj' : k - 10 < 5 ∧ 10 ≤ k
      · exact .inr (.inr (.inr (.inr (.inl ⟨k - 10, hj'.1, by omega⟩))))
      · omega
  obtain hk | rfl | ⟨j, hj, rfl⟩ | rfl | ⟨j, hj, rfl⟩ | hk := hgroups
  · exact (hfirst k hk).trans (hfirst' k hk).symm
  · exact h4.trans h4'.symm
  · exact (hsecond j hj).trans (hsecond' j hj).symm
  · exact h9.trans h9'.symm
  · exact (hthird j hj).trans (hthird' j hj).symm
  · rw [List.getElem?_eq_none (by omega), List.getElem?_eq_none (by omega)]

theorem textSpells_iff {v : BitVec 65} {cs : List Char} : TextSpells v cs ↔ spelling v = cs :=
  ⟨(textSpells_spelling v).unique, fun h => h ▸ textSpells_spelling v⟩

/-! ## The bits of a line (R155) -/

theorem extractLsb'_extractLsb' {w : Nat} (v : BitVec w) {a n b m : Nat} (h : b + m ≤ n) :
    (v.extractLsb' a n).extractLsb' b m = v.extractLsb' (a + b) m := by
  apply BitVec.eq_of_getLsbD_eq
  intro i hi
  simp only [BitVec.getLsbD_extractLsb', hi, show b + i < n by omega, Nat.add_assoc, decide_true, Bool.true_and]

theorem setWidth_ushiftRight {w : Nat} (v : BitVec w) (a m : Nat) : (v >>> a).setWidth m = v.extractLsb' a m := by
  apply BitVec.eq_of_getLsbD_eq
  intro i hi
  simp only [BitVec.getLsbD_setWidth, BitVec.getLsbD_ushiftRight, BitVec.getLsbD_extractLsb']

/-- The 64 bits above the parity bit, as a line. -/
def lineOfBits (v : BitVec 65) : Pair := (v.extractLsb' 33 32, v.extractLsb' 1 32)

/-- The lowest bit is the parity of the 64 others. -/
def ParityHolds (v : BitVec 65) : Prop := v.getLsbD 0 = lineParity (v.extractLsb' 1 64)

theorem lineBits_lineOfBits (v : BitVec 65) : lineBits (lineOfBits v) = v.extractLsb' 1 64 :=
  BitVec.extractLsb'_append_extractLsb'_eq_extractLsb' rfl

theorem lineOfBits_textBits (x : Pair) : lineOfBits (textBits x) = x := by
  have hpart : ∀ k, (textBits x).extractLsb' (k + 1) 32 = (lineBits x).extractLsb' k 32 := fun k =>
    BitVec.extractLsb'_append_eq_of_le (Nat.le_add_left 1 k)
  exact Prod.ext ((hpart 32).trans BitVec.extractLsb'_append_eq_left) ((hpart 0).trans BitVec.extractLsb'_append_eq_right)

theorem ofBool_getLsbD_zero {w : Nat} (v : BitVec w) : BitVec.ofBool (v.getLsbD 0) = v.extractLsb' 0 1 := by
  apply BitVec.eq_of_getLsbD_eq
  intro i hi
  rw [Nat.lt_one_iff.mp hi]
  simp

theorem parityHolds_textBits (x : Pair) : ParityHolds (textBits x) := by
  have hline : (textBits x).extractLsb' 1 64 = lineBits x := BitVec.extractLsb'_append_eq_left
  rw [ParityHolds, hline, textBits, BitVec.getLsbD_append]
  simp

/-- Bits with the right parity are those of one line. -/
theorem eq_textBits_iff {v : BitVec 65} {x : Pair} : v = textBits x ↔ ParityHolds v ∧ lineOfBits v = x := by
  constructor
  · rintro rfl
    exact ⟨parityHolds_textBits x, lineOfBits_textBits x⟩
  · rintro ⟨hp, rfl⟩
    rw [textBits, lineBits_lineOfBits, ← hp, ofBool_getLsbD_zero]
    have happend : v.extractLsb' 1 64 ++ v.extractLsb' 0 1 = v.extractLsb' 0 65 :=
      BitVec.extractLsb'_append_extractLsb'_eq_extractLsb' rfl
    exact (happend.trans BitVec.extractLsb'_eq_self).symm

theorem parityHolds_iff_countP {v : BitVec 65} : ParityHolds v ↔
    (v.getLsbD 0 = true ↔ ((List.range 64).countP fun i => v.getLsbD (i + 1)) % 2 = 1) := by
  have hbits : ((List.range 64).countP fun i => (v.extractLsb' 1 64).getLsbD i) =
      (List.range 64).countP fun i => v.getLsbD (i + 1) :=
    List.countP_congr fun i hi => by
      rw [BitVec.getLsbD_extractLsb', decide_eq_true (List.mem_range.mp hi), Bool.true_and, Nat.add_comm]
  rw [ParityHolds, Bool.eq_iff_iff, lineParity_iff, hbits]

theorem lineOfBits_eq_iff {v : BitVec 65} {x : Pair} :
    lineOfBits v = x ↔ (v >>> 33).setWidth 32 = x.1 ∧ (v >>> 1).setWidth 32 = x.2 := by
  rw [setWidth_ushiftRight, setWidth_ushiftRight, lineOfBits, Prod.ext_iff]

/-- The rules' text of a line is the model's. -/
theorem textOfLine_iff {x : Pair} {cs : List Char} : TextOfLine x cs ↔ encodeText x = cs := by
  have hbits : ∀ v : BitVec 65, ((v >>> 33).setWidth 32 = x.1 ∧ (v >>> 1).setWidth 32 = x.2 ∧
      (v.getLsbD 0 = true ↔ ((List.range 64).countP fun i => v.getLsbD (i + 1)) % 2 = 1)) ↔ v = textBits x := by
    intro v
    rw [eq_textBits_iff, lineOfBits_eq_iff, parityHolds_iff_countP, and_comm (a := _ ↔ _), and_assoc]
  simp only [TextOfLine, textSpells_iff, hbits, exists_eq_right, encodeText_eq_spelling]

/-! ## Decoding (R157) -/

/-- Bit `i` of packed symbols, the last symbol lowest. -/
theorem getLsbD_packSymbols_reverse (vs : List (BitVec 5)) {i : Nat} (hi : i < 65) :
    (packSymbols vs.reverse).getLsbD i = (vs.getD (i / 5) 0).getLsbD (i % 5) := by
  induction vs generalizing i with
  | nil => simp [packSymbols]
  | cons v vs ih =>
    have hpack : packSymbols (v :: vs).reverse = (packSymbols vs.reverse <<< 5) ||| v.setWidth 65 := by
      simp [packSymbols]
    rw [hpack, BitVec.getLsbD_or, BitVec.getLsbD_shiftLeft, BitVec.getLsbD_setWidth]
    by_cases h5 : i < 5
    · simp [h5, hi, Nat.div_eq_of_lt h5, Nat.mod_eq_of_lt h5]
    · obtain ⟨j, rfl⟩ : ∃ j, i = j + 5 := ⟨i - 5, by omega⟩
      have hv : v.getLsbD (j + 5) = false := BitVec.getLsbD_of_ge _ _ (by omega)
      rw [hv, Nat.add_sub_cancel, ih (by omega)]
      simp [hi]

theorem getLsbD_packSymbols {vs : List (BitVec 5)} (hlen : vs.length = 13) {i : Nat} (hi : i < 65) :
    (packSymbols vs).getLsbD i = (vs.getD (12 - i / 5) 0).getLsbD (i % 5) := by
  have hpos : vs.reverse.getD (i / 5) 0 = vs.getD (12 - i / 5) 0 := by
    rw [List.getD_eq_getElem?_getD, List.getD_eq_getElem?_getD, List.getElem?_reverse (by omega), hlen]
  rw [← hpos, ← getLsbD_packSymbols_reverse _ hi, List.reverse_reverse]

theorem textSymbol_packSymbols {vs : List (BitVec 5)} (hlen : vs.length = 13) {k : Nat} (hk : k < 13) :
    textSymbol (packSymbols vs) k = vs.getD k 0 := by
  apply BitVec.eq_of_getLsbD_eq
  intro j hj
  rw [textSymbol, BitVec.getLsbD_extractLsb', getLsbD_packSymbols hlen (by omega),
    show 12 - (60 - 5 * k + j) / 5 = k by omega, show (60 - 5 * k + j) % 5 = j by omega]
  simp [hj]

/-- The symbols of packed symbols are the symbols packed. -/
theorem map_textSymbol_packSymbols {vs : List (BitVec 5)} (hlen : vs.length = 13) :
    (List.range 13).map (textSymbol (packSymbols vs)) = vs := by
  refine List.ext_getElem (by simp [hlen]) fun k hk hk' => ?_
  rw [List.getElem_map, List.getElem_range, textSymbol_packSymbols hlen (by omega), List.getD_eq_getElem _ _ hk']

theorem range_thirteen : List.range 13 = [0, 1, 2, 3, 4, 5, 6, 7, 8, 9, 10, 11, 12] := rfl

/-- Packing the symbols of 65 bits gives the bits back. -/
theorem packSymbols_textSymbol (v : BitVec 65) : packSymbols ((List.range 13).map (textSymbol v)) = v := by
  apply BitVec.eq_of_getLsbD_eq
  intro i hi
  have hsym : ((List.range 13).map (textSymbol v)).getD (12 - i / 5) 0 = textSymbol v (12 - i / 5) := by
    simp [List.getD_eq_getElem?_getD, show 12 - i / 5 < 13 by omega]
  rw [getLsbD_packSymbols (by simp) hi, hsym, textSymbol, BitVec.getLsbD_extractLsb',
    show 60 - 5 * (12 - i / 5) + i % 5 = i by omega]
  simp [Nat.mod_lt]

theorem symbolValues_map_symbolChar (vs : List (BitVec 5)) : symbolValues (vs.map symbolChar) = some vs := by
  induction vs with
  | nil => rfl
  | cons v vs ih => simp [symbolValues, ih]

theorem eq_map_of_symbolValues {cs : List Char} {vs : List (BitVec 5)} (h : symbolValues cs = some vs) :
    cs = vs.map symbolChar := by
  induction cs generalizing vs with
  | nil => cases h; rfl
  | cons c cs ih =>
    unfold symbolValues at h
    split at h
    · next v ws hc hcs =>
      cases h
      rw [List.map_cons, ← ih hcs, symbolChar_of_charSymbol hc]
    · cases h

/-- A spelling decodes to the line of its bits when the parity is right, and to nothing else. -/
theorem decodeText_spelling {v : BitVec 65} {x : Pair} :
    decodeText (spelling v) = some x ↔ ParityHolds v ∧ lineOfBits v = x := by
  have hvalues := symbolValues_map_symbolChar ((List.range 13).map (textSymbol v))
  have hpack := packSymbols_textSymbol v
  rw [range_thirteen] at hvalues hpack
  simp only [List.map_cons, List.map_nil] at hvalues hpack
  simp only [decodeText, spelling, hvalues, hpack]
  rw [extractLsb'_extractLsb' v (by omega), extractLsb'_extractLsb' v (by omega), Option.ite_none_right_eq_some]
  simp only [Option.some.injEq, ParityHolds, lineOfBits]

theorem exists_spelling_of_decodeText {cs : List Char} {x : Pair} (h : decodeText cs = some x) : ∃ v, spelling v = cs := by
  unfold decodeText at h
  split at h
  · next c0 c1 c2 c3 c4 c5 c6 c7 c8 c9 c10 c11 c12 =>
    split at h
    · cases h
    · next vs hvs =>
      refine ⟨packSymbols vs, ?_⟩
      have hcs := eq_map_of_symbolValues hvs
      have hlen : vs.length = 13 := by simpa using (congrArg List.length hcs).symm
      rw [← map_textSymbol_packSymbols hlen, range_thirteen] at hcs
      simp only [List.map_cons, List.map_nil, List.cons.injEq, and_true] at hcs
      simp only [spelling, hcs]
  · cases h

theorem decodeText_eq_some_iff {cs : List Char} {x : Pair} : decodeText cs = some x ↔ encodeText x = cs := by
  constructor
  · intro h
    obtain ⟨v, rfl⟩ := exists_spelling_of_decodeText h
    rw [encodeText_eq_spelling, ← eq_textBits_iff.mpr (decodeText_spelling.mp h)]
  · rintro rfl
    exact decodeText_spelling.mpr (eq_textBits_iff.mp rfl)

/-- Settles O53. -/
theorem textFormatRoundTrip : Obligations.TextFormatRoundTrip :=
  ⟨fun _ _ => textOfLine_iff.symm, fun _ _ => decodeText_eq_some_iff.trans textOfLine_iff.symm,
    fun _ => ⟨rfl, rfl, rfl, decodeText_eq_some_iff.mpr rfl⟩, fun _ _ => decodeText_eq_some_iff.mp⟩

end Sys2Proof.Machine
end

section
/-! PROOF. Which error code a command ends with, and what it leaves (R191 to R197). The causes are checked in the order of R197,
so they are put into one function of the command and the state (`endCode`); each command is shown to end with that code and to
leave what the code leaves (`Reports`). -/

namespace Sys2Proof.Machine

/-! ## The code of a command (R193 to R197) -/

/-- `ERR_CRC` once the checks before it have passed (R194). -/
def CrcFails (i : Instr) (s : State) : Prop := (i = .axBDec ∨ i = .axLDec) ∧ CrcMismatch s

/-- `ERR_VERIFIER` once the checks before it have passed: `AX_LDEC` reads the deciphered buffer (R138, R195). -/
def VerifierFails (i : Instr) (s : State) : Prop :=
  (i = .axRdVer ∨ i = .axLEnc) ∧ VerifierOverruns s.buffer ∨ i = .axLDec ∧ VerifierOverruns (decipheredBuffer s)

open Classical in
/-- The code a command ends with: that of the first check that fails (R197). -/
noncomputable def endCode (i : Instr) (s : State) : Code :=
  if i.wf = false then .illegal
  else if structuralCause i s then .structural
  else if CrcFails i s then .crc
  else if VerifierFails i s then .verifier
  else .ok

section
variable {i : Instr} {s : State}

theorem endCode_eq_illegal_iff : endCode i s = .illegal ↔ i.wf = false := by
  unfold endCode
  split_ifs <;> simp [*]

theorem endCode_eq_structural_iff : endCode i s = .structural ↔ i.wf = true ∧ structuralCause i s := by
  unfold endCode
  split_ifs <;> simp_all

theorem endCode_eq_crc_iff : endCode i s = .crc ↔ i.wf = true ∧ ¬ structuralCause i s ∧ CrcFails i s := by
  unfold endCode
  split_ifs <;> simp_all

theorem endCode_eq_verifier_iff :
    endCode i s = .verifier ↔ i.wf = true ∧ ¬ structuralCause i s ∧ ¬ CrcFails i s ∧ VerifierFails i s := by
  unfold endCode
  split_ifs <;> simp_all

theorem endCode_eq_ok_iff :
    endCode i s = .ok ↔ i.wf = true ∧ ¬ structuralCause i s ∧ ¬ CrcFails i s ∧ ¬ VerifierFails i s := by
  unfold endCode
  split_ifs <;> simp_all

end

/-- The commands that check no data: they end with `OK`, `ERR_ILLEGAL` or `ERR_STRUCT`. -/
def ChecksNoData (i : Instr) : Prop := i ≠ .axBDec ∧ i ≠ .axLDec ∧ i ≠ .axRdVer ∧ i ≠ .axLEnc

theorem ChecksNoData.endCode_ok {i : Instr} {s : State} (hi : ChecksNoData i) (hwf : i.wf = true)
    (hs : ¬ structuralCause i s) : endCode i s = .ok := by
  obtain ⟨hbdec, hldec, hrdver, hlenc⟩ := hi
  refine endCode_eq_ok_iff.mpr ⟨hwf, hs, ?_, ?_⟩
  · simp [CrcFails, hbdec, hldec]
  · simp [VerifierFails, hldec, hrdver, hlenc]

/-! ## What each code leaves (R197) -/

/-- What is left of the state `s` in `t`, at the end of a command with each code. -/
def EndLeaves (i : Instr) (s t : State) : Code → Prop
  | .ok => True
  | .illegal => t = { s with status := errStatus 1 }
  | .structural => t = { s with status := errStatus 2 } ∨
      ∃ n, i = .curRead n ∧ t = { s with cur := t.cur, status := errStatus 2 }
  | .crc => t = { s with mem := t.mem, status := errStatus 3 } ∧
      t.buffer = decipheredBuffer s ∧ SameBytesOutside s t 0 s.len
  | .verifier =>
    (i ≠ .axLDec → t = { s with cur := t.cur, status := errStatus 4 }) ∧
      (i = .axLDec → t = { s with mem := t.mem, cur := t.cur, status := errStatus 4 } ∧
        t.buffer = decipheredBuffer s ∧ SameBytesOutside s t 0 s.len)

/-- The command ends with the code of its first check that fails, and leaves what that code leaves. -/
def Reports (i : Instr) (s : State) (o : Host.Outcome State Fault Refusal) : Prop :=
  ∃ u, o = .next (State.endWith u (endCode i s)) ∧ EndLeaves i s (u.endWith (endCode i s)) (endCode i s)

section
variable {i : Instr} {s : State}

theorem reports_of_endCode {c : Code} (hc : endCode i s = c) {u : State} (h : EndLeaves i s (u.endWith c) c) :
    Reports i s (.next (u.endWith c)) := by
  subst hc
  exact ⟨u, rfl, h⟩

theorem reports_finish (hc : endCode i s = .ok) (u : State) : Reports i s (.next u.finish) := reports_of_endCode hc trivial

theorem reports_structural (hwf : i.wf = true) (hs : structuralCause i s) : Reports i s (.next (s.raise .structural)) :=
  reports_of_endCode (endCode_eq_structural_iff.mpr ⟨hwf, hs⟩) (.inl s.endWith_structural)

theorem reports_of_not_wf (h : i.wf = false) : Reports i s (exec i s) := by
  rw [exec_of_not_wf h]
  exact reports_of_endCode (endCode_eq_illegal_iff.mpr h) s.endWith_illegal

/-- A command that checks no data and has no cause of `ERR_STRUCT`. -/
theorem ChecksNoData.reports_finish {o : Host.Outcome State Fault Refusal} {u : State} (hi : ChecksNoData i)
    (ho : o = .next u.finish) (hwf : i.wf = true) (hs : ¬ structuralCause i s) : Reports i s o :=
  ho ▸ Machine.reports_finish (hi.endCode_ok hwf hs) u

/-- A command whose one check is the cause of `ERR_STRUCT`. -/
theorem ChecksNoData.reports_check {o : Host.Outcome State Fault Refusal} {p : Prop} {_ : Decidable p} {u : State}
    (hi : ChecksNoData i) (ho : o = if p then .next (s.raise .structural) else .next u.finish) (hwf : i.wf = true)
    (hp : structuralCause i s ↔ p) : Reports i s o := by
  by_cases h : p
  · rw [ho, if_pos h]
    exact reports_structural hwf (hp.mpr h)
  · exact hi.reports_finish (ho.trans (if_neg h)) hwf fun hs => h (hp.mp hs)

end

/-! ## The commands that check data -/

/-- A read beyond the limit keeps the advance of the cursor (R148, R193). -/
theorem execCurRead_reports {n : Byte} (hwf : (Instr.curRead n).wf = true) (s : State) :
    Reports (.curRead n) s (execCurRead n s) := by
  rw [execCurRead, if_neg (not_lt.mpr (of_decide_eq_true hwf))]
  split
  · next cur hr =>
    refine reports_of_endCode (endCode_eq_structural_iff.mpr ⟨hwf, congrArg Prod.fst hr⟩) (.inr ⟨n, rfl, ?_⟩)
    rw [State.endWith_structural]
    rfl
  · next r cur hr =>
    have hs : ¬ structuralCause (.curRead n) s := by
      show ¬ (readBits s.mem n.toNat s.cur).1 = none
      simp [hr]
    exact ChecksNoData.reports_finish ⟨nofun, nofun, nofun, nofun⟩ rfl hwf hs

/-- The reader on a storage overruns exactly when `ERR_VERIFIER` is due for its words (R195). -/
theorem verifierOverruns_of_readVerifier {m : Memory} {len : Nat} {o : Option (Nat × Nat)} {cur : Cursor}
    (h : readVerifier m len = (o, cur)) : VerifierOverruns (m.words 0 len) ↔ o = none := by
  rw [verifierOverruns_words, h]

theorem execAxRdVer_reports (s : State) : Reports .axRdVer s (execAxRdVer s) := by
  have hs : ¬ structuralCause .axRdVer s := not_false
  have hcrc : ¬ CrcFails .axRdVer s := by simp [CrcFails]
  have hver : VerifierFails .axRdVer s ↔ VerifierOverruns s.buffer := by simp [VerifierFails]
  unfold execAxRdVer
  split
  · next cur hr =>
    have hover := (verifierOverruns_of_readVerifier hr).mpr rfl
    refine reports_of_endCode (endCode_eq_verifier_iff.mpr ⟨rfl, hs, hcrc, hver.mpr hover⟩) ⟨fun _ => ?_, nofun⟩
    rw [State.endWith_verifier]
    rfl
  · next lines c cur hr =>
    have hover := (verifierOverruns_of_readVerifier hr).not.mpr (Option.some_ne_none _)
    exact reports_finish (endCode_eq_ok_iff.mpr ⟨rfl, hs, hcrc, hver.not.mpr hover⟩) _

theorem badAxLength_iff {len : Nat} : badAxLength len = true ↔ len % 2 = 1 ∨ len < 2 := decide_eq_true_iff

theorem execAxLEnc_reports (s : State) : Reports .axLEnc s (execAxLEnc s) := by
  have hcrc : ¬ CrcFails .axLEnc s := by simp [CrcFails]
  have hver : VerifierFails .axLEnc s ↔ VerifierOverruns s.buffer := by simp [VerifierFails]
  unfold execAxLEnc
  split_ifs with hlen
  · exact reports_structural rfl (badAxLength_iff.mp hlen)
  · have hs : ¬ structuralCause .axLEnc s := fun h => hlen (badAxLength_iff.mpr h)
    split
    · next cur hr =>
      have hover := (verifierOverruns_of_readVerifier hr).mpr rfl
      refine reports_of_endCode (endCode_eq_verifier_iff.mpr ⟨rfl, hs, hcrc, hver.mpr hover⟩) ⟨fun _ => ?_, nofun⟩
      rw [State.endWith_verifier]
      rfl
    · next lines c cur hr =>
      have hover := (verifierOverruns_of_readVerifier hr).not.mpr (Option.some_ne_none _)
      exact reports_finish (endCode_eq_ok_iff.mpr ⟨rfl, hs, hcrc, hver.not.mpr hover⟩) _

/-- The block decryption of the buffer, said of the state (R135, R194). -/
theorem axBlockDec_buffer {s : State} {m : Memory} {b : Bool} (hlen : ¬ badAxLength s.len = true)
    (h : axBlockDec Config.ax s.schedD s.mem s.len = (m, b)) :
    m.words 0 s.len = decipheredBuffer s ∧ (b = true ↔ ¬ CrcMismatch s) ∧ s.mem.Touches m 0 s.len := by
  obtain ⟨heven, htwo⟩ := badAxLength_false hlen
  obtain ⟨hwords, hok, ht⟩ := axBlockDec_spec s.schedD s.mem s.len heven htwo _ _ rfl rfl
  rw [h] at hwords hok ht
  exact ⟨hwords, hok.trans not_not.symm, ht⟩

/-- A nibble that does not match ends `AX_BDEC` and `AX_LDEC` with the buffer deciphered (R194, R197). -/
theorem reports_crc {i : Instr} (hi : i = .axBDec ∨ i = .axLDec) {s : State} {m : Memory} (hlen : ¬ badAxLength s.len = true)
    (h : axBlockDec Config.ax s.schedD s.mem s.len = (m, false)) : Reports i s (.next ({ s with mem := m }.raise .crc)) := by
  obtain ⟨hwords, hok, ht⟩ := axBlockDec_buffer hlen h
  have hwf : i.wf = true := by rcases hi with rfl | rfl <;> rfl
  have hs : ¬ structuralCause i s := by
    rcases hi with rfl | rfl <;> exact fun h => hlen (badAxLength_iff.mpr h)
  have hcrc : CrcMismatch s := by simpa using hok
  refine reports_of_endCode (endCode_eq_crc_iff.mpr ⟨hwf, hs, hi, hcrc⟩) ⟨?_, hwords, ht.byte⟩
  rw [State.endWith_crc]

theorem execAxBDec_reports (s : State) : Reports .axBDec s (execAxBDec s) := by
  unfold execAxBDec
  split_ifs with hlen
  · exact reports_structural rfl (badAxLength_iff.mp hlen)
  · have hs : ¬ structuralCause .axBDec s := fun h => hlen (badAxLength_iff.mpr h)
    split
    · next m hm => exact reports_crc (.inl rfl) hlen hm
    · next m hm =>
      have hcrc : ¬ CrcMismatch s := (axBlockDec_buffer hlen hm).2.1.mp rfl
      refine reports_finish (endCode_eq_ok_iff.mpr ⟨rfl, hs, ?_, ?_⟩) _
      · simp [CrcFails, hcrc]
      · simp [VerifierFails]

theorem execAxLDec_reports (s : State) : Reports .axLDec s (execAxLDec s) := by
  have hver : VerifierFails .axLDec s ↔ VerifierOverruns (decipheredBuffer s) := by simp [VerifierFails]
  unfold execAxLDec
  split_ifs with hlen
  · exact reports_structural rfl (badAxLength_iff.mp hlen)
  · have hs : ¬ structuralCause .axLDec s := fun h => hlen (badAxLength_iff.mpr h)
    split
    · next m hm => exact reports_crc (.inr rfl) hlen hm
    · next m hm =>
      obtain ⟨hwords, hok, ht⟩ := axBlockDec_buffer hlen hm
      have hcrc : ¬ CrcFails .axLDec s := fun h => hok.mp rfl h.2
      rw [← hwords] at hver
      split
      · next cur hr =>
        have hover := (verifierOverruns_of_readVerifier hr).mpr rfl
        refine reports_of_endCode (endCode_eq_verifier_iff.mpr ⟨rfl, hs, hcrc, hver.mpr hover⟩)
          ⟨fun h => absurd rfl h, fun _ => ⟨?_, hwords, ht.byte⟩⟩
        rw [State.endWith_verifier]
        rfl
      · next lines c cur hr =>
        have hover := (verifierOverruns_of_readVerifier hr).not.mpr (Option.some_ne_none _)
        exact reports_finish (endCode_eq_ok_iff.mpr ⟨rfl, hs, hcrc, hver.not.mpr hover⟩) _

/-! ## Every command -/

theorem exec_reports_of_wf {i : Instr} (hwf : i.wf = true) (s : State) : Reports i s (exec i s) := by
  cases i with
  | nop | bufRemove | batchReset | ar2SetSeed | ar2GetSeed | ar2DecW | ar2EncW | axDecB | axEncB | axMkVer | gs3SetSeeds
  | gs3DecP | gs3RngSeed | gs3RngNext =>
    exact ChecksNoData.reports_finish ⟨nofun, nofun, nofun, nofun⟩ rfl rfl not_false
  | bufAppend | bufPrepend | ar2BDec | ar2BEnc | ar1BDec | ar1BEnc | curSet | gs3BDec =>
    exact ChecksNoData.reports_check ⟨nofun, nofun, nofun, nofun⟩ rfl rfl Iff.rfl
  | axCrc => exact ChecksNoData.reports_check ⟨nofun, nofun, nofun, nofun⟩ rfl rfl Nat.lt_one_iff.symm
  | axBEnc => exact ChecksNoData.reports_check ⟨nofun, nofun, nofun, nofun⟩ rfl rfl badAxLength_iff.symm
  | gs3EncP key =>
    have hkey : ¬ key.toNat > 7 := not_lt.mpr (of_decide_eq_true hwf)
    exact ChecksNoData.reports_finish ⟨nofun, nofun, nofun, nofun⟩ (if_neg hkey) hwf not_false
  | gs3BEnc key =>
    have hkey : ¬ key.toNat > 7 := not_lt.mpr (of_decide_eq_true hwf)
    exact ChecksNoData.reports_check ⟨nofun, nofun, nofun, nofun⟩ (if_neg hkey) hwf Iff.rfl
  | curRead n => exact execCurRead_reports hwf s
  | axRdVer => exact execAxRdVer_reports s
  | axBDec => exact execAxBDec_reports s
  | axLDec => exact execAxLDec_reports s
  | axLEnc => exact execAxLEnc_reports s

theorem exec_reports (i : Instr) (s : State) : Reports i s (exec i s) := by
  cases hwf : i.wf with
  | false => exact reports_of_not_wf hwf
  | true => exact exec_reports_of_wf hwf s

/-! ## The statement's form -/

theorem Code.bits_injective : Function.Injective Code.bits := by
  intro c c'
  cases c <;> cases c' <;> decide

theorem Reports.next_inv {i : Instr} {s t : State} (h : Reports i s (.next t)) :
    (∀ c, statusCode t.status = c.bits ↔ endCode i s = c) ∧ ∀ c, statusCode t.status = c.bits → EndLeaves i s t c := by
  obtain ⟨u, ⟨⟩, hleaves⟩ := h
  have hcode : ∀ c : Code, statusCode (u.endWith (endCode i s)).status = c.bits ↔ endCode i s = c := by
    intro c
    rw [State.endWith_status, statusAfter, statusCode_statusWord]
    exact Code.bits_injective.eq_iff
  exact ⟨hcode, fun c hc => (hcode c).mp hc ▸ hleaves⟩

/-- The causes of `ERR_CRC`: the commands that check the nibble are always well formed (R194). -/
theorem endCode_eq_crc_iff_cause {i : Instr} {s : State} :
    endCode i s = .crc ↔ (i = .axBDec ∨ i = .axLDec) ∧ ¬ structuralCause i s ∧ CrcMismatch s := by
  rw [endCode_eq_crc_iff, CrcFails]
  refine ⟨fun ⟨_, hs, hi, hm⟩ => ⟨hi, hs, hm⟩, fun ⟨hi, hs, hm⟩ => ⟨?_, hs, hi, hm⟩⟩
  rcases hi with rfl | rfl <;> rfl

/-- The causes of `ERR_VERIFIER`, command by command (R195). -/
theorem endCode_eq_verifier_iff_cause {i : Instr} {s : State} :
    endCode i s = .verifier ↔ (i = .axRdVer ∨ i = .axLEnc ∧ ¬ structuralCause i s) ∧ VerifierOverruns s.buffer ∨
      i = .axLDec ∧ ¬ structuralCause i s ∧ ¬ CrcMismatch s ∧ VerifierOverruns (decipheredBuffer s) := by
  rw [endCode_eq_verifier_iff, VerifierFails, CrcFails]
  constructor
  · rintro ⟨-, hs, hcrc, ⟨rfl | rfl, hover⟩ | ⟨rfl, hover⟩⟩
    · exact .inl ⟨.inl rfl, hover⟩
    · exact .inl ⟨.inr ⟨rfl, hs⟩, hover⟩
    · exact .inr ⟨rfl, hs, fun hm => hcrc ⟨.inr rfl, hm⟩, hover⟩
  · rintro (⟨rfl | ⟨rfl, hs⟩, hover⟩ | ⟨rfl, hs, hm, hover⟩)
    · exact ⟨rfl, not_false, by simp, .inl ⟨.inl rfl, hover⟩⟩
    · exact ⟨rfl, hs, by simp, .inl ⟨.inr rfl, hover⟩⟩
    · exact ⟨rfl, hs, fun hcrc => hm hcrc.2, .inr ⟨rfl, hover⟩⟩

/-- Settles O23. -/
theorem errorsOnlyAsListed : Obligations.ErrorsOnlyAsListed := by
  intro i s t h
  obtain ⟨hcode, hleaves⟩ := (h ▸ exec_reports i s).next_inv
  exact ⟨(hcode .illegal).trans endCode_eq_illegal_iff, (hcode .structural).trans endCode_eq_structural_iff,
    (hcode .crc).trans endCode_eq_crc_iff_cause, (hcode .verifier).trans endCode_eq_verifier_iff_cause,
    hleaves .illegal, hleaves .structural, hleaves .crc, fun hc => (hleaves .verifier hc).1,
    fun hc => (hleaves .verifier hc).2⟩

end Sys2Proof.Machine
end

section
/-! PROOF. Buffer and control commands (R81 to R84) and the AR2 batch decryption (R101, R103): an error found before anything
is written, or what the command writes and its end with `OK`. -/

namespace Sys2Proof.Machine

/-! ## `ERR_STRUCT` (R193) -/

/-- A command but `CUR_READ`, which leaves the cursor where it stopped, reports a structural error and does nothing else. -/
theorem exec_of_structuralCause {i : Instr} {s : State} (hwf : i.wf = true) (hcause : structuralCause i s)
    (hread : ∀ n, i ≠ .curRead n) : exec i s = .next { s with status := errStatus 2 } := by
  obtain ⟨u, hexec, hleaves⟩ := exec_reports i s
  rw [endCode_eq_structural_iff.mpr ⟨hwf, hcause⟩] at hexec hleaves
  obtain hleft | ⟨n, hi, -⟩ := hleaves
  · rw [hexec, hleft]
  · exact absurd hi (hread n)

/-! ## The AR2 batch decryption (R101, R103) -/

/-- The loop runs over the whole of an even buffer (R103). -/
theorem exec_ar2BDec_even {s : State} (h : s.len % 2 = 0) :
    exec .ar2BDec s = .next ((ar2BatchDec (s.len / 2) 0 s).endWith .ok) :=
  if_neg (by omega)

/-- `AR2_BDEC` on an even buffer is the decrypted stream of its pairs (R101, R103). -/
theorem ar2BDec_isStream {s : State} (h : s.len % 2 = 0) {r : List Pair × Word × Nat}
    (hr : ar2DecStream (pairsOf s.buffer) s.seed s.draws = r) : ∃ t, exec .ar2BDec s = .next t ∧
      t = { s with mem := t.mem, len := 2 * r.1.length, seed := r.2.1, draws := r.2.2, status := okStatus s.status } ∧
      t.buffer = wordsOf r.1 ∧ SameBytesOutside s t 0 s.len := by
  rw [pairsOf_buffer] at hr
  obtain ⟨m, e, ht, hp⟩ := ar2BatchDec_spec (s.len / 2) 0 s (by omega) r hr
  rw [Nat.zero_add] at e
  rw [exec_ar2BDec_even h, e, State.endWith_ok]
  exact ⟨_, rfl, rfl, (m.words_eq_wordsOf_pairs 0 _).trans (congrArg wordsOf hp), ht.byte⟩

/-- Settles O34. -/
theorem ar2BatchDecryptsStream : Obligations.Ar2BatchDecryptsStream := by
  intro s
  refine ⟨fun hodd => exec_of_structuralCause rfl hodd nofun, fun heven => ?_⟩
  obtain ⟨t, hexec, ht⟩ := ar2BDec_isStream heven rfl
  exact ⟨t, hexec, fun r hr => hr ▸ ht⟩

/-! ## One word more (R83, R84) -/

theorem exec_bufAppend_room {s : State} (h : s.len ≠ Config.nmax) : exec .bufAppend s = .next
    { s with mem := s.mem.writeWord s.len s.op.r0, len := s.len + 1, status := okStatus s.status } :=
  (if_neg h).trans (congrArg _ (State.endWith_ok _))

/-- The word after the first `n` written: they stay and it follows them. -/
theorem Memory.words_writeWord_last (m : Memory) (n : Nat) (v : Word) :
    (m.writeWord n v).words 0 (n + 1) = m.words 0 n ++ [v] := by
  have hkept : (m.writeWord n v).words 0 n = m.words 0 n :=
    (m.touches_writeWord v (Nat.le_refl n) (Nat.lt_succ_self n)).words (.inl (Nat.zero_add n).le)
  rw [Memory.words_append, hkept, Nat.zero_add]
  simp only [Memory.words, Memory.readWord_writeWord_same]

/-- Settles O27. -/
theorem appendAddsLastWord : Obligations.AppendAddsLastWord := by
  intro s
  refine ⟨fun hfull => exec_of_structuralCause rfl hfull nofun, fun hroom => ⟨_, exec_bufAppend_room hroom, rfl, ?_, ?_⟩⟩
  · exact s.mem.words_writeWord_last s.len s.op.r0
  · exact (s.mem.touches_writeWord s.op.r0 (Nat.le_refl _) (Nat.lt_succ_self _)).byte

theorem exec_bufPrepend_room {s : State} (h : s.len ≠ Config.nmax) : exec .bufPrepend s = .next
    { s with mem := (s.mem.shiftUp s.len).writeWord 0 s.op.r0, len := s.len + 1, status := okStatus s.status } :=
  (if_neg h).trans (congrArg _ (State.endWith_ok _))

/-- The first `n` words moved up by one, and the word they leave free written. -/
theorem Memory.words_shiftUp_writeWord (m : Memory) (n : Nat) (v : Word) :
    ((m.shiftUp n).writeWord 0 v).words 0 (n + 1) = v :: m.words 0 n := by
  have hmoved : ((m.shiftUp n).writeWord 0 v).words 1 n = m.words 0 n :=
    (((m.shiftUp n).touches_writeWord v (Nat.le_refl 0) Nat.one_pos).words (.inr (Nat.le_refl 1))).trans (m.words_shiftUp n)
  simp only [Memory.words, Memory.readWord_writeWord_same, Nat.zero_add, hmoved]

theorem Memory.touches_shiftUp_writeWord (m : Memory) (n : Nat) (v : Word) :
    m.Touches ((m.shiftUp n).writeWord 0 v) 0 (n + 1) :=
  ((m.touches_shiftUp n).mono (Nat.zero_le 1) (Nat.le_refl _)).trans
    ((m.shiftUp n).touches_writeWord v (Nat.le_refl 0) (Nat.succ_pos n))

/-- Settles O28. -/
theorem prependAddsFirstWord : Obligations.PrependAddsFirstWord := by
  intro s
  refine ⟨fun hfull => exec_of_structuralCause rfl hfull nofun, fun hroom => ⟨_, exec_bufPrepend_room hroom, rfl, ?_, ?_⟩⟩
  · exact s.mem.words_shiftUp_writeWord s.len s.op.r0
  · exact (s.mem.touches_shiftUp_writeWord s.len s.op.r0).byte

/-! ## `NOP` and `BATCH_RESET` (R81, R82) -/

/-- The only word with opcode 0 that is not illegal is the word of `NOP`, which is 0 (R56, R81). -/
theorem illegalWord_of_opcField_zero {c : Word} (hopc : opcField c = 0) (hc : c ≠ 0) : illegalWord c := by
  by_cases hrsv : rsvField c = 0
  · have hword : c = commandWord 0 (immField c) := hopc ▸ eq_commandWord_of_rsvField hrsv
    have himm : immField c ≠ 0 := fun h => hc (by rw [hword, h]; rfl)
    rw [hword, illegalWord_commandWord_iff]
    exact .inr (.inl ⟨by decide, himm⟩)
  · exact .inl hrsv

/-- Settles O25. -/
theorem nopOnlyReportsOk : Obligations.NopOnlyReportsOk :=
  ⟨fun s => congrArg _ s.endWith_ok, fun _ => illegalWord_of_opcField_zero⟩

/-- Settles O26: `BATCH_RESET` restores the batch-scoped state and then ends with `OK`. -/
theorem batchResetEffect : Obligations.BatchResetEffect :=
  fun s => congrArg _ s.batchReset.endWith_ok

end Sys2Proof.Machine
end

section
/-! PROOF. The AR2 word transforms and batches (41_ar2.md). Each lane operation undoes the other direction's, so each transform
of a known type and each pair under a seed of known types does; the round trip of R107 is that fact carried along the streams
of pairs that the batches are. -/

namespace Sys2Proof.Machine

/-! ## One byte lane (R93, R94) -/

theorem laneDecrypt_laneEncrypt (op : LaneOp) (k1 k2 x : Byte) : laneDecrypt op k1 k2 (laneEncrypt op k1 k2 x) = x := by
  cases op <;> simp [laneDecrypt, laneEncrypt]

theorem laneEncrypt_laneDecrypt (op : LaneOp) (k1 k2 x : Byte) : laneEncrypt op k1 k2 (laneDecrypt op k1 k2 x) = x := by
  cases op <;> simp [laneDecrypt, laneEncrypt]

/-- The direction that undoes a direction (R97). -/
def Direction.opposite : Direction → Direction
  | .decrypt => .encrypt
  | .encrypt => .decrypt

/-- A lane depends on the word through its own byte only (R95), and the opposite direction restores that byte. -/
theorem ar2Lane_opposite (P : Ar2Params) (d : Direction) (t : Fin 7) (s : Byte) (w w' : Word) (b : Fin 4)
    (h : byteOf w' b.val = ar2Lane P d t s w b) : ar2Lane P d.opposite t s w' b = byteOf w b.val := by
  cases d with
  | decrypt =>
    simp only [Direction.opposite, ar2Lane] at h ⊢
    rw [h, laneEncrypt_laneDecrypt]
  | encrypt =>
    simp only [Direction.opposite, ar2Lane] at h ⊢
    rw [h, laneDecrypt_laneEncrypt]

/-! ## One word (R95, R98) -/

theorem byteOf_ar2Lanes (P : Ar2Params) (d : Direction) (t : Fin 7) (w : Word) (s : Byte) (b : Fin 4) :
    byteOf (ar2Lanes P d t w s) b.val = ar2Lane P d t s w b := by
  match b with
  | 0 => exact byteOf_ofBytes_zero ..
  | 1 => exact byteOf_ofBytes_one ..
  | 2 => exact byteOf_ofBytes_two ..
  | 3 => exact byteOf_ofBytes_three ..

theorem ar2Lanes_opposite (P : Ar2Params) (d : Direction) (t : Fin 7) (w : Word) (s : Byte) :
    ar2Lanes P d.opposite t (ar2Lanes P d t w s) s = w := by
  have hlane (b : Fin 4) : ar2Lane P d.opposite t s (ar2Lanes P d t w s) b = byteOf w b.val :=
    ar2Lane_opposite P d t s w _ b (byteOf_ar2Lanes P d t w s b)
  rw [ar2Lanes, hlane, hlane, hlane, hlane]
  exact ofBytes_byteOf w

theorem ar2Transform_lanes (P : Ar2Params) (d : Direction) (free w : Word) (s : Byte) {t : Byte} (h : t.toNat < 7) :
    ar2Transform P d free w t s = ar2Lanes P d ⟨t.toNat, h⟩ w s := dif_pos h

theorem ar2Transform_seven (P : Ar2Params) (d : Direction) (free w : Word) (s : Byte) :
    ar2Transform P d free w 7 s = if s.getLsbD 0 then ar2Lanes P d 1 w s else ~~~w := rfl

theorem ar2Transform_free (P : Ar2Params) (d : Direction) (free w : Word) (s : Byte) {t : Byte} (h : 8 ≤ t.toNat) :
    ar2Transform P d free w t s = free :=
  (dif_neg (by omega)).trans (if_neg (by omega))

/-- For a known type the opposite direction restores the word, whatever the free values (R97, R98). -/
theorem ar2Transform_opposite (P : Ar2Params) (d : Direction) (f g w : Word) (s : Byte) {t : Byte} (ht : t.toNat < 8) :
    ar2Transform P d.opposite f (ar2Transform P d g w t s) t s = w := by
  by_cases h7 : t.toNat < 7
  · rw [ar2Transform_lanes P d g w s h7, ar2Transform_lanes P d.opposite f _ s h7, ar2Lanes_opposite]
  · obtain rfl : t = 7 := BitVec.eq_of_toNat_eq (by change t.toNat = 7; omega)
    rw [ar2Transform_seven, ar2Transform_seven]
    by_cases hodd : s.getLsbD 0 = true
    · rw [if_pos hodd, if_pos hodd, ar2Lanes_opposite]
    · rw [if_neg hodd, if_neg hodd, BitVec.not_not]

/-- Settles O33. -/
theorem wordTransformsInvert : Obligations.WordTransformsInvert :=
  fun P f g w _ s ht => ⟨ar2Transform_opposite P .encrypt f g w s ht, ar2Transform_opposite P .decrypt f g w s ht⟩

/-- An offset of 0 selects the entry of the seed byte's low five bits (R94). -/
theorem ar2Index_zero (s : Byte) : ar2Index s 0 = s.setWidth 5 := by
  simp [ar2Index]

/-- Byte `b` of a transform of type 0 to 6 is the lane of its descriptor (R94, R95). -/
theorem byteOf_ar2Transform (P : Ar2Params) (d : Direction) (free w : Word) (s : Byte) (b : Fin 4) {t : Byte}
    (h : t.toNat < 7) : byteOf (ar2Transform P d free w t s) b.val = ar2Lane P d ⟨t.toNat, h⟩ s w b := by
  rw [ar2Transform_lanes P d free w s h, byteOf_ar2Lanes]

/-- For types 0 to 5 the operation of a decrypt lane is the one R93 gives the type (R94). -/
theorem ar2Lane_decrypt_fixed (P : Ar2Params) {t : Fin 7} (ht : t.val < 6) (s : Byte) (w : Word) (b : Fin 4) :
    ar2Lane P .decrypt t s w b = laneDecrypt (laneOpOfType t) (Lane.key1 P (P.xform t b) s) (Lane.key2 P (P.xform t b) s)
      (byteOf w b.val) := by
  obtain ⟨hop, -, -⟩ := P.xform_fixed t b ht
  rw [ar2Lane, hop]

/-- Settles O32. -/
theorem laneFormulasByType : Obligations.LaneFormulasByType := by
  intro P free w s b x lane k1 k2
  have hfixed {t : Byte} (ht : t.toNat < 6) : lane .decrypt t =
      laneDecrypt (laneOpOfType ⟨t.toNat, by omega⟩) (k1 ⟨t.toNat, by omega⟩) (k2 ⟨t.toNat, by omega⟩) x :=
    (byteOf_ar2Transform P .decrypt free w s b (by omega)).trans (ar2Lane_decrypt_fixed P ht s w b)
  have hoffsets (t : Fin 7) (ht : t.val < 6) :
      k1 t = P.tbl (P.xform t b).ti (s.setWidth 5) ∧ k2 t = P.tbl (P.xform t b).tj (s.setWidth 5) := by
    obtain ⟨-, hoi, hoj⟩ := P.xform_fixed t b ht
    rw [← ar2Index_zero]
    simp only [k1, k2, hoi, hoj]
    exact ⟨rfl, rfl⟩
  have htype6 (d : Direction) : lane d 6 = ar2Lane P d 6 s w b := byteOf_ar2Transform P d free w s b (by decide)
  exact ⟨hoffsets, hfixed (t := 0) (by decide), hfixed (t := 1) (by decide), hfixed (t := 2) (by decide),
    hfixed (t := 3) (by decide), hfixed (t := 4) (by decide), hfixed (t := 5) (by decide), htype6 .decrypt, htype6 .encrypt,
    fun d => ar2Transform_seven P d free w s, fun d _ ht => ar2Transform_free P d free w s ht⟩

/-! ## One pair under a seed (R19, R101, R102) -/

/-- Under a seed of known types a pair takes no free value, and the opposite direction restores it wherever the draws stand. -/
theorem ar2PairAt_opposite (d : Direction) {seed : Word} (hknown : KnownTypes seed) (n m : Nat) (p : Pair) :
    ar2PairAt d.opposite seed m (ar2PairAt d seed n p).1 = (p, m) := by
  obtain ⟨haddr, hvalue⟩ := hknown
  simp only [ar2PairAt, ar2Transform_opposite _ d _ _ _ _ haddr, ar2Transform_opposite _ d _ _ _ _ hvalue, ar2Draws,
    if_pos haddr, if_pos hvalue, Nat.add_zero]

theorem ar2PairAt_draws (d : Direction) {seed : Word} (hknown : KnownTypes seed) (n : Nat) (p : Pair) :
    (ar2PairAt d seed n p).2 = n := by
  obtain ⟨haddr, hvalue⟩ := hknown
  simp only [ar2PairAt, ar2Draws, if_pos haddr, if_pos hvalue, Nat.add_zero]

/-! ## Streams of pairs (R107) -/

theorem ar2EncStream_cons (p : Pair) (ps : List Pair) (seed : Word) (n : Nat) (q : Pair × Nat)
    (hq : ar2PairAt .encrypt seed n p = q) (r : List Pair × Word × Nat)
    (hr : ar2EncStream ps (if p.1 = Config.ar2.marker then p.2 else seed) q.2 = r) :
    ar2EncStream (p :: ps) seed n = (q.1 :: r.1, r.2) := by
  subst hq hr; rfl

/-- The seed after an encryption is the last plaintext marker's value, whatever the types (R104). -/
theorem ar2EncStream_seed (ps : List Pair) (seed : Word) (n : Nat) : (ar2EncStream ps seed n).2.1 = seedAfter seed ps := by
  induction ps generalizing seed n with
  | nil => rfl
  | cons p ps ih => rw [ar2EncStream_cons p ps seed n _ rfl _ rfl, ih]; rfl

/-- Decrypting an encrypted stream under its starting seed leaves out the markers and meets the seeds again (R107). -/
theorem ar2DecStream_ar2EncStream (ps : List Pair) (seed : Word) (hknown : SeedsKnown seed ps) (n m : Nat) :
    ∃ k, ar2DecStream (ar2EncStream ps seed n).1 seed m = (withoutMarkers ps, seedAfter seed ps, k) := by
  induction ps generalizing seed n m with
  | nil => exact ⟨m, rfl⟩
  | cons p ps ih =>
    obtain ⟨hseed, hrest⟩ := hknown
    rw [ar2EncStream_cons p ps seed n _ rfl _ rfl,
      ar2DecStream_cons _ _ _ _ _ (ar2PairAt_opposite .encrypt hseed n m p)]
    by_cases hmarker : p.1 = Config.ar2.marker
    · simp only [if_pos hmarker] at hrest ⊢
      obtain ⟨k, hk⟩ := ih p.2 hrest (ar2PairAt .encrypt seed n p).2 (m + 2)
      exact ⟨k, by rw [hk]; simp [withoutMarkers, seedAfter, hmarker]⟩
    · simp only [if_neg hmarker] at hrest ⊢
      obtain ⟨k, hk⟩ := ih seed hrest (ar2PairAt .encrypt seed n p).2 m
      exact ⟨k, by rw [hk]; simp [withoutMarkers, seedAfter, hmarker]⟩

/-- When decryption removes no pair, it keeps the seed, draws nothing, and encryption restores the stream (R107). -/
theorem ar2EncStream_ar2DecStream (ps : List Pair) (seed : Word) (hknown : ps ≠ [] → KnownTypes seed) (n m : Nat)
    (hlength : (ar2DecStream ps seed n).1.length = ps.length) :
    (ar2DecStream ps seed n).2 = (seed, n) ∧ ar2EncStream (ar2DecStream ps seed n).1 seed m = (ps, seed, m) := by
  induction ps with
  | nil => exact ⟨rfl, rfl⟩
  | cons p ps ih =>
    have hseed : KnownTypes seed := hknown (List.cons_ne_nil p ps)
    rw [ar2DecStream_cons _ _ _ _ _ rfl, ar2PairAt_draws .decrypt hseed] at hlength ⊢
    by_cases hmarker : (ar2PairAt .decrypt seed n p).1.1 = Config.ar2.marker
    · rw [if_pos hmarker] at hlength
      have := ar2DecStream_length ps (ar2PairAt .decrypt seed n p).1.2 (n + 2)
      rw [List.length_cons] at hlength
      omega
    · rw [if_neg hmarker] at hlength ⊢
      obtain ⟨hkept, hrestored⟩ := ih (fun _ => hseed) (Nat.succ.inj hlength)
      refine ⟨hkept, ar2EncStream_cons _ _ _ _ _ (ar2PairAt_opposite .decrypt hseed n m p) (ps, seed, m) ?_⟩
      rw [if_neg hmarker, hrestored]

theorem withoutMarkers_of_no_marker {ps : List Pair} (h : ∀ p ∈ ps, p.1 ≠ Config.ar2.marker) : withoutMarkers ps = ps :=
  List.filter_eq_self.mpr fun p hp => decide_eq_true (h p hp)

theorem seedAfter_of_no_marker {ps : List Pair} (h : ∀ p ∈ ps, p.1 ≠ Config.ar2.marker) (seed : Word) :
    seedAfter seed ps = seed := by
  induction ps with
  | nil => rfl
  | cons p ps ih =>
    obtain ⟨hp, hps⟩ := List.forall_mem_cons.mp h
    rw [seedAfter, List.foldl_cons, if_neg hp]
    exact ih hps

/-! ## The AR2 batches (R103, R104, R107) -/

/-- The loop runs over the whole of an even buffer (R104). -/
theorem exec_ar2BEnc_even {s : State} (h : s.len % 2 = 0) :
    exec .ar2BEnc s = .next ((ar2BatchEnc (s.len / 2) 0 s).endWith .ok) :=
  if_neg (by omega)

/-- The words of an even buffer are those of its pairs (R60). -/
theorem wordsOf_pairsOf_buffer {s : State} (h : s.len % 2 = 0) : wordsOf (pairsOf s.buffer) = s.buffer := by
  have hlen : 2 * (s.len / 2) = s.len := by omega
  rw [pairsOf_buffer, ← Memory.words_eq_wordsOf_pairs, hlen]
  rfl

theorem pairsOf_buffer_length (s : State) : (pairsOf s.buffer).length = s.len / 2 := by
  rw [pairsOf_buffer, Memory.pairs_length]

/-- `AR2_BENC` on an even buffer is the encrypted stream of its pairs (R102, R104). -/
theorem ar2BEnc_isStream {s : State} (h : s.len % 2 = 0) {r : List Pair × Word × Nat}
    (hr : ar2EncStream (pairsOf s.buffer) s.seed s.draws = r) :
    ∃ m, exec .ar2BEnc s = .next { s with mem := m, seed := r.2.1, draws := r.2.2, status := okStatus s.status } ∧
      m.words 0 s.len = wordsOf r.1 ∧ s.mem.Touches m 0 s.len := by
  rw [pairsOf_buffer] at hr
  obtain ⟨m, e, ht, hp⟩ := ar2BatchEnc_spec (s.len / 2) 0 s r hr
  have hlen : 2 * (s.len / 2) = s.len := by omega
  rw [Nat.zero_add, hlen] at ht
  refine ⟨m, ?_, ?_, ht⟩
  · rw [exec_ar2BEnc_even h, e, State.endWith_ok]
  · calc m.words 0 s.len
        = m.words 0 (2 * (s.len / 2)) := congrArg (m.words 0) hlen.symm
      _ = wordsOf r.1 := by rw [Memory.words_eq_wordsOf_pairs, hp]

/-- Settles O35. -/
theorem ar2BatchEncryptsStream : Obligations.Ar2BatchEncryptsStream := by
  intro s
  refine ⟨fun hodd => exec_of_structuralCause rfl hodd nofun, fun heven => ?_⟩
  obtain ⟨m, hexec, hbuffer, hframe⟩ := ar2BEnc_isStream heven rfl
  refine ⟨_, hexec, fun r hr => ?_⟩
  subst hr
  exact ⟨rfl, hbuffer, hframe.byte⟩

/-- `AR2_BENC`, then `AR2_BDEC` from the seed before: the buffer less its marker pairs (R107). -/
theorem ar2BDec_after_ar2BEnc {s : State} (h : s.len % 2 = 0) (hknown : SeedsKnown s.seed (pairsOf s.buffer)) :
    ∃ t u, exec .ar2BEnc s = .next t ∧ exec .ar2BDec { t with seed := s.seed } = .next u ∧
      t.seed = seedAfter s.seed (pairsOf s.buffer) ∧
      u = { s with mem := u.mem, len := 2 * (withoutMarkers (pairsOf s.buffer)).length
                   seed := seedAfter s.seed (pairsOf s.buffer), draws := u.draws, status := okStatus s.status } ∧
      u.buffer = wordsOf (withoutMarkers (pairsOf s.buffer)) := by
  obtain ⟨e, he⟩ : ∃ e, ar2EncStream (pairsOf s.buffer) s.seed s.draws = e := ⟨_, rfl⟩
  obtain ⟨m, hexec, hbuffer, -⟩ := ar2BEnc_isStream h he
  obtain ⟨k, hstream⟩ := ar2DecStream_ar2EncStream _ _ hknown s.draws e.2.2
  have hpairs : pairsOf (m.words 0 s.len) = e.1 := by rw [hbuffer, pairsOf_wordsOf]
  rw [he, ← hpairs] at hstream
  obtain ⟨u, hexec', hu, hubuffer, -⟩ := ar2BDec_isStream (s := { s with
    mem := m, draws := e.2.2, status := okStatus s.status }) h hstream
  refine ⟨_, u, hexec, hexec', ?_, ?_, hubuffer⟩
  · rw [← he]
    exact ar2EncStream_seed ..
  · rw [okStatus_okStatus] at hu
    rw [hu]

/-- `AR2_BDEC` that removes no marker leaves everything but the storage and `STATUS` (R107). -/
theorem ar2BDec_of_len_kept {s t : State} (h : s.len % 2 = 0) (hknown : s.len ≠ 0 → KnownTypes s.seed)
    (hexec : exec .ar2BDec s = .next t) (hlen : t.len = s.len) :
    t = { s with mem := t.mem, status := okStatus s.status } ∧
      ∀ n, ar2EncStream (pairsOf t.buffer) s.seed n = (pairsOf s.buffer, s.seed, n) := by
  obtain ⟨r, hr⟩ : ∃ r, ar2DecStream (pairsOf s.buffer) s.seed s.draws = r := ⟨_, rfl⟩
  obtain ⟨t', hexec', ht, hbuffer, -⟩ := ar2BDec_isStream h hr
  obtain rfl : t' = t := Host.Outcome.next.inj (hexec'.symm.trans hexec)
  have hpairs : (pairsOf s.buffer).length = s.len / 2 := pairsOf_buffer_length s
  have hwords : 2 * r.1.length = s.len := (congrArg State.len ht).symm.trans hlen
  have hseed : pairsOf s.buffer ≠ [] → KnownTypes s.seed := fun hne =>
    hknown fun h0 => hne (List.length_eq_zero_iff.mp (by omega))
  have hrestored := fun n => ar2EncStream_ar2DecStream _ _ hseed s.draws n (by rw [hr]; omega)
  rw [hr] at hrestored
  obtain ⟨hkept, -⟩ := hrestored 0
  rw [hwords, hkept] at ht
  exact ⟨ht, fun n => by rw [hbuffer, pairsOf_wordsOf]; exact (hrestored n).2⟩

/-- `AR2_BDEC` that removes no marker, then `AR2_BENC`: the buffer, the seed and the draw count restored (R107). -/
theorem ar2BEnc_after_ar2BDec {s t : State} (h : s.len % 2 = 0) (hknown : s.len ≠ 0 → KnownTypes s.seed)
    (hexec : exec .ar2BDec s = .next t) (hlen : t.len = s.len) :
    ∃ u, exec .ar2BEnc t = .next u ∧ u = { s with mem := u.mem, status := okStatus s.status } ∧ u.buffer = s.buffer := by
  obtain ⟨ht, hrestored⟩ := ar2BDec_of_len_kept h hknown hexec hlen
  generalize t.mem = m at ht
  subst ht
  obtain ⟨m', hexec', hbuffer, -⟩ :=
    ar2BEnc_isStream (s := { s with mem := m, status := okStatus s.status }) h (hrestored s.draws)
  refine ⟨_, hexec', ?_, hbuffer.trans (wordsOf_pairsOf_buffer h)⟩
  rw [okStatus_okStatus]

/-- Settles O37. -/
theorem ar2BatchRoundTrip : Obligations.Ar2BatchRoundTrip := by
  refine ⟨fun s heven hknown => ?_, fun s t => ar2BEnc_after_ar2BDec⟩
  obtain ⟨t, u, ht, hu, htseed, hufields, hubuffer⟩ := ar2BDec_after_ar2BEnc heven hknown
  refine ⟨t, u, ht, hu, htseed, hufields, hubuffer, fun hnone => ⟨?_, ?_⟩⟩
  · rw [hubuffer, withoutMarkers_of_no_marker hnone, wordsOf_pairsOf_buffer heven]
  · rw [hufields, seedAfter_of_no_marker hnone]

/-! ## `AR2_SETSEED`, `AR2_GETSEED` and AR1 (R91, R92, R105, R106) -/

theorem exec_ar2SetSeed (s : State) :
    exec .ar2SetSeed s = .next { s with seed := s.op.r0, status := okStatus s.status } :=
  congrArg _ (State.endWith_ok _)

theorem exec_ar2GetSeed (s : State) :
    exec .ar2GetSeed s = .next { s with res := { s.res with r0 := s.seed }, status := okStatus s.status } :=
  congrArg _ (State.endWith_ok _)

/-- Settles O30. -/
theorem seedRegisterCommands : Obligations.SeedRegisterCommands := by
  refine fun s => ⟨exec_ar2SetSeed s, exec_ar2GetSeed s, fun t ht => ⟨_, exec_ar2GetSeed t, ?_⟩⟩
  obtain rfl := Host.Outcome.next.inj ((exec_ar2SetSeed s).symm.trans ht)
  rfl

theorem exec_ar1BDec_even {s : State} (h : s.len % 2 = 0) : exec .ar1BDec s =
    .next (((ar2BatchDec (s.len / 2) 0 (s.setSeed Config.ar2.ar1Seed)).setSeed s.seed).endWith .ok) :=
  if_neg (by omega)

theorem exec_ar1BEnc_even {s : State} (h : s.len % 2 = 0) : exec .ar1BEnc s =
    .next (((ar2BatchEnc (s.len / 2) 0 (s.setSeed Config.ar2.ar1Seed)).setSeed s.seed).endWith .ok) :=
  if_neg (by omega)

/-- Settles O36: the end with `OK` writes `STATUS` alone, so putting the seed back commutes with it. -/
theorem ar1IsAr2UnderFixedSeed : Obligations.Ar1IsAr2UnderFixedSeed := by
  refine fun s => ⟨fun hodd => ⟨exec_of_structuralCause rfl hodd nofun, exec_of_structuralCause rfl hodd nofun⟩,
    fun heven => ⟨_, _, exec_ar2BDec_even heven, exec_ar1BDec_even heven, exec_ar2BEnc_even heven, exec_ar1BEnc_even heven⟩⟩

end Sys2Proof.Machine
end

section
/-! PROOF. The ARMAX block cipher (R116 to R124). The halves before each pass of R121's loop are the rounds over the pairs
read so far, so the pseudocode returns what the kernel returns; and the kernel under the reversed pairs undoes its three
parts, the network, the rounds and the other network, in turn. -/

namespace Sys2Proof.Machine

/-! ## The pseudocode's straight lines (R120, R121) -/

theorem pseudoSwap_eq_bswap32 (x : Word) : pseudoSwap x = bswap32 x := rfl

/-- The shifts and masks of R121 pick the same six bits of each table index. -/
theorem pseudoF_eq_roundF (sp : Fin 8 → BitVec 6 → Word) (x s0 s1 : Word) : pseudoF sp x s0 s1 = roundF sp x s0 s1 := by
  have six_low (y : Word) : (y &&& 63#32).setWidth 6 = y.extractLsb' 0 6 := by
    rw [← sixBits_eq_extract, BitVec.ushiftRight_zero]
  simp only [pseudoF, roundF, sixBits_eq_extract, rotr32_eq_rotateRight x 4 (by omega)]
  simp only [six_low]

theorem pseudoScramble_eq_scramble (w : Pair) : pseudoScramble w = scramble (bswap32 w.1) (bswap32 w.2) := by
  simp only [pseudoScramble, scramble, maskedSwap, pseudoSwap_eq_bswap32, rotl32_eq_rotateLeft, rotr32_eq_rotateRight,
    Nat.reduceLT, BitVec.ofNat_eq_ofNat]

theorem pseudoUnscramble_eq_unscramble (a v : Word) :
    pseudoUnscramble a v = (bswap32 (unscramble a v).2, bswap32 (unscramble a v).1) := by
  simp only [pseudoUnscramble, unscramble, maskedSwap, pseudoSwap_eq_bswap32, rotl32_eq_rotateLeft, rotr32_eq_rotateRight,
    Nat.reduceLT, BitVec.ofNat_eq_ofNat]

/-! ## The loop (R121) -/

/-- The halves before pass `i` of R121's loop: each pass is two rounds. -/
def halvesBefore (sp : Fin 8 → BitVec 6 → Word) (S : Vector Word 32) (av : Word × Word) (i : Nat) : Word × Word :=
  rounds sp ((schedulePairs S).take (2 * i)) av

/-- After the last pass every round is done. -/
theorem halvesBefore_eight (sp : Fin 8 → BitVec 6 → Word) (S : Vector Word 32) (av : Word × Word) :
    halvesBefore sp S av 8 = rounds sp (schedulePairs S) av := by
  rw [halvesBefore, List.take_of_length_le (schedulePairs_length S).le]

/-- Pass `i` reads two more pairs of the schedule. -/
theorem schedulePairs_take_succ (S : Vector Word 32) (i : Fin 8) : (schedulePairs S).take (2 * (i.val + 1)) =
    (schedulePairs S).take (2 * i.val) ++ [(S[4 * i.val], S[4 * i.val + 1]), (S[4 * i.val + 2], S[4 * i.val + 3])] := by
  have hlen := schedulePairs_length S
  rw [Nat.mul_succ, ← List.take_append_getElem (by omega), ← List.take_append_getElem (by omega), List.append_assoc]
  simp [schedulePairs, Nat.mul_add, ← Nat.mul_assoc]

/-- One pass of the loop: `a` takes `F` of `v`, then `v` takes `F` of the new `a`. -/
theorem halvesBefore_succ (sp : Fin 8 → BitVec 6 → Word) (S : Vector Word 32) (av : Word × Word) (i : Fin 8) :
    (halvesBefore sp S av (i.val + 1)).1 = (halvesBefore sp S av i.val).1 ^^^
      pseudoF sp (halvesBefore sp S av i.val).2 S[4 * i.val] S[4 * i.val + 1] ∧
    (halvesBefore sp S av (i.val + 1)).2 = (halvesBefore sp S av i.val).2 ^^^
      pseudoF sp (halvesBefore sp S av (i.val + 1)).1 S[4 * i.val + 2] S[4 * i.val + 3] := by
  have hlen : ((schedulePairs S).take (2 * i.val)).length = 2 * i.val := by
    rw [List.length_take, schedulePairs_length]; omega
  have hpass : halvesBefore sp S av (i.val + 1) = rounds sp
      [(S[4 * i.val], S[4 * i.val + 1]), (S[4 * i.val + 2], S[4 * i.val + 3])] (halvesBefore sp S av i.val) := by
    rw [halvesBefore, schedulePairs_take_succ, rounds_append sp i.val _ _ _ hlen, halvesBefore]
  rw [hpass]
  simp only [pseudoF_eq_roundF]
  exact ⟨rfl, rfl⟩

/-- The loop is deterministic: whatever halves its passes give are those of the rounds. -/
theorem halvesBefore_eq_of_passes {sp : Fin 8 → BitVec 6 → Word} {S : Vector Word 32} {av : Word × Word} {a v : Nat → Word}
    (hstart : (a 0, v 0) = av)
    (hpass : ∀ i : Fin 8,
      a (i.val + 1) = a i.val ^^^ pseudoF sp (v i.val) S[4 * i.val] S[4 * i.val + 1] ∧
      v (i.val + 1) = v i.val ^^^ pseudoF sp (a (i.val + 1)) S[4 * i.val + 2] S[4 * i.val + 3]) :
    ∀ i ≤ 8, halvesBefore sp S av i = (a i, v i) := by
  intro i
  induction i with
  | zero => exact fun _ => hstart.symm
  | succ i ih =>
    intro hi
    obtain ⟨ha, hv⟩ := hpass ⟨i, hi⟩
    obtain ⟨hfst, hsnd⟩ := halvesBefore_succ sp S av ⟨i, hi⟩
    rw [ih (by omega)] at hfst hsnd
    have hleft := hfst.trans ha.symm
    rw [hleft] at hsnd
    exact Prod.ext hleft (hsnd.trans hv.symm)

theorem kernelReturns_iff (sp : Fin 8 → BitVec 6 → Word) (S : Vector Word 32) (w r : Pair) : KernelReturns sp S w r ↔
    r = pseudoUnscramble (halvesBefore sp S (pseudoScramble w) 8).1 (halvesBefore sp S (pseudoScramble w) 8).2 := by
  constructor
  · rintro ⟨a, v, hstart, hpass, rfl⟩
    rw [halvesBefore_eq_of_passes hstart hpass 8 le_rfl]
  · rintro rfl
    exact ⟨fun i => (halvesBefore sp S (pseudoScramble w) i).1, fun i => (halvesBefore sp S (pseudoScramble w) i).2, rfl,
      halvesBefore_succ sp S (pseudoScramble w), rfl⟩

theorem kernel_eq_iff_kernelReturns (sp : Fin 8 → BitVec 6 → Word) (S : Vector Word 32) (w r : Pair) :
    kernel sp S w = r ↔ KernelReturns sp S w r := by
  rw [kernelReturns_iff, halvesBefore_eight, pseudoUnscramble_eq_unscramble, pseudoScramble_eq_scramble, eq_comm]
  rfl

/-! ## The schedules (R116 to R119) -/

theorem keyFlag_iff (P : AxParams) (k : Fin 56) : keyFlag P k = true ↔
    P.key ⟨(P.pc1 k).val / 8, by omega⟩ &&& P.bit8 ⟨(P.pc1 k).val % 8, by omega⟩ ≠ 0 := by
  simp [keyFlag]

/-- The index of step 2 is a rotation within the half of `j` (R117). -/
theorem rotatedIndex_eq (rot : Fin 28) (j : Fin 56) :
    rotatedIndex (rot.val + 1) j.val = 28 * (j.val / 28) + (rot.val + 1 + j.val) % 28 := by
  simp only [rotatedIndex]
  split <;> split <;> omega

theorem schedEncrypt_builds (P : AxParams) (i : Fin 16) : ScheduleBuilds P (schedEncrypt P) i :=
  ⟨keyFlag P, rotatedFlag P i, packedByte P i, keyFlag_iff P,
    fun j => congrArg (keyFlag P) (Fin.ext (rotatedIndex_eq (P.rot i) j)), packedByte_getLsbD P i, schedEncrypt_pair P i⟩

/-- The shift by two in R117 leaves nothing in the top two bits of a schedule byte. -/
theorem packedByte_top_clear (P : AxParams) (i : Fin 16) (k : Fin 8) : packedByte P i k &&& 0xC0#8 = 0 := by
  have hlow : ∀ b, (packedByte P i k).getLsbD b = true → b < 6 := by
    intro b hb
    obtain ⟨m, -, hm⟩ := (packedByte_getLsbD P i k b).mp hb
    have := BitVec.lt_of_getLsbD hm
    omega
  have hmask : ∀ b < 6, (0xC0#8).getLsbD b = false := by decide
  apply BitVec.eq_of_getLsbD_eq
  intro b _
  rw [BitVec.getLsbD_and, BitVec.ofNat_eq_ofNat, BitVec.getLsbD_zero]
  cases hb : (packedByte P i k).getLsbD b with
  | false => rfl
  | true => exact hmask b (hlow b hb)

theorem word_top_clear {b3 b2 b1 b0 : Byte} (h3 : b3 &&& 0xC0#8 = 0) (h2 : b2 &&& 0xC0#8 = 0) (h1 : b1 &&& 0xC0#8 = 0)
    (h0 : b0 &&& 0xC0#8 = 0) : (b3 ++ b2 ++ b1 ++ b0 : Word) &&& 0xC0C0C0C0 = 0 := by
  have hmask : (0xC0C0C0C0 : Word) = 0xC0#8 ++ 0xC0#8 ++ 0xC0#8 ++ 0xC0#8 := rfl
  rw [hmask, BitVec.and_append, BitVec.and_append, BitVec.and_append, h3, h2, h1, h0]
  rfl

theorem schedEncrypt_top_clear (P : AxParams) (i : Fin 16) :
    (schedEncrypt P)[2 * i.val] &&& 0xC0C0C0C0 = 0 ∧ (schedEncrypt P)[2 * i.val + 1] &&& 0xC0C0C0C0 = 0 := by
  obtain ⟨hfirst, hsecond⟩ := schedEncrypt_pair P i
  have clear := packedByte_top_clear P i
  rw [hfirst, hsecond]
  exact ⟨word_top_clear (clear 0) (clear 2) (clear 4) (clear 6), word_top_clear (clear 1) (clear 3) (clear 5) (clear 7)⟩

/-- The pairs in the reverse order, each pair as it was (R119). -/
theorem reversePairs_pair (S : Vector Word 32) (i : Fin 16) :
    (reversePairs S)[2 * i.val] = S[2 * (15 - i.val)] ∧ (reversePairs S)[2 * i.val + 1] = S[2 * (15 - i.val) + 1] := by
  have hdiv : (2 * i.val + 1) / 2 = i.val := by omega
  simp [reversePairs, hdiv]

/-! ## The two commands (R122, R123) -/

theorem exec_axDecB (s : State) : exec .axDecB s = .next { s with
    res := { s.res with r0 := (kernel Config.ax.sp s.schedD (s.op.r0, s.op.r1)).1
                        r1 := (kernel Config.ax.sp s.schedD (s.op.r0, s.op.r1)).2 }
    status := okStatus s.status } :=
  congrArg _ (State.endWith_ok _)

theorem exec_axEncB (s : State) : exec .axEncB s = .next { s with
    res := { s.res with r0 := (kernel Config.ax.sp s.schedE (s.op.r0, s.op.r1)).1
                        r1 := (kernel Config.ax.sp s.schedE (s.op.r0, s.op.r1)).2 }
    status := okStatus s.status } :=
  congrArg _ (State.endWith_ok _)

/-- Settles O38. -/
theorem singleBlockCommands : Obligations.SingleBlockCommands := by
  refine ⟨fun s => ⟨exec_axDecB s, exec_axEncB s⟩, kernel_eq_iff_kernelReturns, fun P i => ?_⟩
  obtain ⟨hfirst, hsecond⟩ := schedEncrypt_top_clear P i
  exact ⟨schedEncrypt_builds P i, hfirst, hsecond, reversePairs_pair (schedEncrypt P) i⟩

/-! ## The inverse law (R124) -/

/-- The entry undoes the exit of the first run, the rounds undo the rounds, and the exit undoes the first entry. -/
theorem kernel_reversePairs (sp : Fin 8 → BitVec 6 → Word) (S : Vector Word 32) (w : Pair) :
    kernel sp (reversePairs S) (kernel sp S w) = w := by
  have hrounds := rounds_reverse sp 8 (schedulePairs S) (scramble (bswap32 w.1) (bswap32 w.2)).1
    (scramble (bswap32 w.1) (bswap32 w.2)).2 (schedulePairs_length S)
  simp only [kernel, bswap32_bswap32, scramble_unscramble, schedulePairs_reversePairs, hrounds, unscramble_scramble]

/-- The schedules of the key are each the other with its pairs reversed. -/
theorem State.DerivedState.kernel_inverse {s : State} (hs : s.DerivedState) (w : Pair) :
    kernel Config.ax.sp s.schedD (kernel Config.ax.sp s.schedE w) = w ∧
    kernel Config.ax.sp s.schedE (kernel Config.ax.sp s.schedD w) = w := by
  obtain ⟨hE, hD, -⟩ := hs
  have hDE : s.schedD = reversePairs s.schedE := by rw [hE, hD, schedDecrypt]
  have hED : s.schedE = reversePairs s.schedD := by rw [hDE, reversePairs_reversePairs]
  constructor
  · rw [hDE, kernel_reversePairs]
  · rw [hED, kernel_reversePairs]

/-- Settles O39: neither command writes a schedule, so the second runs under the other schedule of the same key. -/
theorem kernelInverseLaw : Obligations.KernelInverseLaw := by
  refine ⟨kernel_reversePairs, fun s t u hs ht hu => ?_, fun s t u hs ht hu => ?_⟩
  · obtain rfl := Host.Outcome.next.inj ((exec_axEncB s).symm.trans ht)
    obtain rfl := Host.Outcome.next.inj ((exec_axDecB _).symm.trans hu)
    exact Prod.ext_iff.mp (hs.kernel_inverse (s.op.r0, s.op.r1)).1
  · obtain rfl := Host.Outcome.next.inj ((exec_axDecB s).symm.trans ht)
    obtain rfl := Host.Outcome.next.inj ((exec_axEncB _).symm.trans hu)
    exact Prod.ext_iff.mp (hs.kernel_inverse (s.op.r0, s.op.r1)).2

end Sys2Proof.Machine
end

section
/-! PROOF. The CRC, the nibble slot and the block batches (R131 to R137). The register of R131's pseudocode is determined at
every word boundary by the words before it; a block batch is an equation between lists of words, and deciphering under the other
schedule of the key takes an enciphered list back to its plaintext. -/

namespace Sys2Proof.Machine

/-! ## The CRC (R131) -/

/-- The register passes over byte `b` of word `i` by one step of the CRC, for every byte of `ws` (R131). -/
def CrcSteps (P : AxParams) (ws : List Word) (c : Nat → Half) : Prop :=
  ∀ (i : Fin ws.length) (b : Fin 4), c (4 * i.val + b.val + 1) = crcByte P (c (4 * i.val + b.val)) (byteOf ws[i] b.val)

/-- The pseudocode names the byte XORed into the register `x`; with `x` written out, its step is the model's. -/
theorem crcReturns_iff_steps (P : AxParams) (ws : List Word) (r : Half) :
    CrcReturns P ws r ↔ ∃ c : Nat → Half, c 0 = 0 ∧ CrcSteps P ws c ∧ r = c (4 * ws.length) := by
  simp only [CrcReturns, CrcSteps, exists_eq_left, crcByte_eq P _ _ _ _ rfl]

/-- The register before byte `k` of the words, each word's bytes least significant first. -/
def crcRegister (P : AxParams) (ws : List Word) : Nat → Half
  | 0 => 0
  | k + 1 => crcByte P (crcRegister P ws k) (byteOf (ws.getD (k / 4) 0) (k % 4))

theorem crcRegister_steps (P : AxParams) (ws : List Word) : CrcSteps P ws (crcRegister P ws) := by
  intro i b
  have hword : (4 * i.val + b.val) / 4 = i.val := by omega
  have hbyte : (4 * i.val + b.val) % 4 = b.val := by omega
  rw [crcRegister, hword, hbyte, List.getD_eq_getElem _ _ i.isLt]
  rfl

/-- At a word boundary the register is the CRC of the words before it. -/
theorem CrcSteps.eq_crc16_take {P : AxParams} {ws : List Word} {c : Nat → Half} (hc : CrcSteps P ws c) (h0 : c 0 = 0)
    {i : Nat} (hi : i ≤ ws.length) : c (4 * i) = crc16 P (ws.take i) := by
  induction i with
  | zero => exact h0
  | succ i ih =>
    have hstep (b : Nat) (hb : b < 4) : c (4 * i + b + 1) = crcByte P (c (4 * i + b)) (byteOf ws[i] b) :=
      hc ⟨i, hi⟩ ⟨b, hb⟩
    calc c (4 * i + 3 + 1)
        = crcWord P (c (4 * i)) ws[i] := by
          rw [hstep 3 (by omega), hstep 2 (by omega), hstep 1 (by omega), hstep 0 (by omega)]; rfl
      _ = crc16 P (ws.take i ++ [ws[i]]) := by rw [ih (by omega), crc16_append]; rfl
      _ = crc16 P (ws.take (i + 1)) := by rw [List.take_concat_get']

theorem crc16_eq_iff_crcReturns (P : AxParams) (ws : List Word) (r : Half) : crc16 P ws = r ↔ CrcReturns P ws r := by
  have hend {c : Nat → Half} (h0 : c 0 = 0) (hc : CrcSteps P ws c) : c (4 * ws.length) = crc16 P ws := by
    rw [hc.eq_crc16_take h0 (Nat.le_refl _), List.take_length]
  rw [crcReturns_iff_steps]
  constructor
  · rintro rfl
    exact ⟨crcRegister P ws, rfl, crcRegister_steps P ws, (hend rfl (crcRegister_steps P ws)).symm⟩
  · rintro ⟨c, h0, hc, rfl⟩
    exact (hend h0 hc).symm

/-- The candidate tables hold the bitwise CRCs of a low and of a high nibble (R131). -/
theorem candidateCrc_bitwise (key : Fin 8 → Byte) : ∀ x : BitVec 4,
    (candidateAx key).crcT1 x = bitwiseCrc (x.setWidth 16) ∧
    (candidateAx key).crcT0 x = bitwiseCrc (x.setWidth 16 <<< 4) := by
  show ∀ x : BitVec 4, candidateCrcT1.getD x.toNat 0 = bitwiseCrc (x.setWidth 16) ∧
    candidateCrcT0.getD x.toNat 0 = bitwiseCrc (x.setWidth 16 <<< 4)
  decide

/-! ## The fold and the slot (R132, R133) -/

/-- The mask of R132 keeps of the four shifted copies the low nibble of each, which are the four nibbles of the register. -/
theorem foldNibble_eq_shifts (c : Half) :
    (foldNibble c).setWidth 16 = ((c >>> 12) ^^^ (c >>> 8) ^^^ (c >>> 4) ^^^ c) &&& 0xF#16 := by
  apply BitVec.eq_of_getLsbD_eq
  intro i hi
  have hmask : (0xF#16).getLsbD i = decide (i < 4) := by
    revert i
    decide
  simp only [foldNibble, BitVec.getLsbD_setWidth, BitVec.getLsbD_and, BitVec.getLsbD_xor, BitVec.getLsbD_extractLsb',
    BitVec.getLsbD_ushiftRight, hmask]
  by_cases h4 : i < 4
  · simp [hi, h4]
  · simp [h4]

/-- The slot is written by masking it out and putting the nibble in (R133). -/
theorem withNibble_eq_mask (n : BitVec 4) (w : Word) : withNibble w n = (w &&& 0x0FFFFFFF#32) ||| (n.setWidth 32 <<< 28) := by
  apply BitVec.eq_of_getLsbD_eq
  intro i hi
  have hmask : (0x0FFFFFFF#32).getLsbD i = decide (i < 28) := by
    revert i
    decide
  simp only [withNibble, BitVec.getLsbD_append, BitVec.getLsbD_or, BitVec.getLsbD_and, BitVec.getLsbD_shiftLeft,
    BitVec.getLsbD_setWidth, BitVec.getLsbD_extractLsb', hmask]
  by_cases h28 : i < 28
  · simp [h28]
  · have hrest : i - 28 < 32 := by omega
    simp [hi, h28, hrest]

/-! ## `AX_CRC` (R134) -/

theorem exec_axCrc {s : State} (h : s.len ≠ 0) {crc : Half} (hcrc : crc = crc16 Config.ax (setFirstNibble 0 s.buffer)) :
    exec .axCrc s = .next { s with
      res := { s.res with r0 := (foldNibble crc).setWidth 32, r1 := crc.setWidth 32
                          r2 := (nibbleSlot (s.memRead 0)).setWidth 32 }
      status := okStatus s.status } := by
  have hslot : slotFreeCrc Config.ax s.mem s.len = crc := (slotFreeCrc_eq s.mem s.len).trans hcrc.symm
  refine (if_neg (by omega)).trans ?_
  rw [crcNibble, hslot, State.finish_eq, State.endWith_ok]
  rfl

/-- Settles O40. -/
theorem crcCommandResults : Obligations.CrcCommandResults :=
  ⟨fun _ => ⟨fun hempty => exec_of_structuralCause (i := .axCrc) rfl hempty nofun, fun hlen _ hcrc => exec_axCrc hlen hcrc⟩,
    crc16_eq_iff_crcReturns, foldNibble_eq_shifts, fun n w ws => congrArg (· :: ws) (withNibble_eq_mask n w),
    candidateCrc_bitwise⟩

/-! ## Enciphered lists (R133, R135 to R137) -/

theorem cipherWords_cipherWords {S T : Vector Word 32}
    (hinverse : ∀ w, kernel Config.ax.sp T (kernel Config.ax.sp S w) = w) {ws : List Word} (heven : ws.length % 2 = 0) :
    cipherWords T (cipherWords S ws) = ws := by
  have hcomp : kernel Config.ax.sp T ∘ kernel Config.ax.sp S = id := funext hinverse
  rw [cipherWords, cipherWords, pairsOf_wordsOf, List.map_map, hcomp, List.map_id, wordsOf_pairsOf ws heven]

theorem setFirstNibble_withCrcNibble (n : BitVec 4) (ws : List Word) :
    setFirstNibble n (withCrcNibble ws) = setFirstNibble n ws := setFirstNibble_setFirstNibble ..

theorem withCrcNibble_length (ws : List Word) : (withCrcNibble ws).length = ws.length := setFirstNibble_length ..

theorem nibbleSlot_head_setFirstNibble (n : BitVec 4) {ws : List Word} (h : ws ≠ []) :
    nibbleSlot ((setFirstNibble n ws).headD 0) = n := by
  cases ws with
  | nil => exact absurd rfl h
  | cons w ws => exact nibbleSlot_withNibble w n

/-- A buffer enciphered by the block deciphers to its plaintext with the slot cleared, and its nibble matches (R137). -/
theorem State.DerivedState.deciphers {s : State} (hs : s.DerivedState) {ws : List Word} (heven : ws.length % 2 = 0)
    (hne : ws ≠ []) (hbuffer : s.buffer = cipherWords s.schedE (withCrcNibble ws)) :
    decipheredBuffer s = setFirstNibble 0 ws ∧ ¬ CrcMismatch s := by
  have hplain : cipherWords s.schedD s.buffer = withCrcNibble ws := by
    rw [hbuffer, cipherWords_cipherWords (fun w => (hs.kernel_inverse w).1) (by rwa [withCrcNibble_length])]
  have hcleared : decipheredBuffer s = setFirstNibble 0 ws := by
    rw [decipheredBuffer, hplain, setFirstNibble_withCrcNibble]
  refine ⟨hcleared, not_not.mpr ?_⟩
  rw [hcleared, hplain]
  exact (nibbleSlot_head_setFirstNibble _ hne).symm

/-! ## `AX_BENC` and `AX_BDEC` (R135 to R137) -/

theorem not_badAxLength {len : Nat} (heven : len % 2 = 0) (htwo : 2 ≤ len) : ¬ badAxLength len = true := by
  rw [badAxLength_iff]
  omega

theorem exec_axBEnc_even {s : State} (heven : s.len % 2 = 0) (htwo : 2 ≤ s.len) :
    ∃ m, exec .axBEnc s = .next { s with mem := m, status := okStatus s.status } ∧
      m.words 0 s.len = cipherWords s.schedE (withCrcNibble s.buffer) ∧ s.mem.Touches m 0 s.len := by
  obtain ⟨hwords, hframe⟩ := axBlockEnc_spec s.schedE s.mem s.len heven htwo
  refine ⟨_, (if_neg (not_badAxLength heven htwo)).trans ?_, hwords, hframe⟩
  rw [State.finish_eq, State.endWith_ok]

/-- Settles O41. -/
theorem blockBatchEncrypts : Obligations.BlockBatchEncrypts := by
  intro s
  refine ⟨fun hbad => exec_of_structuralCause (i := .axBEnc) rfl hbad nofun, fun heven htwo => ?_⟩
  obtain ⟨m, hexec, hwords, hframe⟩ := exec_axBEnc_even heven htwo
  exact ⟨_, hexec, rfl, hwords, hframe.byte⟩

/-- A nibble that does not match ends `AX_BDEC` and `AX_LDEC` with the buffer deciphered and nothing else done (R194, R197). -/
theorem exec_of_crcMismatch {i : Instr} (hi : i = .axBDec ∨ i = .axLDec) {s : State} (hs : ¬ structuralCause i s)
    (hcrc : CrcMismatch s) : ∃ t, exec i s = .next t ∧ t = { s with mem := t.mem, status := errStatus 3 } ∧
      t.buffer = decipheredBuffer s ∧ SameBytesOutside s t 0 s.len := by
  obtain ⟨u, hexec, hleaves⟩ := exec_reports i s
  rw [endCode_eq_crc_iff_cause.mpr ⟨hi, hs, hcrc⟩] at hexec hleaves
  exact ⟨_, hexec, hleaves⟩

/-- The storage after a block decryption whose nibble matches (R135). -/
theorem axBlockDec_of_match {s : State} (hcrc : ¬ CrcMismatch s) (heven : s.len % 2 = 0) (htwo : 2 ≤ s.len) :
    ∃ m, axBlockDec Config.ax s.schedD s.mem s.len = (m, true) ∧ m.words 0 s.len = decipheredBuffer s ∧
      s.mem.Touches m 0 s.len := by
  obtain ⟨m, ok, hdec⟩ : ∃ m ok, axBlockDec Config.ax s.schedD s.mem s.len = (m, ok) := ⟨_, _, rfl⟩
  obtain ⟨hwords, hok, hframe⟩ := axBlockDec_buffer (not_badAxLength heven htwo) hdec
  obtain rfl : ok = true := hok.mpr hcrc
  exact ⟨m, hdec, hwords, hframe⟩

theorem exec_axBDec_of_match {s : State} (hcrc : ¬ CrcMismatch s) (heven : s.len % 2 = 0) (htwo : 2 ≤ s.len) :
    ∃ m, exec .axBDec s = .next { s with mem := m, status := okStatus s.status } ∧
      m.words 0 s.len = decipheredBuffer s ∧ s.mem.Touches m 0 s.len := by
  obtain ⟨m, hdec, hwords, hframe⟩ := axBlockDec_of_match hcrc heven htwo
  refine ⟨m, (if_neg (not_badAxLength heven htwo)).trans ?_, hwords, hframe⟩
  rw [hdec]
  exact congrArg _ (State.endWith_ok _)

/-- Settles O42. -/
theorem blockBatchDecrypts : Obligations.BlockBatchDecrypts := by
  intro s
  refine ⟨fun hbad => exec_of_structuralCause (i := .axBDec) rfl hbad nofun, fun heven htwo => ?_⟩
  by_cases hcrc : CrcMismatch s
  · obtain ⟨t, hexec, ht, hbuffer, hframe⟩ :=
      exec_of_crcMismatch (.inl rfl) (not_badAxLength heven htwo ∘ badAxLength_iff.mpr) hcrc
    refine ⟨t, hexec, ?_⟩
    rintro _ _ rfl rfl
    exact ⟨(if_neg hcrc).symm ▸ ht, hbuffer, hframe⟩
  · obtain ⟨m, hexec, hwords, hframe⟩ := exec_axBDec_of_match hcrc heven htwo
    refine ⟨_, hexec, ?_⟩
    rintro _ _ rfl rfl
    exact ⟨(if_pos (not_not.mp hcrc)).symm ▸ rfl, hwords, hframe.byte⟩

/-- Settles O43. -/
theorem blockBatchRoundTrip : Obligations.BlockBatchRoundTrip := by
  intro s hs heven htwo
  obtain ⟨m, henc, hwords, hframe⟩ := exec_axBEnc_even heven htwo
  have hlength : s.buffer.length = s.len := Memory.words_length ..
  have hderived : State.DerivedState { s with mem := m, status := okStatus s.status } := hs
  obtain ⟨hplain, hcrc⟩ := hderived.deciphers (by omega) (List.ne_nil_of_length_pos (by omega)) hwords
  obtain ⟨m', hdec, hwords', hframe'⟩ := exec_axBDec_of_match hcrc heven htwo
  refine ⟨_, _, henc, hdec, ?_, hwords'.trans hplain, (hframe.trans hframe').byte⟩
  rw [okStatus_okStatus]

end Sys2Proof.Machine
end

section
/-! PROOF. The ARMAX list codec (R138 to R142): the payload is two layers of a stream of pairs, the AR2 cipher and the byte swap,
behind the words of the verifier, which no layer but the block cipher changes. -/

namespace Sys2Proof.Machine

/-! ## The verifier's words (R141, R149) -/

/-- Settles O46. -/
theorem payloadStartsInBuffer : Obligations.PayloadStartsInBuffer := by
  intro m len lines c cur hread
  obtain ⟨hroom, hc, hlines, -⟩ := readVerifier_some hread
  obtain ⟨hholds, hleast⟩ := verifierLines_bounds c hc
  rw [← hlines] at hholds hleast
  exact ⟨hroom, hholds, hleast, fun heven => readVerifier_payload_le heven hread⟩

/-- The verifier lines are at least one, so they hold the nibble slot, and one line fits the buffer. -/
theorem readVerifier_some_pos {m : Memory} {len lines c : Nat} {cur : Cursor}
    (hread : readVerifier m len = (some (lines, c), cur)) : 1 ≤ lines ∧ 2 ≤ len := by
  obtain ⟨hroom, hholds, -, -⟩ := payloadStartsInBuffer m len lines c cur hread
  omega

theorem Memory.readWord_eq_of_words {m m' : Memory} {n : Nat} (h : m'.words 0 n = m.words 0 n) {i : Nat} (hi : i < n) :
    m'.readWord i = m.readWord i := by
  have hword (x : Memory) : (x.words 0 n)[i]? = some (x.readWord i) := by
    rw [List.getElem?_eq_getElem (by simpa using hi), Memory.words_getElem, Nat.zero_add]
  exact Option.some.inj ((hword m').symm.trans ((congrArg (·[i]?) h).trans (hword m)))

/-- The reader answers alike from two storages that hold the same buffer. -/
theorem readVerifier_eq_of_words {m m' : Memory} {len : Nat} (h : m'.words 0 len = m.words 0 len) :
    readVerifier m' len = readVerifier m len :=
  readVerifier_congr fun _ hi => Memory.readWord_eq_of_words h hi

/-- A successful read depends on no word after the verifier lines it found (R141). -/
theorem readVerifier_eq_of_lines {m m' : Memory} {len lines c : Nat} {cur : Cursor}
    (hread : readVerifier m len = (some (lines, c), cur)) (h : m'.words 0 (2 * lines) = m.words 0 (2 * lines)) :
    readVerifier m' len = (some (lines, c), cur) := by
  obtain ⟨-, hholds, -, -⟩ := payloadStartsInBuffer m len lines c cur hread
  rcases readVerifier_spec m len with ⟨sels, hparses, hend, hanswer⟩ | ⟨-, hanswer⟩
  · rw [hanswer] at hread
    simp only [Prod.mk.injEq, Option.some.injEq] at hread
    obtain ⟨⟨rfl, rfl⟩, rfl⟩ := hread
    refine readVerifier_of_parses (hparses.congr fun j hj => ?_) hend
    rw [streamBit, streamBit, Memory.readWord_eq_of_words h (by omega)]
  · rw [hanswer] at hread
    cases hread

/-- The words before an index from which a part of a command writes are what they were. -/
theorem Memory.Touches.words_from {m m' : Memory} {p hi : Nat} (h : m.Touches m' p hi) (n : Nat) :
    m'.words 0 (p + n) = m.words 0 p ++ m'.words p n := by
  rw [Memory.words_append, h.words (.inl (Nat.zero_add p).le), Nat.zero_add]

/-! ## `AX_LENC` (R140) -/

theorem exec_axLEnc_overrun {s : State} (heven : s.len % 2 = 0) (htwo : 2 ≤ s.len) {cur : Cursor}
    (hread : readVerifier s.mem s.len = (none, cur)) :
    exec .axLEnc s = .next { s with cur := cur, status := errStatus 4 } := by
  refine (if_neg (not_badAxLength heven htwo)).trans ?_
  rw [hread]
  exact congrArg _ (State.endWith_verifier _)

/-- The words a list encryption hands to the block cipher: the verifier lines, and the payload's encrypted stream `e` with its
words byte-swapped (R139, R140). -/
def listPlaintext (ws : List Word) (lines : Nat) (e : List Pair) : List Word :=
  ws.take (2 * lines) ++ (wordsOf e).map bswap32

/-- Everything the two layers of the payload do on the way to the block cipher (R102, R139). -/
theorem swapPayload_ar2BatchEnc_spec {s : State} (heven : s.len % 2 = 0) {lines : Nat} (hp : 2 * lines ≤ s.len)
    {e : List Pair × Word × Nat} (he : ar2EncStream (pairsOf (s.buffer.drop (2 * lines))) s.seed s.draws = e) :
    ∃ m, (ar2BatchEnc ((s.len - 2 * lines) / 2) (2 * lines) s).swapPayload (2 * lines) =
        { s with mem := m, seed := e.2.1, draws := e.2.2 } ∧
      m.words 0 s.len = listPlaintext s.buffer lines e.1 ∧ s.mem.Touches m (2 * lines) s.len := by
  have hhalf : 2 * ((s.len - 2 * lines) / 2) = s.len - 2 * lines := by omega
  have hlength : 2 * lines + (s.len - 2 * lines) = s.len := by omega
  rw [State.buffer, Memory.words_drop _ _ _ hp, pairsOf_words] at he
  obtain ⟨m1, hbatch, ht1, hpairs⟩ := ar2BatchEnc_spec ((s.len - 2 * lines) / 2) (2 * lines) s e he
  rw [hhalf, hlength] at ht1
  obtain ⟨m2, hswap, ht2, hswapped⟩ :=
    swapPayload_spec { s with mem := m1, seed := e.2.1, draws := e.2.2 } (2 * lines) hp
  have hframe : s.mem.Touches m2 (2 * lines) s.len := ht1.trans ht2
  have hencrypted : m1.words (2 * lines) (s.len - 2 * lines) = wordsOf e.1 := by
    rw [← hpairs, ← Memory.words_eq_wordsOf_pairs, hhalf]
  refine ⟨m2, hbatch ▸ hswap, ?_, hframe⟩
  calc m2.words 0 s.len
      = m2.words 0 (2 * lines + (s.len - 2 * lines)) := by rw [hlength]
    _ = s.mem.words 0 (2 * lines) ++ m2.words (2 * lines) (s.len - 2 * lines) := hframe.words_from _
    _ = listPlaintext s.buffer lines e.1 := by
      rw [listPlaintext, State.buffer, Memory.words_take _ _ _ hp, ← hencrypted]
      exact congrArg _ hswapped

/-- `AX_LENC` once the reader has found the verifier: the payload is the encrypted stream of its pairs (R102, R140). -/
theorem axLEnc_isStream {s : State} (heven : s.len % 2 = 0) {lines c : Nat} {cur : Cursor}
    (hread : readVerifier s.mem s.len = (some (lines, c), cur)) {e : List Pair × Word × Nat}
    (he : ar2EncStream (pairsOf (s.buffer.drop (2 * lines))) s.op.r0 s.draws = e) :
    ∃ m, exec .axLEnc s = .next { s with
        mem := m, seed := e.2.1, draws := e.2.2, cur := cur
        res := { s.res with r0 := BitVec.ofNat 32 lines }, status := okStatus s.status } ∧
      m.words 0 s.len = cipherWords s.schedE (withCrcNibble (listPlaintext s.buffer lines e.1)) ∧ s.mem.Touches m 0 s.len := by
  obtain ⟨-, htwo⟩ := readVerifier_some_pos hread
  obtain ⟨m, hpayload, hwords, ht⟩ := swapPayload_ar2BatchEnc_spec (s := (s.setCursor cur).setSeed s.op.r0) heven
    (readVerifier_payload_le heven hread) he
  obtain ⟨hcipher, hframe⟩ := axBlockEnc_spec s.schedE m s.len heven htwo
  rw [show m.words 0 s.len = listPlaintext s.buffer lines e.1 from hwords] at hcipher
  refine ⟨_, (if_neg (not_badAxLength heven htwo)).trans ?_, hcipher, (ht.mono (Nat.zero_le _) (Nat.le_refl _)).trans hframe⟩
  rw [hread]
  simp only [State.setSeed_len, State.setCursor_len] at hpayload
  simp only [hpayload]
  exact congrArg _ (State.endWith_ok _)

/-- Settles O44. -/
theorem listEncrypts : Obligations.ListEncrypts := by
  intro s
  refine ⟨fun hbad => exec_of_structuralCause (i := .axLEnc) rfl hbad nofun, fun heven htwo =>
    ⟨fun _ hread => exec_axLEnc_overrun heven htwo hread, fun lines c cur hread => ?_⟩⟩
  obtain ⟨m, hexec, hwords, hframe⟩ := axLEnc_isStream heven hread rfl
  refine ⟨_, hexec, ?_⟩
  rintro _ rfl
  exact ⟨rfl, hwords, hframe.byte⟩

/-! ## `AX_LDEC` (R138) -/

theorem exec_axLDec_overrun {s : State} (hcrc : ¬ CrcMismatch s) (heven : s.len % 2 = 0) (htwo : 2 ≤ s.len) {m : Memory}
    (hm : m.words 0 s.len = decipheredBuffer s) {cur : Cursor} (hread : readVerifier m s.len = (none, cur)) :
    ∃ m', exec .axLDec s = .next { s with mem := m', cur := cur, status := errStatus 4 } ∧
      m'.words 0 s.len = decipheredBuffer s ∧ s.mem.Touches m' 0 s.len := by
  obtain ⟨m', hdec, hwords, hframe⟩ := axBlockDec_of_match hcrc heven htwo
  refine ⟨m', (if_neg (not_badAxLength heven htwo)).trans ?_, hwords, hframe⟩
  rw [hdec]
  simp only [readVerifier_eq_of_words (hwords.trans hm.symm), hread]
  exact congrArg _ (State.endWith_verifier _)

/-- Everything the two layers of the payload do on the way from the block cipher (R101, R139). -/
theorem ar2BatchDec_swapPayload_spec {s : State} (heven : s.len % 2 = 0) {lines : Nat} (hp : 2 * lines ≤ s.len) (key : Word)
    {d : List Pair × Word × Nat}
    (hd : ar2DecStream (pairsOf ((s.buffer.drop (2 * lines)).map bswap32)) key s.draws = d) :
    ∃ m, ar2BatchDec ((s.len - 2 * lines) / 2) (2 * lines) ((s.swapPayload (2 * lines)).setSeed key) =
        { s with mem := m, len := 2 * lines + 2 * d.1.length, seed := d.2.1, draws := d.2.2 } ∧
      m.words 0 (2 * lines + 2 * d.1.length) = s.buffer.take (2 * lines) ++ wordsOf d.1 ∧
      s.mem.Touches m (2 * lines) s.len := by
  have hlength : 2 * lines + 2 * ((s.len - 2 * lines) / 2) = s.len := by omega
  obtain ⟨m1, hswap, ht1, hswapped⟩ := swapPayload_spec s (2 * lines) hp
  rw [State.buffer, Memory.words_drop _ _ _ hp, ← hswapped, pairsOf_words] at hd
  obtain ⟨m2, hbatch, ht2, hpairs⟩ := ar2BatchDec_spec ((s.len - 2 * lines) / 2) (2 * lines)
    { s with mem := m1, seed := key } hlength d hd
  have hframe : s.mem.Touches m2 (2 * lines) s.len := ht1.trans ht2
  refine ⟨m2, hswap ▸ hbatch, ?_, hframe⟩
  calc m2.words 0 (2 * lines + 2 * d.1.length)
      = s.mem.words 0 (2 * lines) ++ m2.words (2 * lines) (2 * d.1.length) := hframe.words_from _
    _ = s.buffer.take (2 * lines) ++ wordsOf d.1 := by
      rw [State.buffer, Memory.words_take _ _ _ hp, m2.words_eq_wordsOf_pairs, hpairs]

/-- `AX_LDEC` once nibble and verifier are found: the byte-swapped payload is decrypted as a stream of pairs (R101, R138). The
reader sees the deciphered buffer, in whatever storage it stands. -/
theorem axLDec_isStream {s : State} (hcrc : ¬ CrcMismatch s) (heven : s.len % 2 = 0) {m : Memory}
    (hm : m.words 0 s.len = decipheredBuffer s) {lines c : Nat} {cur : Cursor}
    (hread : readVerifier m s.len = (some (lines, c), cur)) {d : List Pair × Word × Nat}
    (hd : ar2DecStream (pairsOf (((decipheredBuffer s).drop (2 * lines)).map bswap32)) s.op.r0 s.draws = d) :
    ∃ t, exec .axLDec s = .next t ∧
      t = { s with mem := t.mem, len := 2 * lines + 2 * d.1.length, seed := d.2.1, draws := d.2.2, cur := cur
                   res := { s.res with r0 := BitVec.ofNat 32 lines }, status := okStatus s.status } ∧
      t.buffer = (decipheredBuffer s).take (2 * lines) ++ wordsOf d.1 ∧ SameBytesOutside s t 0 s.len := by
  obtain ⟨-, htwo⟩ := readVerifier_some_pos hread
  obtain ⟨m1, hdec, hwords, ht1⟩ := axBlockDec_of_match hcrc heven htwo
  rw [← readVerifier_eq_of_words (hwords.trans hm.symm)] at hread
  rw [← hwords] at hd ⊢
  obtain ⟨m2, hpayload, hbuffer, ht2⟩ := ar2BatchDec_swapPayload_spec (s := { s with mem := m1 }.setCursor cur) heven
    (readVerifier_payload_le heven hread) s.op.r0 hd
  have hexec : exec .axLDec s = .next { s with
      mem := m2, len := 2 * lines + 2 * d.1.length, seed := d.2.1, draws := d.2.2, cur := cur
      res := { s.res with r0 := BitVec.ofNat 32 lines }, status := okStatus s.status } := by
    refine (if_neg (not_badAxLength heven htwo)).trans ?_
    rw [hdec]
    simp only [State.setCursor_len] at hpayload
    simp only [hread, hpayload]
    exact congrArg _ (State.endWith_ok _)
  exact ⟨_, hexec, rfl, hbuffer, (ht1.trans (ht2.mono (Nat.zero_le _) (Nat.le_refl _))).byte⟩

/-- Settles O45. -/
theorem listDecrypts : Obligations.ListDecrypts := by
  intro s
  refine ⟨fun hbad => exec_of_structuralCause (i := .axLDec) rfl hbad nofun, fun heven htwo => ?_⟩
  by_cases hcrc : CrcMismatch s
  · obtain ⟨t, hexec, hleaves⟩ :=
      exec_of_crcMismatch (.inr rfl) (not_badAxLength heven htwo ∘ badAxLength_iff.mpr) hcrc
    refine ⟨t, hexec, ?_⟩
    rintro _ _ m rfl rfl -
    exact ⟨fun _ => hleaves, fun hmatch => absurd hmatch hcrc⟩
  · obtain ⟨m, -, hwords, -⟩ := axBlockDec_of_match hcrc heven htwo
    have hsame {m' : Memory} (hm' : m'.words 0 s.len = decipheredBuffer s) : readVerifier m' s.len = readVerifier m s.len :=
      readVerifier_eq_of_words (hm'.trans hwords.symm)
    rcases hread : readVerifier m s.len with ⟨_ | ⟨lines, c⟩, cur⟩
    · obtain ⟨m1, hexec, hbuffer, hframe⟩ := exec_axLDec_overrun hcrc heven htwo hwords hread
      refine ⟨_, hexec, ?_⟩
      rintro _ _ m' rfl rfl hm'
      rw [hsame hm', hread]
      refine ⟨fun h => absurd h hcrc, fun _ => ⟨?_, nofun⟩⟩
      rintro _ ⟨⟩
      exact ⟨rfl, hbuffer, hframe.byte⟩
    · obtain ⟨t, hexec, hleaves⟩ := axLDec_isStream hcrc heven hwords hread rfl
      refine ⟨t, hexec, ?_⟩
      rintro _ _ m' rfl rfl hm'
      rw [hsame hm', hread]
      refine ⟨fun h => absurd h hcrc, fun _ => ⟨nofun, ?_⟩⟩
      rintro _ _ _ ⟨⟩ _ rfl
      exact hleaves

/-! ## The round trip (R142) -/

section
variable {ws : List Word} {lines : Nat}

theorem listPlaintext_take (h : 2 * lines ≤ ws.length) (e : List Pair) :
    (listPlaintext ws lines e).take (2 * lines) = ws.take (2 * lines) :=
  List.take_left' (List.length_take_of_le h)

theorem listPlaintext_drop (h : 2 * lines ≤ ws.length) (e : List Pair) :
    (listPlaintext ws lines e).drop (2 * lines) = (wordsOf e).map bswap32 :=
  List.drop_left' (List.length_take_of_le h)

theorem listPlaintext_length (h : 2 * lines ≤ ws.length) (e : List Pair) :
    (listPlaintext ws lines e).length = 2 * lines + 2 * e.length := by
  rw [listPlaintext, List.length_append, List.length_take_of_le h, List.length_map, wordsOf_length]

/-- The slot lies in the first verifier line, so a clear one stays clear. -/
theorem setFirstNibble_listPlaintext (hne : ws ≠ []) (hlines : 1 ≤ lines) (hslot : nibbleSlot (ws.headD 0) = 0)
    (e : List Pair) : setFirstNibble 0 (listPlaintext ws lines e) = listPlaintext ws lines e := by
  cases ws with
  | nil => exact absurd rfl hne
  | cons w ws =>
    have hclear : withNibble w 0 = w := (congrArg (withNibble w) hslot.symm).trans (withNibble_nibbleSlot w)
    rw [listPlaintext, List.take_cons (by omega)]
    exact congrArg (· :: _) hclear

/-- The two byte swaps cancel, and the pairs are the encrypted stream again (R139). -/
theorem pairsOf_listPlaintext (h : 2 * lines ≤ ws.length) (e : List Pair) :
    pairsOf (((listPlaintext ws lines e).drop (2 * lines)).map bswap32) = e := by
  have hswaps : bswap32 ∘ bswap32 = id := funext bswap32_bswap32
  rw [listPlaintext_drop h, List.map_map, hswaps, List.map_id, pairsOf_wordsOf]

end

theorem buffer_headD {s : State} (h : s.len ≠ 0) : s.buffer.headD 0 = s.memRead 0 := by
  obtain ⟨n, hn⟩ := Nat.exists_eq_succ_of_ne_zero h
  rw [State.buffer, hn]
  rfl

/-- `AX_LENC`, then `AX_LDEC` under the same key: the verifier lines and the payload less its marker pairs (R142). -/
theorem axLDec_after_axLEnc {s : State} (hs : s.DerivedState) (heven : s.len % 2 = 0) (hslot : nibbleSlot (s.memRead 0) = 0)
    {lines c : Nat} {cur : Cursor} (hread : readVerifier s.mem s.len = (some (lines, c), cur)) {payload : List Pair}
    (hpayload : payload = pairsOf (s.buffer.drop (2 * lines))) (hknown : SeedsKnown s.op.r0 payload) :
    ∃ t u, exec .axLEnc s = .next t ∧ exec .axLDec t = .next u ∧ u.status = okStatus s.status ∧
      u.buffer = s.buffer.take (2 * lines) ++ wordsOf (withoutMarkers payload) ∧ u.seed = seedAfter s.op.r0 payload := by
  obtain ⟨hlines, htwo⟩ := readVerifier_some_pos hread
  have hlength : s.buffer.length = s.len := Memory.words_length ..
  have hp : 2 * lines ≤ s.len := readVerifier_payload_le heven hread
  have hpb : 2 * lines ≤ s.buffer.length := hlength ▸ hp
  obtain ⟨e, he⟩ : ∃ e, ar2EncStream payload s.op.r0 s.draws = e := ⟨_, rfl⟩
  obtain ⟨m, henc, hwords, -⟩ := axLEnc_isStream heven hread (hpayload ▸ he)
  have hderived : State.DerivedState { s with
      mem := m, seed := e.2.1, draws := e.2.2, cur := cur
      res := { s.res with r0 := BitVec.ofNat 32 lines }, status := okStatus s.status } := hs
  have hplain := listPlaintext_length hpb e.1
  obtain ⟨hcleared, hcrc⟩ := hderived.deciphers (by omega) (List.ne_nil_of_length_pos (by omega)) hwords
  have hhead : nibbleSlot (s.buffer.headD 0) = 0 := by
    rw [buffer_headD (by omega), hslot]
  rw [setFirstNibble_listPlaintext (List.ne_nil_of_length_pos (by omega)) hlines hhead] at hcleared
  obtain ⟨m', -, hm', -⟩ := axBlockDec_of_match hcrc heven htwo
  have hverifier : m'.words 0 (2 * lines) = s.mem.words 0 (2 * lines) := by
    rw [← Memory.words_take m' _ s.len hp, hm', hcleared, listPlaintext_take hpb, State.buffer, Memory.words_take _ _ _ hp]
  obtain ⟨k, hstream⟩ := ar2DecStream_ar2EncStream payload s.op.r0 hknown s.draws e.2.2
  rw [he, ← pairsOf_listPlaintext hpb e.1, ← hcleared] at hstream
  obtain ⟨u, hdec, hu, hubuffer, -⟩ :=
    axLDec_isStream hcrc heven hm' (readVerifier_eq_of_lines hread hverifier) hstream
  refine ⟨_, u, henc, hdec, (congrArg State.status hu).trans (okStatus_okStatus _), ?_, congrArg State.seed hu⟩
  rw [hubuffer, hcleared, listPlaintext_take hpb]

/-- Settles O47. -/
theorem listRoundTrip : Obligations.ListRoundTrip := by
  intro s lines c payload hs heven hslot hread hpayload hknown
  obtain ⟨cur, hread⟩ : ∃ cur, readVerifier s.mem s.len = (some (lines, c), cur) := ⟨_, Prod.ext hread rfl⟩
  obtain ⟨t, u, henc, hdec, hstatus, hbuffer, hseed⟩ := axLDec_after_axLEnc hs heven hslot hread hpayload hknown
  refine ⟨t, u, henc, hdec, hstatus, hbuffer, hseed, fun hnone => ?_⟩
  have hlength : (s.buffer.drop (2 * lines)).length % 2 = 0 := by
    rw [List.length_drop, State.buffer, Memory.words_length]
    omega
  rw [hbuffer, withoutMarkers_of_no_marker hnone, hpayload, wordsOf_pairsOf _ hlength, List.take_append_drop]

end Sys2Proof.Machine
end

section
/-! PROOF. The bit cursor, the verifier reader and verifier synthesis (44_verifier.md). The storage is read as one stream of
bits: what a read of `n` bits does decides `CUR_READ`, whether the stream parses from bit 40 on decides `AX_RDVER`, and a
made verifier holds the terminator 1 there. -/

namespace Sys2Proof.Machine

/-! ## `CUR_SET` (R147) -/

theorem exec_curSet_inRange {s : State} (hbit : s.op.r1.toNat ≤ 31) (hlimit : s.op.r2.toNat ≤ s.len) :
    exec .curSet s = .next { s with
      cur := ⟨s.op.r0.toNat, s.op.r1.toNat, s.op.r2.toNat⟩, status := okStatus s.status } :=
  (if_neg (by omega)).trans (congrArg _ (State.endWith_ok _))

/-- Settles O48. -/
theorem cursorSetChecks : Obligations.CursorSetChecks :=
  fun _ => ⟨fun hcause => exec_of_structuralCause (i := .curSet) rfl hcause nofun, exec_curSet_inRange⟩

/-! ## `CUR_READ` (R146, R148) -/

theorem exec_curRead_illegal {s : State} {n : Byte} (hn : 32 < n.toNat) :
    exec (.curRead n) s = .next { s with status := errStatus 1 } :=
  (if_pos hn).trans (congrArg _ (State.endWith_illegal _))

theorem exec_curRead_of_read {s : State} {n : Byte} (hn : n.toNat ≤ 32) {v : Word} {cur : Cursor}
    (hread : readBits s.mem n.toNat s.cur = (some v, cur)) :
    exec (.curRead n) s = .next { s with res := { s.res with r0 := v }, cur := cur, status := okStatus s.status } := by
  refine (if_neg (Nat.not_lt.mpr hn)).trans ?_
  rw [hread]
  exact congrArg _ (State.endWith_ok _)

theorem exec_curRead_of_overrun {s : State} {n : Byte} (hn : n.toNat ≤ 32) {cur : Cursor}
    (hread : readBits s.mem n.toNat s.cur = (none, cur)) :
    exec (.curRead n) s = .next { s with cur := cur, status := errStatus 2 } := by
  refine (if_neg (Nat.not_lt.mpr hn)).trans ?_
  rw [hread]
  exact congrArg _ (State.endWith_structural _)

/-- Settles O49: the position `p` of the statement is that of the cursor, and a read has room for its bits or has not. -/
theorem cursorReadTakesStreamBits : Obligations.CursorReadTakesStreamBits := by
  rintro s n _ hbit rfl
  refine ⟨exec_curRead_illegal, fun hn hroom => ?_, fun hone hn hover => ?_⟩
  · obtain ⟨v, hread, hbits⟩ := readBitsFrom_enough s.mem n.toNat 0 s.cur hbit hroom
    refine ⟨_, exec_curRead_of_read hn hread, rfl, fun k hk => ?_, fun k hk => ?_⟩
    · exact (hbits k (by omega)).trans (if_pos hk)
    · by_cases h32 : k < 32
      · exact (hbits k h32).trans ((if_neg (Nat.not_lt.mpr hk)).trans BitVec.getLsbD_zero)
      · exact BitVec.getLsbD_of_ge v k (Nat.not_lt.mp h32)
  · exact exec_curRead_of_overrun hn (readBitsFrom_overrun s.mem n.toNat 0 s.cur hbit hone hover)

/-! ## `AX_RDVER` (R149, R150) -/

theorem exec_axRdVer_of_parses {s : State} {sels : List (BitVec 3)} (hparses : VerifierParses s.mem 40 sels) {b : Nat}
    (hb : b = verifierBits sels) (hroom : 40 + b ≤ 32 * s.len) :
    exec .axRdVer s = .next { s with
      cur := ⟨(40 + b) / 32, (40 + b) % 32, s.len⟩
      res := { s.res with r0 := BitVec.ofNat 32 (verifierLines b), r1 := BitVec.ofNat 32 b }
      status := okStatus s.status } := by
  subst hb
  show execAxRdVer s = _
  rw [execAxRdVer, readVerifier_of_parses hparses hroom]
  exact congrArg _ (State.endWith_ok _)

theorem exec_axRdVer_of_overrun {s : State} {cur : Cursor} (hread : readVerifier s.mem s.len = (none, cur)) :
    exec .axRdVer s = .next { s with cur := cur, status := errStatus 4 } := by
  show execAxRdVer s = _
  rw [execAxRdVer, hread]
  exact congrArg _ (State.endWith_verifier _)

/-- The reader fails where no parse ends within the buffer. -/
theorem readVerifier_of_no_parse {m : Memory} {len : Nat}
    (hnone : ∀ sels, VerifierParses m 40 sels → 32 * len < 40 + verifierBits sels) :
    readVerifier m len = (none, if len < 2 then ⟨1, 8, len⟩ else ⟨len, 0, len⟩) := by
  obtain ⟨sels, hparses, hroom, -⟩ | ⟨-, hread⟩ := readVerifier_spec m len
  · exact absurd (hnone sels hparses) (Nat.not_lt.mpr hroom)
  · exact hread

/-- Settles O50. -/
theorem verifierReadParsesStream : Obligations.VerifierReadParsesStream :=
  fun _ => ⟨fun _ _ hparses => exec_axRdVer_of_parses hparses,
    fun hnone => exec_axRdVer_of_overrun (readVerifier_of_no_parse hnone)⟩

/-! ## `AX_MKVER` (R151, R152) -/

/-- A field at the low end of a word is the word under a mask of that many ones. -/
theorem setWidth_extractLsb'_zero_eq_and (w : Word) (n : Nat) :
    (w.extractLsb' 0 n).setWidth 32 = w &&& BitVec.ofNat 32 (2 ^ n - 1) := by
  apply BitVec.eq_of_getLsbD_eq
  intro i hi
  simp only [BitVec.getLsbD_setWidth, BitVec.getLsbD_extractLsb', BitVec.getLsbD_and, BitVec.getLsbD_ofNat,
    Nat.testBit_two_pow_sub_one, hi, decide_true, Bool.true_and, Nat.zero_add]
  exact Bool.and_comm ..

theorem verifierWord0_eq (gameId rand : Word) :
    verifierWord0 gameId rand = (gameId <<< 15) ||| ((rand.extractLsb' 0 15).setWidth 32) := by
  rw [verifierWord0, setWidth_extractLsb'_zero_eq_and]
  rfl

theorem verifierWord1_eq (rand region : Word) (m : Bool) :
    verifierWord1 rand region m = ((rand.extractLsb' 0 4).setWidth 32 <<< 28) ||| 0x00800000#32 |||
      ((if m then 1#32 else 0#32) <<< 27) ||| (region <<< 24) := by
  rw [verifierWord1, setWidth_extractLsb'_zero_eq_and]
  cases m with
  | false => rfl
  | true => rfl

/-- The master bit scans the address words of the buffer's pairs, and a last odd word is in no pair (R151). -/
theorem masterBit_buffer (s : State) :
    masterBit s.mem (s.len / 2) 0 = (pairsOf s.buffer).any fun p => p.1 >>> 25 == 0x62#32 := by
  rw [State.buffer, pairsOf_words]
  exact masterBit_eq s.mem (s.len / 2) 0

theorem exec_axMkVer (s : State) : exec .axMkVer s = .next { s with
    res := { s.res with
      r0 := verifierWord0 s.op.r0 s.op.r2
      r1 := verifierWord1 s.op.r3 s.op.r1 (masterBit s.mem (s.len / 2) 0) }
    status := okStatus s.status } :=
  congrArg _ (State.endWith_ok _)

/-- Settles O51. -/
theorem verifierSynthesis : Obligations.VerifierSynthesis := by
  intro s
  rw [exec_axMkVer, verifierWord0_eq, verifierWord1_eq, masterBit_buffer]

/-! ## A made verifier reads back (R154) -/

/-- The constant of R152 is the terminator; the region starts one bit above it. -/
theorem verifierWord1_terminator (rand region : Word) (m : Bool) : (verifierWord1 rand region m).getLsbD 23 = true := by
  simp [verifierWord1]

/-- A second word whose bit 23 is 1 is a verifier with no expansion: bit 40 of the stream terminates it (R63). -/
theorem verifierParses_nil_of_terminator {m : Memory} (h : (m.readWord 1).getLsbD 23 = true) : VerifierParses m 40 [] := h

/-- Settles O52. -/
theorem madeVerifierReadsBack : Obligations.MadeVerifierReadsBack := by
  intro s t u hmake hlen _ hword1
  obtain rfl := Host.Outcome.next.inj ((exec_axMkVer s).symm.trans hmake)
  have hterminator : (u.mem.readWord 1).getLsbD 23 = true := by
    rw [show u.mem.readWord 1 = _ from hword1]
    exact verifierWord1_terminator ..
  exact exec_axRdVer_of_parses (verifierParses_nil_of_terminator hterminator) verifierBits_nil.symm (by omega)

end Sys2Proof.Machine
end

section
/-! PROOF. The GS3+ commands on one pair and on the generator (45_gs3.md). What a pair operation does is said once for each
case of the key, for any transform; `GS3_DECP` and `GS3_ENCP` are that operation, `RES` and the end. -/

namespace Sys2Proof.Machine

/-! ## The flags word (R177) -/

theorem gs3Flags_first : ∀ k, gs3Flags k false false = BitVec.ofNat 32 (4 * k.toNat) := by decide

theorem gs3Flags_second : ∀ k, gs3Flags k true false = BitVec.ofNat 32 (2 + 4 * k.toNat) := by decide

/-- Bit 0 of the flags is the refresh flag. -/
theorem gs3Flags_refreshBit : ∀ k second refresh, (gs3Flags k second refresh).getLsbD 0 = refresh := by decide

/-! ## One pair, case by case (R172, R173, R174) -/

section
variable {s : State} {x : Pair} {key k : BitVec 3}

theorem gs3DecPair_pending (h : s.gs3l = true) : gs3DecPair x s = gs3SecondLine Config.gs3.dec2 x s := if_pos h

theorem gs3DecPair_clear (h : s.gs3l = false) : gs3DecPair x s = gs3FirstLine Config.gs3.dec (commandKey x.1) x s :=
  if_neg (Bool.eq_false_iff.mp h)

theorem gs3EncPair_pending (h : s.gs3l = true) : gs3EncPair key x s = gs3SecondLine Config.gs3.enc2 x s := if_pos h

theorem gs3EncPair_clear (h : s.gs3l = false) : gs3EncPair key x s = gs3FirstLine Config.gs3.enc key x s :=
  if_neg (Bool.eq_false_iff.mp h)

variable (f : BitVec 3 → Gs3Tables → Pair → Pair)

theorem gs3FirstLine_pass (h : k = 0 ∨ k = 5 ∨ k = 6) : gs3FirstLine f k x s = (⟨x, gs3Flags k false false⟩, s) := by
  obtain rfl | rfl | rfl := h <;> rfl

theorem gs3FirstLine_transform (h : k = 1 ∨ k = 2) :
    gs3FirstLine f k x s = (⟨f k s.tbl x, gs3Flags k false false⟩, s) := if_pos h

theorem gs3FirstLine_latch (h : k = 3 ∨ k = 4) :
    gs3FirstLine f k x s = (⟨f k s.tbl x, gs3Flags k false false⟩, { s with gs3l := true, gs3k := k }) := by
  obtain rfl | rfl := h <;> rfl

theorem gs3FirstLine_refresh :
    gs3FirstLine f 7 x s = (⟨x, gs3Flags 7 false true⟩, s.setGs3Seeds (Config.gs3.seedsFromPair x)) := rfl

end

/-- The four kinds of key of a first line. -/
theorem gs3Key_cases :
    ∀ k : BitVec 3, (k = 0 ∨ k = 5 ∨ k = 6) ∨ (k = 1 ∨ k = 2) ∨ (k = 3 ∨ k = 4) ∨ k = 7 := by decide

/-! ## The commands on one pair (R177, R178) -/

/-- The end of `GS3_DECP` and `GS3_ENCP`: the result of the pair operation into `RES[0..2]`, then `OK`. -/
def completePair (q : Gs3Result × State) : State := (q.2.setGs3Result q.1).endWith .ok

theorem completePair_eq (q : Gs3Result × State) : completePair q = { q.2 with
    res := ⟨q.1.pair.1, q.1.pair.2, q.1.flags, q.2.res.r3⟩, status := okStatus q.2.status } := by
  rw [completePair, State.endWith_ok, State.setGs3Result_eq]

theorem exec_gs3DecP (s : State) : exec .gs3DecP s = .next (completePair (gs3DecPair (s.op.r0, s.op.r1) s)) := rfl

theorem exec_gs3EncP_legal {s : State} {key : Byte} (h : key.toNat ≤ 7) :
    exec (.gs3EncP key) s = .next (completePair (gs3EncPair (key.setWidth 3) (s.op.r0, s.op.r1) s)) :=
  if_neg (not_lt.mpr h)

theorem exec_gs3EncP_illegal {s : State} {key : Byte} (h : 7 < key.toNat) :
    exec (.gs3EncP key) s = .next { s with status := errStatus 1 } := by
  rw [← State.endWith_illegal]
  exact exec_of_not_wf (i := .gs3EncP key) (decide_eq_false (not_le.mpr h)) s

section
variable {s : State} {x : Pair} {k : BitVec 3} (f : BitVec 3 → Gs3Tables → Pair → Pair)

theorem completePair_second : completePair (gs3SecondLine f x s) = { s with
    res := ⟨(f s.gs3k s.tbl x).1, (f s.gs3k s.tbl x).2, BitVec.ofNat 32 (2 + 4 * s.gs3k.toNat), s.res.r3⟩
    gs3l := false, status := okStatus s.status } := by
  rw [← gs3Flags_second]
  exact completePair_eq _

theorem completePair_pass (h : k = 0 ∨ k = 5 ∨ k = 6) : completePair (gs3FirstLine f k x s) = { s with
    res := ⟨x.1, x.2, BitVec.ofNat 32 (4 * k.toNat), s.res.r3⟩, status := okStatus s.status } := by
  rw [gs3FirstLine_pass f h, completePair_eq, gs3Flags_first]

theorem completePair_transform (h : k = 1 ∨ k = 2) : completePair (gs3FirstLine f k x s) = { s with
    res := ⟨(f k s.tbl x).1, (f k s.tbl x).2, BitVec.ofNat 32 (4 * k.toNat), s.res.r3⟩, status := okStatus s.status } := by
  rw [gs3FirstLine_transform f h, completePair_eq, gs3Flags_first]

theorem completePair_latch (h : k = 3 ∨ k = 4) : completePair (gs3FirstLine f k x s) = { s with
    res := ⟨(f k s.tbl x).1, (f k s.tbl x).2, BitVec.ofNat 32 (4 * k.toNat), s.res.r3⟩
    gs3l := true, gs3k := k, status := okStatus s.status } := by
  rw [gs3FirstLine_latch f h, completePair_eq, gs3Flags_first]

theorem completePair_refresh : completePair (gs3FirstLine f 7 x s) = { s with
    res := ⟨x.1, x.2, 29, s.res.r3⟩
    gs3s := Config.gs3.seedsFromPair x
    tbl := (buildTables Config.gs3 (Config.gs3.seedsFromPair x)).1
    rng := (buildTables Config.gs3 (Config.gs3.seedsFromPair x)).2
    status := okStatus s.status } := by
  rw [gs3FirstLine_refresh, completePair_eq]
  rfl

end

/-- Settles O56: with a second line pending its transform, else the case of the pair's own key. -/
theorem pairDecryptCases : Obligations.PairDecryptCases := by
  rintro s k x hk rfl
  replace hk : commandKey s.op.r0 = k := hk.symm
  refine ⟨fun hpending => ?_, fun hclear hpass => ?_, fun hclear htransform => ?_, fun hclear hlatch => ?_,
    fun hclear hrefresh => ?_⟩
  · rw [exec_gs3DecP, gs3DecPair_pending hpending, completePair_second]
  · rw [exec_gs3DecP, gs3DecPair_clear hclear, hk, completePair_pass _ hpass]
  · rw [exec_gs3DecP, gs3DecPair_clear hclear, hk, completePair_transform _ htransform]
  · rw [exec_gs3DecP, gs3DecPair_clear hclear, hk, completePair_latch _ hlatch]
  · rw [exec_gs3DecP, gs3DecPair_clear hclear, hk, hrefresh, completePair_refresh]

/-- A legal key is the number its low three bits are (R178). -/
theorem setWidth_key_toNat {key : Byte} (h : key.toNat ≤ 7) : (key.setWidth 3).toNat = key.toNat := by
  rw [BitVec.toNat_setWidth]
  exact Nat.mod_eq_of_lt (by omega)

/-- Settles O57: an illegal key is found first; then as for `GS3_DECP`, with the explicit key. -/
theorem pairEncryptCases : Obligations.PairEncryptCases := by
  rintro s key _ x rfl rfl
  refine ⟨exec_gs3EncP_illegal, fun hlegal hpending => ?_, fun hclear hpass => ?_, fun hclear htransform => ?_,
    fun hclear hlatch => ?_, fun hclear hrefresh => ?_⟩
  · rw [exec_gs3EncP_legal hlegal, gs3EncPair_pending hpending, completePair_second]
  · obtain ⟨hlegal, hk⟩ : key.toNat ≤ 7 ∧ (key.setWidth 3 = 0 ∨ key.setWidth 3 = 5 ∨ key.setWidth 3 = 6) := by
      obtain rfl | rfl | rfl := hpass <;> decide
    rw [exec_gs3EncP_legal hlegal, gs3EncPair_clear hclear, completePair_pass _ hk, setWidth_key_toNat hlegal]
  · obtain ⟨hlegal, hk⟩ : key.toNat ≤ 7 ∧ (key.setWidth 3 = 1 ∨ key.setWidth 3 = 2) := by
      obtain rfl | rfl := htransform <;> decide
    rw [exec_gs3EncP_legal hlegal, gs3EncPair_clear hclear, completePair_transform _ hk, setWidth_key_toNat hlegal]
  · obtain ⟨hlegal, hk⟩ : key.toNat ≤ 7 ∧ (key.setWidth 3 = 3 ∨ key.setWidth 3 = 4) := by
      obtain rfl | rfl := hlatch <;> decide
    rw [exec_gs3EncP_legal hlegal, gs3EncPair_clear hclear, completePair_latch _ hk, setWidth_key_toNat hlegal]
  · obtain ⟨hlegal, hk⟩ : key.toNat ≤ 7 ∧ key.setWidth 3 = 7 := by
      subst hrefresh
      decide
    rw [exec_gs3EncP_legal hlegal, gs3EncPair_clear hclear, hk, completePair_refresh]

/-! ## Seeds and generator (R167, R168, R171) -/

/-- Settles O54: each command writes its registers as stated and ends with `OK`. -/
theorem seedAndGeneratorCommands : Obligations.SeedAndGeneratorCommands := by
  refine fun s => ⟨?_, congrArg _ (State.endWith_ok _), congrArg _ (State.endWith_ok _)⟩
  rintro _ rfl
  exact congrArg _ (State.endWith_ok _)

end Sys2Proof.Machine
end

section
/-! PROOF. Every step keeps the key of a pending second line 3 or 4 (R173). A first line of key 3 or 4 is the only thing that
sets the latch, and it sets the key with it. -/

namespace Sys2Proof.Machine

theorem State.latchKeyLegal_of_clear {s : State} (h : s.gs3l = false) : s.LatchKeyLegal :=
  fun hset => absurd hset (Bool.eq_false_iff.mp h)

/-- The invariant speaks of the latch alone. -/
theorem State.LatchKeyLegal.of_same {s t : State} (hs : s.LatchKeyLegal) (h : Component.latch.Same s t) :
    t.LatchKeyLegal := by
  obtain ⟨hl, hk⟩ : t.gs3l = s.gs3l ∧ t.gs3k = s.gs3k := h
  unfold State.LatchKeyLegal
  rw [hl, hk]
  exact hs

/-! ## The pair operations and their streams (R177 to R180) -/

theorem gs3SecondLine_latchKeyLegal (f : BitVec 3 → Gs3Tables → Pair → Pair) (x : Pair) (s : State) :
    (gs3SecondLine f x s).2.LatchKeyLegal := State.latchKeyLegal_of_clear rfl

theorem gs3FirstLine_keeps_latchKeyLegal (f : BitVec 3 → Gs3Tables → Pair → Pair) (k : BitVec 3) (x : Pair) {s : State}
    (hs : s.LatchKeyLegal) : (gs3FirstLine f k x s).2.LatchKeyLegal := by
  obtain hpass | htransform | hlatch | rfl := gs3Key_cases k
  · rw [gs3FirstLine_pass f hpass]
    exact hs
  · rw [gs3FirstLine_transform f htransform]
    exact hs
  · rw [gs3FirstLine_latch f hlatch]
    exact fun _ => hlatch
  · rw [gs3FirstLine_refresh]
    exact hs.of_same ⟨rfl, rfl⟩

theorem gs3DecPair_keeps_latchKeyLegal (x : Pair) {s : State} (hs : s.LatchKeyLegal) :
    (gs3DecPair x s).2.LatchKeyLegal := by
  cases hl : s.gs3l with
  | true => rw [gs3DecPair_pending hl]; exact gs3SecondLine_latchKeyLegal _ x s
  | false => rw [gs3DecPair_clear hl]; exact gs3FirstLine_keeps_latchKeyLegal _ _ _ hs

theorem gs3EncPair_keeps_latchKeyLegal (key : BitVec 3) (x : Pair) {s : State} (hs : s.LatchKeyLegal) :
    (gs3EncPair key x s).2.LatchKeyLegal := by
  cases hl : s.gs3l with
  | true => rw [gs3EncPair_pending hl]; exact gs3SecondLine_latchKeyLegal _ x s
  | false => rw [gs3EncPair_clear hl]; exact gs3FirstLine_keeps_latchKeyLegal _ _ _ hs

theorem gs3DecStream_keeps_latchKeyLegal (ps : List Pair) {s : State} (hs : s.LatchKeyLegal) :
    (gs3DecStream ps s).2.LatchKeyLegal := by
  induction ps generalizing s with
  | nil => exact hs
  | cons p ps ih =>
    have hrest := ih (gs3DecPair_keeps_latchKeyLegal p hs)
    simp only [gs3DecStream]
    split <;> exact hrest

theorem gs3EncStream_keeps_latchKeyLegal (key : BitVec 3) (ps : List Pair) {s : State} (hs : s.LatchKeyLegal) :
    (gs3EncStream key ps s).2.LatchKeyLegal := by
  induction ps generalizing s with
  | nil => exact hs
  | cons p ps ih => exact ih (gs3EncPair_keeps_latchKeyLegal key p hs)

/-! ## Every command -/

theorem completePair_latchKeyLegal {q : Gs3Result × State} (h : q.2.LatchKeyLegal) : (completePair q).LatchKeyLegal := h

theorem execGs3EncP_keeps_latchKeyLegal {s t : State} {key : Byte} (hs : s.LatchKeyLegal)
    (h : exec (.gs3EncP key) s = .next t) : t.LatchKeyLegal := by
  obtain hkey | hkey := le_or_gt key.toNat 7
  · rw [exec_gs3EncP_legal hkey] at h
    cases h
    exact completePair_latchKeyLegal (gs3EncPair_keeps_latchKeyLegal _ _ hs)
  · rw [exec_gs3EncP_illegal hkey] at h
    cases h
    exact hs

theorem execGs3BDec_keeps_latchKeyLegal {s t : State} (hs : s.LatchKeyLegal) (h : exec .gs3BDec s = .next t) :
    t.LatchKeyLegal := by
  obtain heven | hodd := Nat.mod_two_eq_zero_or_one s.len
  · obtain ⟨u, hexec, hu, -⟩ := gs3BDec_isStream heven rfl
    obtain rfl := Host.Outcome.next.inj (h.symm.trans hexec)
    rw [hu]
    exact gs3DecStream_keeps_latchKeyLegal (pairsOf s.buffer) hs
  · rw [exec_gs3BDec_odd hodd] at h
    cases h
    exact hs

theorem execGs3BEnc_keeps_latchKeyLegal {s t : State} {key : Byte} (hs : s.LatchKeyLegal)
    (h : exec (.gs3BEnc key) s = .next t) : t.LatchKeyLegal := by
  obtain hkey | hkey := le_or_gt key.toNat 7
  · obtain heven | hodd := Nat.mod_two_eq_zero_or_one s.len
    · obtain ⟨u, hexec, hu, -⟩ := gs3BEnc_isStream hkey heven rfl
      obtain rfl := Host.Outcome.next.inj (h.symm.trans hexec)
      rw [hu]
      exact gs3EncStream_keeps_latchKeyLegal (key.setWidth 3) (pairsOf s.buffer) hs
    · rw [exec_gs3BEnc_odd hkey hodd] at h
      cases h
      exact hs
  · rw [exec_gs3BEnc_illegal hkey] at h
    cases h
    exact hs

/-- A command whose column has no latch keeps it; of the others `BATCH_RESET` clears it and the rest are pair operations. -/
theorem exec_keeps_latchKeyLegal {i : Instr} {s t : State} (hs : s.LatchKeyLegal) (h : exec i s = .next t) :
    t.LatchKeyLegal := by
  by_cases hcol : .latch ∈ writesOf i
  · cases i with
    | batchReset => cases h; exact State.latchKeyLegal_of_clear rfl
    | gs3DecP => cases h; exact completePair_latchKeyLegal (gs3DecPair_keeps_latchKeyLegal _ hs)
    | gs3EncP key => exact execGs3EncP_keeps_latchKeyLegal hs h
    | gs3BDec => exact execGs3BDec_keeps_latchKeyLegal hs h
    | gs3BEnc key => exact execGs3BEnc_keeps_latchKeyLegal hs h
    | _ => simp [writesOf] at hcol
  · exact hs.of_same ((commandsWriteOnlyTheirColumn i s t h).1 .latch hcol)

/-! ## Every access, and every step -/

theorem issue_keeps_latchKeyLegal {s t : State} {c : Word} (hs : s.LatchKeyLegal) (h : issue s c = .next t) :
    t.LatchKeyLegal := by
  have hcmd : State.LatchKeyLegal { s with cmd := c } := hs
  unfold issue at h
  split at h
  · exact exec_keeps_latchKeyLegal hcmd h
  · cases h
    exact hcmd

theorem writeLen_latch (s : State) (v : Word) : Component.latch.Same s (writeLen s v) := by
  unfold writeLen
  split <;> exact ⟨rfl, rfl⟩

theorem hostWrite_keeps_latchKeyLegal {s t : State} {offset : Nat} {v : Word} (hs : s.LatchKeyLegal)
    (h : hostWrite s offset v = .next t) : t.LatchKeyLegal := by
  unfold hostWrite at h
  split at h
  case h_1 => exact issue_keeps_latchKeyLegal hs h
  case h_2 => cases h; exact hs.of_same (writeLen_latch s v)
  all_goals cases h; exact hs

theorem busAccess_keeps_latchKeyLegal {s t : State} {x : Transaction} (hs : s.LatchKeyLegal)
    (h : busAccess s x = .next t) : t.LatchKeyLegal := by
  unfold busAccess at h
  split_ifs at h
  split at h
  · cases h; exact hs
  · exact hostWrite_keeps_latchKeyLegal hs h

/-- Settles O20: an idle block keeps its state, block reset clears the latch, and every access keeps the invariant. -/
theorem stepKeepsLatchKeyLegal : Obligations.StepKeepsLatchKeyLegal := by
  intro s t hs h
  unfold step at h
  split at h
  · cases h; exact hs
  · next e rest _ =>
    have htake : State.LatchKeyLegal { s with events := rest } := hs
    cases e with
    | bus x => exact busAccess_keeps_latchKeyLegal htake h
    | blockReset => cases h; exact State.latchKeyLegal_of_clear rfl

end Sys2Proof.Machine
end

section
/-! PROOF. The GS3+ batch round trip (R181). Decryption of the encrypted pairs goes through the same second lines as the
encryption did: a relation between the two runs (`InStep`) is kept by every pair, and while it holds each pair comes back. -/

namespace Sys2Proof.Machine

/-! ## States that differ at most in the latch -/

/-- The two states differ at most in the latch and its key. -/
def SameButLatch (s t : State) : Prop := t = { s with gs3l := t.gs3l, gs3k := t.gs3k }

theorem SameButLatch.refl (s : State) : SameButLatch s s := rfl

theorem SameButLatch.trans {s t u : State} (h : SameButLatch s t) (h' : SameButLatch t u) : SameButLatch s u := by
  unfold SameButLatch at h h' ⊢
  rw [h', h]

/-! ## One pair there and back (R176) -/

/-- An encryption in state `s` and the decryption of its result in state `r` are at the same place: they have the same tables
and the same second line pending, if any. -/
structure InStep (s r : State) : Prop where
  tbl : r.tbl = s.tbl
  latch : r.gs3l = s.gs3l
  key : s.gs3l = true → r.gs3k = s.gs3k
  legal : s.LatchKeyLegal

theorem InStep.of_clear {s r : State} (htbl : r.tbl = s.tbl) (hs : s.gs3l = false) (hr : r.gs3l = false) : InStep s r :=
  ⟨htbl, hr.trans hs.symm, fun h => absurd h (Bool.eq_false_iff.mp hs), State.latchKeyLegal_of_clear hs⟩

/-- A pair encrypted in `s` is decrypted in `r`: the pair and the flags come back, no refresh is seen, both states change in
the latch at most, and they stay in step. -/
structure PairReturns (key : BitVec 3) (p : Pair) (s r : State) : Prop where
  result : (gs3DecPair (gs3EncPair key p s).1.pair r).1 = ⟨p, (gs3EncPair key p s).1.flags⟩
  noRefresh : (gs3EncPair key p s).1.flags.getLsbD 0 = false
  encFrame : SameButLatch s (gs3EncPair key p s).2
  decFrame : SameButLatch r (gs3DecPair (gs3EncPair key p s).1.pair r).2
  inStep : InStep (gs3EncPair key p s).2 (gs3DecPair (gs3EncPair key p s).1.pair r).2

section
variable {key : BitVec 3} {p : Pair} {s r : State}

theorem PairReturns.of_eq {q : Pair} {k : BitVec 3} {second : Bool} {s' r' : State}
    (henc : gs3EncPair key p s = (⟨q, gs3Flags k second false⟩, s'))
    (hdec : gs3DecPair q r = (⟨p, gs3Flags k second false⟩, r')) (hs : SameButLatch s s') (hr : SameButLatch r r')
    (hstep : InStep s' r') : PairReturns key p s r := by
  constructor
  all_goals simp only [henc, hdec]
  case noRefresh => exact gs3Flags_refreshBit ..
  case encFrame => exact hs
  case decFrame => exact hr
  case inStep => exact hstep

/-- A pending second line: law 3 of R176. -/
theorem pairReturns_pending (hstep : InStep s r) (hl : s.gs3l = true) : PairReturns key p s r := by
  have hlegal : s.gs3k.toNat = 3 ∨ s.gs3k.toNat = 4 := (hstep.legal hl).imp (congrArg _) (congrArg _)
  have hdec : gs3DecPair (Config.gs3.enc2 s.gs3k s.tbl p) r =
      (⟨p, gs3Flags s.gs3k true false⟩, { r with gs3l := false }) := by
    rw [gs3DecPair_pending (hstep.latch.trans hl), gs3SecondLine, hstep.key hl, hstep.tbl,
      Config.gs3.dec2_enc2 _ _ _ hlegal]
  exact .of_eq (gs3EncPair_pending hl) hdec rfl rfl ⟨hstep.tbl, rfl, nofun, State.latchKeyLegal_of_clear rfl⟩

/-- A first line under key 0, which passes the pair through both ways. -/
theorem pairReturns_keyZero (hp : pairKey p = 0) (hstep : InStep s r) (hl : s.gs3l = false) : PairReturns 0 p s r := by
  have henc : gs3EncPair 0 p s = (⟨p, gs3Flags 0 false false⟩, s) :=
    (gs3EncPair_clear hl).trans (gs3FirstLine_pass _ (.inl rfl))
  have hdec : gs3DecPair p r = (⟨p, gs3Flags 0 false false⟩, r) := by
    rw [gs3DecPair_clear (hstep.latch.trans hl), ← pairKey_eq_commandKey, hp, gs3FirstLine_pass _ (.inl rfl)]
  exact .of_eq henc hdec rfl rfl hstep

/-- A transformed first line carries its key (law 2 of R176), and so it is decrypted as a first line under that key. -/
theorem gs3DecPair_enc (hone : 1 ≤ key.toNat) (hfour : key.toNat ≤ 4) (hl : r.gs3l = false) (T : Gs3Tables) :
    gs3DecPair (Config.gs3.enc key T p) r = gs3FirstLine Config.gs3.dec key (Config.gs3.enc key T p) r := by
  rw [gs3DecPair_clear hl, ← pairKey_eq_commandKey, Config.gs3.enc_key _ _ _ hone hfour]

/-- A first line under key 1 or 2: law 1 of R176. -/
theorem pairReturns_transform (hkey : key = 1 ∨ key = 2) (hp : pairKey p = 0) (hstep : InStep s r) (hl : s.gs3l = false) :
    PairReturns key p s r := by
  obtain ⟨hone, hfour⟩ : 1 ≤ key.toNat ∧ key.toNat ≤ 4 := by obtain rfl | rfl := hkey <;> decide
  have henc : gs3EncPair key p s = (⟨Config.gs3.enc key s.tbl p, gs3Flags key false false⟩, s) :=
    (gs3EncPair_clear hl).trans (gs3FirstLine_transform _ hkey)
  have hdec : gs3DecPair (Config.gs3.enc key s.tbl p) r = (⟨p, gs3Flags key false false⟩, r) := by
    rw [gs3DecPair_enc hone hfour (hstep.latch.trans hl), gs3FirstLine_transform _ hkey, hstep.tbl,
      Config.gs3.dec_enc _ _ _ hone hfour hp]
  exact .of_eq henc hdec rfl rfl hstep

/-- A first line under key 3 or 4, after which both runs have the same second line pending. -/
theorem pairReturns_latch (hkey : key = 3 ∨ key = 4) (hp : pairKey p = 0) (hstep : InStep s r) (hl : s.gs3l = false) :
    PairReturns key p s r := by
  obtain ⟨hone, hfour⟩ : 1 ≤ key.toNat ∧ key.toNat ≤ 4 := by obtain rfl | rfl := hkey <;> decide
  have henc : gs3EncPair key p s =
      (⟨Config.gs3.enc key s.tbl p, gs3Flags key false false⟩, { s with gs3l := true, gs3k := key }) :=
    (gs3EncPair_clear hl).trans (gs3FirstLine_latch _ hkey)
  have hdec : gs3DecPair (Config.gs3.enc key s.tbl p) r =
      (⟨p, gs3Flags key false false⟩, { r with gs3l := true, gs3k := key }) := by
    rw [gs3DecPair_enc hone hfour (hstep.latch.trans hl), gs3FirstLine_latch _ hkey, hstep.tbl,
      Config.gs3.dec_enc _ _ _ hone hfour hp]
  exact .of_eq henc hdec rfl rfl ⟨hstep.tbl, rfl, fun _ => rfl, fun _ => hkey⟩

end

/-- The keys the round trip speaks of. -/
theorem roundTripKey_cases : ∀ key : BitVec 3, key.toNat ≤ 4 → key = 0 ∨ (key = 1 ∨ key = 2) ∨ (key = 3 ∨ key = 4) := by
  decide

theorem pairReturns {key : BitVec 3} (hkey : key.toNat ≤ 4) {p : Pair} (hp : pairKey p = 0) {s r : State}
    (hstep : InStep s r) : PairReturns key p s r := by
  cases hl : s.gs3l with
  | true => exact pairReturns_pending hstep hl
  | false =>
    obtain rfl | htransform | hlatch := roundTripKey_cases key hkey
    · exact pairReturns_keyZero hp hstep hl
    · exact pairReturns_transform htransform hp hstep hl
    · exact pairReturns_latch hlatch hp hstep hl

/-! ## Streams of pairs there and back -/

/-- Encryption of pairs whose key field is 0, under a key 0 to 4, changes nothing but the latch. -/
theorem gs3EncStream_frame {key : BitVec 3} (hkey : key.toNat ≤ 4) {ps : List Pair} (hps : ∀ p ∈ ps, pairKey p = 0)
    {s r : State} (hstep : InStep s r) : SameButLatch s (gs3EncStream key ps s).2 := by
  induction ps generalizing s r with
  | nil => exact .refl s
  | cons p ps ih =>
    obtain ⟨hp, hps⟩ := List.forall_mem_cons.mp hps
    have hreturns := pairReturns hkey hp hstep
    exact hreturns.encFrame.trans (ih hps hreturns.inStep)

/-- The encrypted pairs decrypt to the pairs, and the decryption changes nothing but the latch. -/
theorem gs3DecStream_gs3EncStream {key : BitVec 3} (hkey : key.toNat ≤ 4) {ps : List Pair}
    (hps : ∀ p ∈ ps, pairKey p = 0) {s r : State} (hstep : InStep s r) :
    ∃ r', gs3DecStream (gs3EncStream key ps s).1 r = (ps, r') ∧ SameButLatch r r' := by
  induction ps generalizing s r with
  | nil => exact ⟨r, rfl, .refl r⟩
  | cons p ps ih =>
    obtain ⟨hp, hps⟩ := List.forall_mem_cons.mp hps
    have hreturns := pairReturns hkey hp hstep
    obtain ⟨r', hrest, hframe⟩ := ih hps hreturns.inStep
    refine ⟨r', ?_, hreturns.decFrame.trans hframe⟩
    simp only [gs3EncStream, gs3DecStream, hreturns.result, hreturns.noRefresh, hrest, Bool.false_eq_true, if_false]

/-! ## The latch after the encryption (R174) -/

theorem gs3EncPair_toggles_latch {key : BitVec 3} (hkey : key = 3 ∨ key = 4) (p : Pair) (s : State) :
    (gs3EncPair key p s).2.gs3l = !s.gs3l := by
  cases hl : s.gs3l with
  | true => rw [gs3EncPair_pending hl]; rfl
  | false => rw [gs3EncPair_clear hl, gs3FirstLine_latch _ hkey]; rfl

/-- Under key 3 or 4 first and second lines alternate. -/
theorem gs3EncStream_latch_alternates {key : BitVec 3} (hkey : key = 3 ∨ key = 4) (ps : List Pair) (s : State) :
    (gs3EncStream key ps s).2.gs3l = (s.gs3l ^^ ps.length.bodd) := by
  induction ps generalizing s with
  | nil => exact (Bool.xor_false _).symm
  | cons p ps ih =>
    calc (gs3EncStream key (p :: ps) s).2.gs3l
        = ((gs3EncPair key p s).2.gs3l ^^ ps.length.bodd) := ih _
      _ = (s.gs3l ^^ (p :: ps).length.bodd) := by
        rw [gs3EncPair_toggles_latch hkey, List.length_cons, Nat.bodd_succ, Bool.not_xor, Bool.xor_not]

theorem gs3EncPair_clear_latch {key : BitVec 3} (hkey : key = 0 ∨ key = 1 ∨ key = 2) (p : Pair) {s : State}
    (hl : s.gs3l = false) : (gs3EncPair key p s).2.gs3l = false := by
  rw [gs3EncPair_clear hl]
  obtain rfl | htransform := hkey
  · rw [gs3FirstLine_pass _ (.inl rfl)]
    exact hl
  · rw [gs3FirstLine_transform _ htransform]
    exact hl

/-- Under a key 0 to 2 no line is a second line. -/
theorem gs3EncStream_clear_latch {key : BitVec 3} (hkey : key = 0 ∨ key = 1 ∨ key = 2) (ps : List Pair) {s : State}
    (hl : s.gs3l = false) : (gs3EncStream key ps s).2.gs3l = false := by
  induction ps generalizing s with
  | nil => exact hl
  | cons p ps ih => exact ih (gs3EncPair_clear_latch hkey p hl)

theorem gs3EncStream_latch_iff {key : BitVec 3} (hkey : key.toNat ≤ 4) (ps : List Pair) {s : State} (hl : s.gs3l = false) :
    (gs3EncStream key ps s).2.gs3l = true ↔ (key = 3 ∨ key = 4) ∧ ps.length % 2 = 1 := by
  by_cases hlatch : key = 3 ∨ key = 4
  · rw [gs3EncStream_latch_alternates hlatch, hl, Bool.false_xor, Nat.mod_two_of_bodd, and_iff_right hlatch]
    exact Bool.toNat_eq_one.symm
  · have hclear : key = 0 ∨ key = 1 ∨ key = 2 := by
      obtain hzero | htransform | hlatch' := roundTripKey_cases key hkey
      · exact .inl hzero
      · exact .inr htransform
      · exact absurd hlatch' hlatch
    rw [gs3EncStream_clear_latch hclear ps hl]
    exact ⟨nofun, fun h => absurd h.1 hlatch⟩

/-! ## The batch commands there and back (R181) -/

/-- The result of an encryption that starts with a clear latch, decrypted from any state that has a clear latch and the tables
of the encryption. -/
theorem gs3BDec_restores {key : BitVec 3} (hkey : key.toNat ≤ 4) {s v : State} (hs : s.gs3l = false) (hv : v.gs3l = false)
    (htbl : v.tbl = s.tbl) (heven : s.len % 2 = 0) (hlen : v.len = s.len) (hps : ∀ p ∈ pairsOf s.buffer, pairKey p = 0)
    (hbuf : v.buffer = wordsOf (gs3EncStream key (pairsOf s.buffer) s).1) :
    ∃ u, exec .gs3BDec v = .next u ∧ u.buffer = s.buffer ∧
      u = { v with mem := u.mem, gs3l := u.gs3l, gs3k := u.gs3k, status := okStatus v.status } := by
  obtain ⟨r, hdec, hframe⟩ := gs3DecStream_gs3EncStream hkey hps (.of_clear htbl hs hv)
  have hstream : gs3DecStream (pairsOf v.buffer) v = (pairsOf s.buffer, r) := by rw [hbuf, pairsOf_wordsOf, hdec]
  obtain ⟨u, hexec, hu, hubuffer, -⟩ := gs3BDec_isStream (hlen ▸ heven) hstream
  refine ⟨u, hexec, hubuffer.trans (wordsOf_pairsOf_buffer heven), ?_⟩
  have hcount : 2 * (pairsOf s.buffer).length = v.len := by rw [pairsOf_buffer_length]; omega
  rw [hcount, Nat.sub_self] at hu
  rw [hframe] at hu
  rw [hu]
  rfl

/-- The encryption leaves the pairs encrypted, and changes nothing else but the latch and `STATUS`. -/
theorem gs3BEnc_changes_latch {s : State} {key : Byte} (hkey : key.toNat ≤ 4) (hs : s.gs3l = false) (heven : s.len % 2 = 0)
    (hps : ∀ p ∈ pairsOf s.buffer, pairKey p = 0) {r : List Pair × State}
    (hr : gs3EncStream (key.setWidth 3) (pairsOf s.buffer) s = r) :
    ∃ t, exec (.gs3BEnc key) s = .next t ∧ t.buffer = wordsOf r.1 ∧ t.gs3l = r.2.gs3l ∧
      t = { s with mem := t.mem, gs3l := t.gs3l, gs3k := t.gs3k, status := okStatus s.status } := by
  have hlegal : key.toNat ≤ 7 := hkey.trans (by decide)
  have hframe : SameButLatch s r.2 :=
    hr ▸ gs3EncStream_frame ((setWidth_key_toNat hlegal).trans_le hkey) hps (.of_clear rfl hs hs)
  obtain ⟨t, hexec, ht, hbuffer, -⟩ := gs3BEnc_isStream hlegal heven hr
  refine ⟨t, hexec, hbuffer, by rw [ht]; rfl, ?_⟩
  rw [hframe] at ht
  rw [ht]
  rfl

/-- With a second line pending, `GS3_DECP` clears the latch and otherwise writes `RES` and `STATUS` only (R174). -/
theorem exec_gs3DecP_clears_latch {s : State} (h : s.gs3l = true) :
    ∃ res, exec .gs3DecP s = .next { s with res := res, gs3l := false, status := okStatus s.status } :=
  ⟨_, (pairDecryptCases s _ _ rfl rfl).1 h⟩

/-- Keys 3 and 4 as the explicit key and as the key of the pair operation (R178). -/
theorem setWidth_key_latches {key : Byte} (h : key.toNat ≤ 7) :
    (key.setWidth 3 = 3 ∨ key.setWidth 3 = 4) ↔ key = 3 ∨ key = 4 := by
  simp only [← BitVec.toNat_inj, setWidth_key_toNat h]
  rfl

/-- Settles O59: the encryption leaves the seeds and tables, so a decryption that starts with a clear latch is in step with
it, whatever cleared the latch. -/
theorem gs3BatchRoundTrip : Obligations.Gs3BatchRoundTrip := by
  intro s key hkey hs heven hps
  have hlegal : key.toNat ≤ 7 := hkey.trans (by decide)
  have hkey4 : (key.setWidth 3).toNat ≤ 4 := (setWidth_key_toNat hlegal).trans_le hkey
  obtain ⟨t, hexec, hbuffer, hlatch, ht⟩ := gs3BEnc_changes_latch hkey hs heven hps rfl
  have htbl : t.tbl = s.tbl := by rw [ht]
  have hlen : t.len = s.len := by rw [ht]
  refine ⟨t, hexec, ?_, ?_, fun hset op => ?_⟩
  · rw [hlatch, gs3EncStream_latch_iff hkey4 _ hs, setWidth_key_latches hlegal, pairsOf_buffer_length]
  · obtain ⟨u, hdec, hubuffer, hu⟩ :=
      gs3BDec_restores (v := { t with gs3l := false }) hkey4 hs rfl htbl heven hlen hps hbuffer
    refine ⟨u, hdec, hubuffer, ?_⟩
    rw [hu, ht, okStatus_okStatus]
  · obtain ⟨res, hdecp⟩ := exec_gs3DecP_clears_latch (s := { t with op := op }) hset
    obtain ⟨u, hdec, hubuffer, -⟩ := gs3BDec_restores
      (v := { t with op := op, res := res, gs3l := false, status := okStatus t.status }) hkey4 hs rfl htbl heven hlen hps
      hbuffer
    exact ⟨_, u, hdecp, rfl, hdec, hubuffer⟩

end Sys2Proof.Machine
end
